-- ==== Sys2Proof/Word.lean ====
section
/-! DEFINITION. The word types of the HUFF codec block (00_scope.md R6, R8, R9): every value is an unsigned
bit vector or an unbounded natural number. -/

namespace Sys2Proof

/-- A byte of data memory, a symbol, or an 8-bit index (R6 `NSYM`, R14). -/
abbrev Byte := BitVec 8

/-- A 32-bit register, a count (R6 `CNT_W`) or a memory address (R6 `ADDR_W`). -/
abbrev Word := BitVec 32

/-- A node weight (R6 `W_W`). -/
abbrev Weight := BitVec 40

/-- An arena index or a count of arena entries (R14, 10_state.md R41 to R43). -/
abbrev NodeIdx := BitVec 9

/-- The payload bit counter (R6 `BITCNT_W`). -/
abbrev BitCount := BitVec 48

end Sys2Proof
end

