-- ==== Sys2Proof/Syntax.lean ====
section
/-! DEFINITION. The commands of spec/opcode_table.json, the names of the registers, the statements of a host
program (30_encoding.md R93, R100 to R103), and the values the block's tables hold (00_scope.md R14, R15). -/

namespace Sys2Proof

/-- The eleven commands (30_encoding.md R93). A command word has no operand field (R94). -/
inductive Instr where
  | nop
  | clear
  | count
  | build
  | gencode
  | pack
  | hdrWrite
  | hdrParse
  | unpack
  | compress
  | decompress
  deriving DecidableEq, Repr, Inhabited

/-- The registers of the window by name (10_state.md R22). -/
inductive Reg where
  | id | cmd | status | irqEn
  | srcAddr | srcLen | dstAddr | dstCap
  | outLen | origLen | errAddr | bitcntLo | bitcntHi
  | numLeaves | root | nodeCount
  | freqIdx | freqData
  | codeIdx | codeInfo | codeSel | codeBits
  | nodeIdx | nodeInfo | nodeWlo | nodeWhi
  deriving DecidableEq, Repr, Inhabited

/-- A bus transaction (30_encoding.md R103): `W off v` or `R off`. `bytes` is the access size in bytes; only 4 has a
meaning (20_memory.md R78), the others are here so that the model can refuse them (40_control.md R114). -/
inductive BusTxn where
  | w (off : BitVec 8) (bytes : Nat) (v : Word)
  | r (off : BitVec 8) (bytes : Nat)
  deriving DecidableEq, Repr, Inhabited

/-- A statement of a host program (30_encoding.md R100). `busWrite` and `busRead` are bus accesses by offset and
size, for reserved offsets and for the accesses a model refuses. A temporary `tN` is its number; a `MEMR` buffer is its
name. -/
inductive HostStmt where
  | wr (r : Reg) (v : Word)
  | rd (r : Reg) (t : Nat)
  | cmd (i : Instr)
  | wait
  | memw (a : Word) (bs : List Byte)
  | memr (a : Word) (n : Nat) (name : String)
  | busWrite (off : BitVec 8) (bytes : Nat) (v : Word)
  | busRead (off : BitVec 8) (bytes : Nat) (t : Nat)
  deriving DecidableEq, Repr, Inhabited

/-- The agents and events of 40_control.md R110. -/
inductive Agent where
  | host
  | engine
  | reset
  deriving DecidableEq, Repr, Inhabited

/-- A node of the arena (00_scope.md R14). -/
inductive Node where
  | absent
  | leaf (sym : Byte) (w : Weight)
  | internal (left right : NodeIdx) (w : Weight)
  deriving DecidableEq, Repr, Inhabited

/-- A code-table entry (00_scope.md R15): `none` is `valid = 0` (then `len = 0` and `bits = []`), `some bits` is
`valid = 1` with `len` the length of `bits`; the first bit is the edge that leaves the root. -/
abbrev Code := Option (List Bool)

/-- A range of data memory whose DMA accesses complete: the platform's `MemOK` (00_scope.md R7) is a list of them. -/
structure Region where
  base : Nat
  size : Nat
  deriving DecidableEq, Repr, Inhabited

end Sys2Proof
end

