-- ==== Sys2Proof/Config.lean ====
section
/-! DEFINITION. What is fixed for the block (00_scope.md R6, 10_state.md R24), the platform parameter `REG_BASE` (R7),
and the FREE VALUES: constants with no body, one for each value the spec leaves unspecified
(93_implementation_defined.md I9 to I12). `draw` is the number of the draw (`State.draws`), so every draw is a fresh
value; the second argument is the entry's index. -/

namespace Sys2Proof

/-- `ID` always reads this (10_state.md R24). -/
def Config.idValue : Word := 0x48554631

/-- `HDR_BYTES` (R6). -/
def Config.hdrBytes : Nat := 1028

/-- `MAX_NODES` (R6). -/
def Config.maxNodes : Nat := 511

/-- One past the last address of data memory, `2 ^ ADDR_W` (R6, 20_memory.md R70). -/
def Config.addrEnd : Nat := 4294967296

/-- `REG_BASE` (R7, I16): no rule depends on it and no definition of the model reads it. -/
opaque Config.regBase : Word

/-- What a host read of another register returns while BUSY = 1 (40_control.md R111, I9). -/
opaque Config.freeRead (draw : Nat) : Word

/-- `FREQ[s]` after an in-flight error of a command that writes FREQ (60_exceptions.md R224, I10). -/
opaque Config.freeFreq (draw s : Nat) : Word

/-- `ORIG_LEN` after such an error (R224, I10). -/
opaque Config.freeOrigLen (draw : Nat) : Word

/-- `NODE[i]` after such an error (R224, I10). -/
opaque Config.freeNode (draw i : Nat) : Node

/-- `NUM_LEAVES` after such an error (R224, I10). -/
opaque Config.freeNumLeaves (draw : Nat) : NodeIdx

/-- `ROOT` after such an error (R224, I10). -/
opaque Config.freeRoot (draw : Nat) : NodeIdx

/-- `NODE_COUNT` after such an error (R224, I10). -/
opaque Config.freeNodeCount (draw : Nat) : NodeIdx

/-- `CODE[s]` after such an error (R224, I10): whether it is valid, its `len` (8 bits) and its up to 255 bits. -/
opaque Config.freeCode (draw s : Nat) : Bool × BitVec 8 × BitVec 255

/-- `BITCNT` after such an error (R224, I10). -/
opaque Config.freeBitCnt (draw : Nat) : BitCount

/-- Byte `i` of the destination window after an in-flight error (R224, I11), or after a reset taken while BUSY = 1
(70_reset_and_hazards.md R251, I12). -/
opaque Config.freeByte (draw i : Nat) : Byte

end Sys2Proof
end

