-- ==== Sys2Proof/WellFormed.lean ====
section
/-! DEFINITION. Which terms the model gives a meaning. A command has no operand field, so every command is well formed
(30_encoding.md R94); the checks that can fail are those of a host's accesses (20_memory.md R78, 40_control.md R114, 20_memory.md R70)
and of a platform's regions (00_scope.md R7). -/

namespace Sys2Proof

/-- R94: a command word has no operand to check. -/
def Instr.wf : Instr → Bool
  | .nop | .clear | .count | .build | .gencode | .pack | .hdrWrite | .hdrParse | .unpack | .compress | .decompress => true

/-- R78: a register access is a 32-bit access at an offset that is a multiple of 4. -/
def BusTxn.wf : BusTxn → Bool
  | .w off bytes _ => bytes == 4 && off.toNat % 4 == 0
  | .r off bytes => bytes == 4 && off.toNat % 4 == 0

/-- R70: data memory has the addresses 0 to 2^32 − 1. -/
def memRangeWf (a : Word) (n : Nat) : Bool := a.toNat + n ≤ Config.addrEnd

/-- A host statement the model gives a meaning, as far as the statement alone can say (the duty of 20_memory.md R84 needs the
state). -/
def HostStmt.wf : HostStmt → Bool
  | .wr _ _ | .rd _ _ | .wait => true
  | .cmd i => i.wf
  | .memw a bs => memRangeWf a bs.length
  | .memr a n _ => memRangeWf a n
  | .busWrite off bytes v => (BusTxn.w off bytes v).wf
  | .busRead off bytes _ => (BusTxn.r off bytes).wf

/-- A region of the platform's `MemOK` lies in data memory. -/
def Region.wf (r : Region) : Bool := r.base + r.size ≤ Config.addrEnd

end Sys2Proof
end

