-- ==== Sys2Proof/Decode.lean ====
section
/-! DEFINITION. The decoder of the command word (30_encoding.md R90 to R95), total on every 32-bit word and rejecting by name;
the encoder from the same table; register offsets (10_state.md R22); and the encoding of host statements as bus transactions
(R103). -/

namespace Sys2Proof

/-- Why a word is no command (R92, R95). Both raise ILLEGAL_CMD. -/
inductive DecodeError where
  /-- `CMD[31:8]` is not 0. -/
  | reservedBits
  /-- The opcode is above 0x0A. -/
  | reservedOpcode
  deriving DecidableEq, Repr, Inhabited

/-- R91 `OPCODE`. -/
def opcodeField (w : Word) : Byte := w.extractLsb' 0 8

/-- R91 `RSVD`. -/
def rsvdField (w : Word) : BitVec 24 := w.extractLsb' 8 24

/-- R93, read from the opcode's number. -/
def instrOfOpcode : Nat → Option Instr
  | 0x00 => some .nop
  | 0x01 => some .clear
  | 0x02 => some .count
  | 0x03 => some .build
  | 0x04 => some .gencode
  | 0x05 => some .pack
  | 0x06 => some .hdrWrite
  | 0x07 => some .hdrParse
  | 0x08 => some .unpack
  | 0x09 => some .compress
  | 0x0A => some .decompress
  | _ => none

/-- R92: RSVD is checked first, then the opcode. -/
def decode (w : Word) : Except DecodeError Instr :=
  if rsvdField w ≠ 0 then .error .reservedBits
  else
    match instrOfOpcode (opcodeField w).toNat with
    | some i => .ok i
    | none => .error .reservedOpcode

/-- R93, the other way. -/
def opcodeOf : Instr → Byte
  | .nop => 0x00
  | .clear => 0x01
  | .count => 0x02
  | .build => 0x03
  | .gencode => 0x04
  | .pack => 0x05
  | .hdrWrite => 0x06
  | .hdrParse => 0x07
  | .unpack => 0x08
  | .compress => 0x09
  | .decompress => 0x0A

/-- R91: RSVD 0 above OPCODE. -/
def encode (i : Instr) : Word := 0#24 ++ opcodeOf i

/-- The instruction the decoder reads from a table row's bits: the command word is one 32-bit word, its bits above `nbits`
zero; a longer word is no command. -/
def decodeTableWord (nbits w : Nat) : Option Instr :=
  let c := w % 2 ^ nbits
  if 4294967296 ≤ c then none
  else
    match decode (BitVec.ofNat 32 c) with
    | .ok i => some i
    | .error _ => none

/-- R22: the offset of each register. -/
def regOffset : Reg → BitVec 8
  | .id => 0x00
  | .cmd => 0x04
  | .status => 0x08
  | .irqEn => 0x0C
  | .srcAddr => 0x10
  | .srcLen => 0x14
  | .dstAddr => 0x18
  | .dstCap => 0x1C
  | .outLen => 0x20
  | .origLen => 0x24
  | .errAddr => 0x28
  | .bitcntLo => 0x2C
  | .bitcntHi => 0x30
  | .numLeaves => 0x34
  | .root => 0x38
  | .nodeCount => 0x3C
  | .freqIdx => 0x40
  | .freqData => 0x44
  | .codeIdx => 0x48
  | .codeInfo => 0x4C
  | .codeSel => 0x50
  | .codeBits => 0x54
  | .nodeIdx => 0x58
  | .nodeInfo => 0x5C
  | .nodeWlo => 0x60
  | .nodeWhi => 0x64

/-- R22, R23: the register at an offset; `none` at a reserved offset (0x68 to 0xFC). -/
def regAt (off : BitVec 8) : Option Reg :=
  match off.toNat with
  | 0x00 => some .id
  | 0x04 => some .cmd
  | 0x08 => some .status
  | 0x0C => some .irqEn
  | 0x10 => some .srcAddr
  | 0x14 => some .srcLen
  | 0x18 => some .dstAddr
  | 0x1C => some .dstCap
  | 0x20 => some .outLen
  | 0x24 => some .origLen
  | 0x28 => some .errAddr
  | 0x2C => some .bitcntLo
  | 0x30 => some .bitcntHi
  | 0x34 => some .numLeaves
  | 0x38 => some .root
  | 0x3C => some .nodeCount
  | 0x40 => some .freqIdx
  | 0x44 => some .freqData
  | 0x48 => some .codeIdx
  | 0x4C => some .codeInfo
  | 0x50 => some .codeSel
  | 0x54 => some .codeBits
  | 0x58 => some .nodeIdx
  | 0x5C => some .nodeInfo
  | 0x60 => some .nodeWlo
  | 0x64 => some .nodeWhi
  | _ => none

/-- R100, R103: the bus transactions of a host statement. `WAIT` is the read of STATUS that it repeats; `MEMW` and `MEMR` are
platform accesses, no bus transactions of the block. -/
def busTransactions : HostStmt → List BusTxn
  | .wr r v => [.w (regOffset r) 4 v]
  | .rd r _ => [.r (regOffset r) 4]
  | .cmd i => [.w (regOffset .cmd) 4 (encode i)]
  | .wait => [.r (regOffset .status) 4]
  | .memw _ _ => []
  | .memr _ _ _ => []
  | .busWrite off bytes v => [.w off bytes v]
  | .busRead off bytes _ => [.r off bytes]

end Sys2Proof
end

