-- ==== Sys2Proof/Machine/State.lean ====
section
/-! DEFINITION. The state of the block as plain data (10_state.md), the platform's memory (20_memory.md R70), the host's
program, the reasons a step can stop, and the state after reset (70_reset_and_hazards.md R250). -/

namespace Sys2Proof.Machine

/-- Data memory: addresses strictly rising, and no entry equal to what an unlisted address reads as (`unlistedByte` of Machine/Ops.lean). -/
abbrev Memory := List Host.Cell

/-- `FREQ[0..255]` (10_state.md R49). -/
abbrev FreqTable := Vector Word 256

/-- `NODE[0..510]` (R50). -/
abbrev Arena := Vector Node 511

/-- `CODE[0..255]` (R52). -/
abbrev CodeTable := Vector Code 256

/-- Why the machine stops with a fault. -/
inductive Fault where
  /-- Raised by GENCODE, UNPACK, COMPRESS or DECOMPRESS when a tree walk leaves the tree: TREE_VALID is 1 and the arena breaks
  10_state.md R51. No run reaches such a state (R32), and the pseudocode of R160 and R190 gives it no effect. Safe. -/
  | arenaNotTree
  deriving DecidableEq, Repr, Inhabited

/-- Why a step has no meaning. -/
inductive Refusal where
  /-- Raised by exec's arm of a command that has no meaning yet (no arm of this model). Safe. -/
  | notModelled (mnemonic : String)
  /-- Raised by a host register access that is not a 32-bit access at a multiple of 4 (40_control.md R114, I14). Safe. -/
  | hostAccessNotWord
  /-- Raised by a host memory access that breaks the duty of 20_memory.md R84 (I13). Safe. -/
  | hostBreaksDuty
  /-- Raised by a host memory access that passes address 2^32 − 1 (20_memory.md R70). Safe. -/
  | hostOutsideMemory
  deriving DecidableEq, Repr, Inhabited

/-- The error codes of 60_exceptions.md R220. -/
inductive ErrCode where
  | illegalCmd
  | range
  | overlap
  | busError
  | emptyAlphabet
  | noTree
  | noCodes
  | noCode
  | dstOverflow
  | corruptHeader
  | truncatedPayload
  deriving DecidableEq, Repr, Inhabited

/-- How a command ends without `Ok(n)` (00_scope.md R12): a pre-check raise (R223), an in-flight raise (R224), each with its
error address, or a fault of the model. -/
inductive Stop where
  | pre (e : ErrCode) (a : Nat)
  | inflight (e : ErrCode) (a : Nat)
  | stuck (f : Fault)
  deriving DecidableEq, Repr, Inhabited

/-- A part of a command: a value, or the way the command ends. -/
abbrev Run (α : Type) := Except Stop α

/-- The state elements a command may change besides STATUS, ERR_ADDR and OUT_LEN (60_exceptions.md R225). `tree` is NODE,
NUM_LEAVES, ROOT and NODE_COUNT; `dst` is the destination window. -/
structure WriteSet where
  freq : Bool := false
  origLen : Bool := false
  tree : Bool := false
  code : Bool := false
  bitCnt : Bool := false
  treeFlag : Bool := false
  codesFlag : Bool := false
  dst : Bool := false
  deriving DecidableEq, Repr, Inhabited

/-- What BUILD makes (42_tree_builder.md R148). -/
structure Tree where
  node : Arena
  numLeaves : NodeIdx
  root : NodeIdx
  nodeCount : NodeIdx
  deriving DecidableEq, Repr

/-- A leaf met by the depth-first walk, with its path from the root (43_code_generator.md R161). -/
structure LeafPath where
  sym : Byte
  w : Weight
  path : List Bool
  deriving DecidableEq, Repr

/-- The packer's hidden state (10_state.md R56) with the output count `o`, the bit count `nb` and memory (44_bit_packer.md
R170). -/
structure Packer where
  acc : Byte
  k : Nat
  o : Nat
  nb : Nat
  mem : Memory
  deriving DecidableEq, Repr

/-- The decoder's hidden state (10_state.md R57) with the byte being read and memory (46_bit_unpacker.md R190). -/
structure Cursor where
  cur : Nat
  cnt : Nat
  j : Nat
  byte : Byte
  mem : Memory
  deriving DecidableEq, Repr

/-- The whole state. -/
structure State where
  /-- CMD (R25). -/
  cmd : Word
  /-- STATUS.BUSY (R27). -/
  busy : Bool
  /-- STATUS.DONE (R28). -/
  done : Bool
  /-- STATUS.ERR (R29). -/
  err : Bool
  /-- STATUS.OVR (R30). -/
  ovr : Bool
  /-- STATUS.ERRCODE (R31). -/
  errCode : BitVec 4
  /-- STATUS.TREE_VALID (R32). -/
  treeValid : Bool
  /-- STATUS.CODES_VALID (R33). -/
  codesValid : Bool
  /-- IRQ_EN: DONE_EN, ERR_EN, OVR_EN from bit 0 (R34). -/
  irqEn : BitVec 3
  /-- SRC_ADDR (R35). -/
  srcAddr : Word
  /-- SRC_LEN (R35). -/
  srcLen : Word
  /-- DST_ADDR (R36). -/
  dstAddr : Word
  /-- DST_CAP (R36). -/
  dstCap : Word
  /-- OUT_LEN (R37). -/
  outLen : Word
  /-- ORIG_LEN (R38). -/
  origLen : Word
  /-- ERR_ADDR (R39). -/
  errAddr : Word
  /-- BITCNT (R40). -/
  bitCnt : BitCount
  /-- NUM_LEAVES (R41). -/
  numLeaves : NodeIdx
  /-- ROOT (R42). -/
  root : NodeIdx
  /-- NODE_COUNT (R43). -/
  nodeCount : NodeIdx
  /-- FREQ_IDX (R44). -/
  freqIdx : Byte
  /-- CODE_IDX (R45). -/
  codeIdx : Byte
  /-- CODE_SEL (R46). -/
  codeSel : BitVec 3
  /-- NODE_IDX (R47). -/
  nodeIdx : NodeIdx
  /-- FREQ (R49). -/
  freq : FreqTable
  /-- NODE (R50). -/
  node : Arena
  /-- CODE (R52). -/
  code : CodeTable
  /-- Data memory (20_memory.md R70). -/
  mem : Memory
  /-- The platform's MemOK (00_scope.md R7), which no step changes (log 1). -/
  memMap : List Region
  /-- The host's remaining program (30_encoding.md R101). -/
  host : List HostStmt
  /-- The host's temporaries (R100), the last one written first, each number once. -/
  temps : List (Nat × Word)
  /-- The host's buffers read by MEMR (R100), the last one written first, each name once. -/
  bufs : List (String × List Byte)
  /-- The model's own: which agent steps next (40_control.md R110; log 3). -/
  schedule : List Agent
  /-- The model's own: the number of the next free draw (log 5). -/
  draws : Nat
  deriving DecidableEq, Repr

/-- 70_reset_and_hazards.md R250 and 10_state.md R60: every register 0, every count 0, every node Absent, every code invalid.
Memory lists nothing (log 2), every address is MemOK (DESIGN CHOICE, log 1), and the host has no program (log 4). -/
def State.reset : State where
  cmd := 0
  busy := false
  done := false
  err := false
  ovr := false
  errCode := 0
  treeValid := false
  codesValid := false
  irqEn := 0
  srcAddr := 0
  srcLen := 0
  dstAddr := 0
  dstCap := 0
  outLen := 0
  origLen := 0
  errAddr := 0
  bitCnt := 0
  numLeaves := 0
  root := 0
  nodeCount := 0
  freqIdx := 0
  codeIdx := 0
  codeSel := 0
  nodeIdx := 0
  freq := Vector.replicate 256 0
  node := Vector.replicate 511 .absent
  code := Vector.replicate 256 none
  mem := []
  memMap := [⟨0, Config.addrEnd⟩]
  host := []
  temps := []
  bufs := []
  schedule := []
  draws := 0

end Sys2Proof.Machine
end

