-- ==== Sys2Proof/Machine/Flags.lean ====
section
/-! DEFINITION. The STATUS word and its flags (10_state.md R26 to R33), the error codes (60_exceptions.md R220), the write-one-to-clear
bits, and the interrupt line (R227). -/

namespace Sys2Proof.Machine

/-- R220: the number of each error code. -/
def errNumber : ErrCode → BitVec 4
  | .illegalCmd => 1
  | .range => 2
  | .overlap => 3
  | .busError => 4
  | .emptyAlphabet => 5
  | .noTree => 6
  | .noCodes => 7
  | .noCode => 8
  | .dstOverflow => 9
  | .corruptHeader => 10
  | .truncatedPayload => 11

/-- One bit. -/
def bit (b : Bool) : BitVec 1 := BitVec.ofBool b

/-- R26: STATUS as the host reads it; reserved bits read 0 (R23). -/
def statusWord (s : State) : Word :=
  0#14 ++ bit s.codesValid ++ bit s.treeValid ++ 0#4 ++ s.errCode ++ 0#4 ++ bit s.ovr ++ bit s.err ++ bit s.done ++ bit s.busy

/-- R26: a host write of `v` to STATUS while BUSY = 0 clears DONE, ERR and OVR where `v` has a 1; ERRCODE stays (R31). -/
def writeStatus (s : State) (v : Word) : State :=
  { s with
    done := s.done && !v.getLsbD 1
    err := s.err && !v.getLsbD 2
    ovr := s.ovr && !v.getLsbD 3 }

/-- R32, R33: a host write of FREQ, COUNT and HDR_PARSE clear both validity flags. -/
def clearValid (s : State) : State := { s with treeValid := false, codesValid := false }

/-- 60_exceptions.md R227: the level-triggered interrupt line, a function of STATUS and IRQ_EN. -/
def irq (s : State) : Bool :=
  (s.done && s.irqEn.getLsbD 0) || (s.err && s.irqEn.getLsbD 1) || (s.ovr && s.irqEn.getLsbD 2)

end Sys2Proof.Machine
end

