-- ==== Sys2Proof/Machine/Ops.lean ====
section
/-! DEFINITION. The named operations over memory, the tables and the status: bytes of memory (20_memory.md R70, R74, R75), the free
values an in-flight error leaves (60_exceptions.md R224, R225), issue (40_control.md R115), completion (R117), taking an error (R222), and
reset (70_reset_and_hazards.md R250, R251). -/

namespace Sys2Proof.Machine

/-! ### Data memory -/

/-- DESIGN CHOICE (log 2): what an unlisted address reads as. The spec leaves the contents of memory to the platform (R250);
every contents of the 2^32 bytes is some canonical list. -/
def unlistedByte : Byte := 0

/-- The byte at an address. -/
def Memory.read : Memory → Nat → Byte
  | [], _ => unlistedByte
  | (k, v) :: m, a => if k = a then v else Memory.read m a

/-- One entry put in front, unless it is what an unlisted address reads as. -/
def consCell (a : Nat) (v : Byte) (m : Memory) : Memory := if v = unlistedByte then m else (a, v) :: m

/-- The memory with one byte stored, in the canonical form. -/
def Memory.write : Memory → Nat → Byte → Memory
  | [], a, v => consCell a v []
  | (k, w) :: m, a, v =>
    if k < a then (k, w) :: Memory.write m a v
    else if k = a then consCell a v m
    else consCell a v ((k, w) :: m)

/-- The canonical form: addresses strictly rising and no entry equal to `unlistedByte`. -/
def Memory.wf : Memory → Bool
  | [] => true
  | [(_, v)] => v != unlistedByte
  | (k, v) :: (k', v') :: m => v != unlistedByte && decide (k < k') && Memory.wf ((k', v') :: m)

/-- Bytes stored from `a` upward. -/
def Memory.writeList : Memory → Nat → List Byte → Memory
  | m, _, [] => m
  | m, a, b :: bs => Memory.writeList (Memory.write m a b) (a + 1) bs

/-- The `n` bytes from `a` upward. -/
def Memory.readList (m : Memory) (a n : Nat) : List Byte := (List.range n).map fun i => Memory.read m (a + i)

/-- `a` lies in the range of `len` bytes from `base`, computed without wrap-around (R71). -/
def inRange (base len a : Nat) : Bool := decide (base ≤ a) && decide (a < base + len)

/-- `MemOK` (00_scope.md R7): a DMA access to the byte address completes. -/
def memOK (mm : List Region) (a : Nat) : Bool := mm.any fun r => inRange r.base r.size a

/-- `MemRead(a, 1)` (00_scope.md R11, R74). -/
def dmaRead (mm : List Region) (m : Memory) (a : Nat) : Run Byte :=
  if memOK mm a then .ok (Memory.read m a) else .error (.inflight .busError a)

/-- `MemWrite(a, 1, v)` (00_scope.md R11, R74). -/
def dmaWrite (mm : List Region) (m : Memory) (a : Nat) (v : Byte) : Run Memory :=
  if memOK mm a then .ok (Memory.write m a v) else .error (.inflight .busError a)

/-- `n` bytes read in ascending address order; the first byte that does not respond ends the command (R80). -/
def readBytes (mm : List Region) (m : Memory) : Nat → Nat → Run (List Byte)
  | _, 0 => .ok []
  | a, n + 1 =>
    match dmaRead mm m a with
    | .error e => .error e
    | .ok b =>
      match readBytes mm m (a + 1) n with
      | .error e => .error e
      | .ok bs => .ok (b :: bs)

/-- Bytes written in ascending address order; the first one that does not respond ends the command (R80). -/
def writeBytes (mm : List Region) : Memory → Nat → List Byte → Run Memory
  | m, _, [] => .ok m
  | m, a, b :: bs =>
    match dmaWrite mm m a b with
    | .error e => .error e
    | .ok m' => writeBytes mm m' (a + 1) bs

/-! ### Byte order of the header (R75) -/

/-- `LE32(v)`: the least-significant byte first. -/
def le32 (v : Word) : List Byte := [v.extractLsb' 0 8, v.extractLsb' 8 8, v.extractLsb' 16 8, v.extractLsb' 24 8]

/-- `LE32_read`: the value of four bytes, `Σ byte_t × 2^(8t)`. -/
def le32Of (b₀ b₁ b₂ b₃ : Byte) : Word :=
  BitVec.ofNat 32 (b₀.toNat + b₁.toNat * 256 + b₂.toNat * 65536 + b₃.toNat * 16777216)

/-- The consecutive 32-bit fields of a byte sequence; bytes past the last whole field are in none. -/
def le32Words : List Byte → List Word
  | b₀ :: b₁ :: b₂ :: b₃ :: bs => le32Of b₀ b₁ b₂ b₃ :: le32Words bs
  | [_, _, _] | [_, _] | [_] | [] => []

/-! ### Tables -/

/-- The entry of a symbol. -/
def symGet {α : Type} (t : Vector α 256) (s : Byte) : α := t[s.toNat]'s.isLt

/-- A table with the entry of one symbol replaced. -/
def symSet {α : Type} (t : Vector α 256) (s : Byte) (x : α) : Vector α 256 := t.set s.toNat x s.isLt

/-- The table of `n` entries that begins with a list and is `d` from there on. -/
def tableOf {α : Type} (n : Nat) (d : α) (l : List α) : Vector α n := ⟨((l ++ List.replicate n d).take n).toArray, by simp⟩

/-- `NODE[i]`; an index past 510 is never filled (10_state.md R47). -/
def nodeAt (ar : Arena) (i : Nat) : Node := if h : i < 511 then ar[i] else .absent

/-- `NODE[i].w` (00_scope.md R14); 0 for an absent entry (10_state.md R48). -/
def nodeWeight : Node → Weight
  | .absent => 0
  | .leaf _ w => w
  | .internal _ _ w => w

/-- Every count 0 (R60). -/
def zeroFreq : FreqTable := Vector.replicate 256 0

/-- Every node Absent (R60). -/
def emptyArena : Arena := Vector.replicate 511 .absent

/-- Every code invalid (R60). -/
def emptyCodes : CodeTable := Vector.replicate 256 none

/-! ### Free values after an in-flight error (60_exceptions.md R224, R225) -/

/-- R225: the write-set of each command. -/
def writeSet : Instr → WriteSet
  | .nop => {}
  | .clear => { freq := true, code := true, tree := true, origLen := true, bitCnt := true, treeFlag := true, codesFlag := true }
  | .count => { freq := true, origLen := true, treeFlag := true, codesFlag := true }
  | .build => { tree := true, treeFlag := true, codesFlag := true }
  | .gencode => { code := true, bitCnt := true, codesFlag := true }
  | .pack => { bitCnt := true, dst := true }
  | .hdrWrite => { dst := true }
  | .hdrParse => { freq := true, origLen := true, treeFlag := true, codesFlag := true }
  | .unpack => { bitCnt := true, dst := true }
  | .compress =>
    { freq := true, origLen := true, tree := true, code := true, bitCnt := true, treeFlag := true, codesFlag := true, dst := true }
  | .decompress =>
    { freq := true, origLen := true, tree := true, bitCnt := true, treeFlag := true, codesFlag := true, dst := true }

/-- A free entry of the code table: of its type (00_scope.md R15), and otherwise any. -/
def freeCodeEntry (draw s : Nat) : Code :=
  let x := Config.freeCode draw s
  if x.1 then some ((List.range x.2.1.toNat).map fun j => x.2.2.getLsbD j) else none

/-- Free bytes stored at `base + i`, `base + i + 1`, …, `n` of them, none past the end of data memory. -/
def freeFill (draw base : Nat) : Nat → Nat → Memory → Memory
  | _, 0, m => m
  | i, n + 1, m =>
    freeFill draw base (i + 1) n (if base + i < Config.addrEnd then Memory.write m (base + i) (Config.freeByte draw i) else m)

/-- R224: every element of the write-set holds a free value, the validity flags in it are 0, and everything else is
unchanged. -/
def havoc (w : WriteSet) (s : State) : State :=
  { s with
    freq := if w.freq then Vector.ofFn fun i => Config.freeFreq s.draws i.val else s.freq
    origLen := if w.origLen then Config.freeOrigLen s.draws else s.origLen
    node := if w.tree then Vector.ofFn fun i => Config.freeNode s.draws i.val else s.node
    numLeaves := if w.tree then Config.freeNumLeaves s.draws else s.numLeaves
    root := if w.tree then Config.freeRoot s.draws else s.root
    nodeCount := if w.tree then Config.freeNodeCount s.draws else s.nodeCount
    code := if w.code then Vector.ofFn fun i => freeCodeEntry s.draws i.val else s.code
    bitCnt := if w.bitCnt then Config.freeBitCnt s.draws else s.bitCnt
    treeValid := s.treeValid && !w.treeFlag
    codesValid := s.codesValid && !w.codesFlag
    mem := if w.dst then freeFill s.draws s.dstAddr.toNat 0 s.dstCap.toNat s.mem else s.mem
    draws := s.draws + 1 }

/-! ### Issue, completion, errors -/

/-- 40_control.md R115: the issue of the command word `v`. -/
def issue (s : State) (v : Word) : State :=
  { s with cmd := v, busy := true, done := false, err := false, errCode := 0, errAddr := 0 }

/-- TAKING AN ERROR (60_exceptions.md R222, R230): ERR, ERRCODE and ERR_ADDR are recorded, OUT_LEN is 0, and BUSY returns to 0.
There is no vector and no saved pc. The host returns from it by issuing the next command (R231), which is `issue`. -/
def recordError (s : State) (e : ErrCode) (a : Nat) : State :=
  { s with err := true, errCode := errNumber e, errAddr := BitVec.ofNat 32 a, outLen := 0, busy := false }

/-- 40_control.md R117: completion with `Ok(n)`. -/
def recordDone (s : State) (n : Nat) : State :=
  { s with done := true, outLen := BitVec.ofNat 32 n, busy := false }

/-- R117: what a command's outcome does to the state `s` it started from. -/
def complete (w : WriteSet) (s : State) : Run (Nat × State) → Host.Outcome State Fault Refusal
  | .ok (n, t) => .next (recordDone t n)
  | .error (.pre e a) => .next (recordError s e a)
  | .error (.inflight e a) => .next (recordError (havoc w s) e a)
  | .error (.stuck f) => .fault f

/-! ### Reset -/

/-- Whether a command writes the destination window (20_memory.md R71); an illegal word writes nothing. -/
def wordWritesDst (w : Word) : Bool :=
  match decode w with
  | .ok i => (writeSet i).dst
  | .error _ => false

/-- 70_reset_and_hazards.md R250, R251, R254: the registers and tables take their reset values; a reset taken while BUSY = 1
leaves the abandoned command's destination window free; memory is otherwise unchanged. DEDUCED (log 7): where that window shares bytes with
the source window (OVERLAP pending, or HDR_WRITE, which reads none), the shared bytes are free too. DEDUCED (log 15): the platform, the
host's program and the model's own fields are not the block's, so they stay. -/
def resetEvent (s : State) : State :=
  { State.reset with
    mem := if s.busy && wordWritesDst s.cmd then freeFill s.draws s.dstAddr.toNat 0 s.dstCap.toNat s.mem else s.mem
    memMap := s.memMap
    host := s.host
    temps := s.temps
    bufs := s.bufs
    schedule := s.schedule
    draws := s.draws + 1 }

end Sys2Proof.Machine
end

