-- ==== Sys2Proof/Machine/Operands.lean ====
section
/-! DEFINITION. The operand forms of the commands (30_encoding.md R94): the two windows with their checks (20_memory.md R71 to R73), the
host's duty towards them (R84), and the bit slices a register read assembles (10_state.md R46). -/

namespace Sys2Proof.Machine

/-- `CheckRange(SRC)` (R72), a pre-check. -/
def checkSrcRange (s : State) : Run Unit :=
  if s.srcAddr.toNat + s.srcLen.toNat > Config.addrEnd then .error (.pre .range s.srcAddr.toNat) else .ok ()

/-- `CheckRange(DST)` (R72), a pre-check. -/
def checkDstRange (s : State) : Run Unit :=
  if s.dstAddr.toNat + s.dstCap.toNat > Config.addrEnd then .error (.pre .range s.dstAddr.toNat) else .ok ()

/-- Two ranges both hold a byte and intersect (the condition of R73). -/
def rangesMeet (b₁ l₁ b₂ l₂ : Nat) : Bool :=
  decide (l₁ > 0) && decide (l₂ > 0) && decide (b₁ < b₂ + l₂) && decide (b₂ < b₁ + l₁)

/-- The source and destination windows meet (R73). -/
def windowsOverlap (s : State) : Bool := rangesMeet s.srcAddr.toNat s.srcLen.toNat s.dstAddr.toNat s.dstCap.toNat

/-- `CheckOverlap()` (R73), a pre-check. -/
def checkOverlap (s : State) : Run Unit := if windowsOverlap s then .error (.pre .overlap 0) else .ok ()

/-- The pre-checks of a command that uses both windows, in the order of 60_exceptions.md R221. -/
def checkWindows (s : State) : Run Unit := do
  checkSrcRange s
  checkDstRange s
  checkOverlap s

/-- A raise, where a condition holds. -/
def raiseIf (c : Bool) (e : Stop) : Run Unit := if c then .error e else .ok ()

/-- `ceil_div(a, b)` (00_scope.md R9). -/
def ceilDiv (a b : Nat) : Nat := (a + b - 1) / b

/-- The address is a byte of the source window (R71). -/
def inSrc (s : State) (a : Nat) : Bool := inRange s.srcAddr.toNat s.srcLen.toNat a

/-- The address is a byte of the destination window (R71). -/
def inDst (s : State) (a : Nat) : Bool := inRange s.dstAddr.toNat s.dstCap.toNat a

/-- R84: the host may write the bytes `[a, a + n)` now: while BUSY = 1 none lies in either window. -/
def hostMayWrite (s : State) (a n : Nat) : Bool :=
  !s.busy || !(rangesMeet a n s.srcAddr.toNat s.srcLen.toNat || rangesMeet a n s.dstAddr.toNat s.dstCap.toNat)

/-- R84: the host may read the bytes `[a, a + n)` now: while BUSY = 1 none lies in the destination window. -/
def hostMayRead (s : State) (a n : Nat) : Bool := !s.busy || !rangesMeet a n s.dstAddr.toNat s.dstCap.toNat

/-- The number whose bit `i` is `f i`, for `i < n`. -/
def natOfBits (f : Nat → Bool) : Nat → Nat
  | 0 => 0
  | n + 1 => natOfBits f n + (f n).toNat * 2 ^ n

/-- Bit `k` of a byte set to `b` (44_bit_packer.md R170 `acc[k] <- ...`). -/
def setBit (v : Byte) (k : Nat) (b : Bool) : Byte := if b then v ||| (1#8 <<< k) else v &&& ~~~(1#8 <<< k)

end Sys2Proof.Machine
end

