-- ==== Sys2Proof/Machine/Build.lean ====
section
/-! DEFINITION. The Tree Builder, BUILD (42_tree_builder.md R140 to R149). -/

namespace Sys2Proof.Machine

/-- Every count is 0: the alphabet is empty (R140). -/
def allZero (f : FreqTable) : Bool := f.toList.all fun c => c == 0

/-- R141: one leaf per symbol of nonzero count, in ascending symbol order, its count zero-extended to 40 bits. -/
def realLeaves (f : FreqTable) : List Node :=
  f.toList.zipIdx.filterMap fun x =>
    if x.1 = 0 then none else some (.leaf (BitVec.ofNat 8 x.2) (x.1.setWidth 40))

/-- R142: the dummy leaf, added after a single real leaf. -/
def withDummy (ls : List Node) : List Node := if ls.length = 1 then ls ++ [.leaf 0 0] else ls

/-- The weight of an arena entry while the arena is being filled. -/
def weightAt (ar : List Node) (i : Nat) : Nat := (nodeWeight (ar.getD i .absent)).toNat

/-- R144: the key `(NODE[i].w, i)` of `i` is below that of `j`. -/
def keyBelow (ar : List Node) (i j : Nat) : Bool :=
  decide (weightAt ar i < weightAt ar j) || (decide (weightAt ar i = weightAt ar j) && decide (i < j))

/-- `argmin` of the key over `i` and a list of indices (00_scope.md R13, R144). -/
def argminFrom (ar : List Node) : Nat → List Nat → Nat
  | i, [] => i
  | i, j :: pq => argminFrom ar (if keyBelow ar j i then j else i) pq

/-- The index of the smallest key, and the queue without it; `none` of the empty queue. -/
def takeMin (ar : List Node) : List Nat → Option (Nat × List Nat)
  | [] => none
  | i :: pq => let a := argminFrom ar i pq; some (a, (i :: pq).erase a)

/-- R146, R147: the node one merge makes. The first index removed is the right child; the weight is the exact sum, which fits
40 bits. -/
def mergedNode (ar : List Node) (a b : Nat) : Node :=
  .internal (BitVec.ofNat 9 b) (BitVec.ofNat 9 a) (BitVec.ofNat 40 (weightAt ar a + weightAt ar b))

/-- One pass of the merge loop (R143); `none` when fewer than two indices are queued. -/
def mergeOnce (ar : List Node) (pq : List Nat) : Option (List Node × List Nat) :=
  match takeMin ar pq with
  | none => none
  | some (a, pq₁) =>
    match takeMin ar pq₁ with
    | none => none
    | some (b, pq₂) => some (ar ++ [mergedNode ar a b], pq₂ ++ [ar.length])

/-- The merge loop (R143). The queue is the hidden state of 10_state.md R54. Each pass shortens the queue by one, so a queue of `L`
indices needs `L − 1` passes. -/
def mergeLoop : Nat → List Node → List Nat → List Node
  | 0, ar, _ => ar
  | n + 1, ar, pq =>
    match mergeOnce ar pq with
    | none => ar
    | some (ar', pq') => mergeLoop n ar' pq'

/-- The filled arena entries: the leaves, then the internal nodes in the order they are made (R145). -/
def arenaList (ls : List Node) : List Node := mergeLoop (ls.length - 1) ls (List.range ls.length)

/-- `NODE[0..510]` from the filled entries; the rest are Absent (R140). -/
def arenaOf (ar : List Node) : Arena := tableOf 511 .absent ar

/-- The tree BUILD makes from FREQ (R140, R149); `none` where every count is 0. -/
def treeOf (f : FreqTable) : Option Tree :=
  if allZero f then none
  else
    let ls := withDummy (realLeaves f)
    let ar := arenaList ls
    some
      { node := arenaOf ar
        numLeaves := BitVec.ofNat 9 ls.length
        root := BitVec.ofNat 9 (ar.length - 1)
        nodeCount := BitVec.ofNat 9 ar.length }

/-- R148: the state with a tree installed. -/
def installTree (s : State) (t : Tree) : State :=
  { s with
    node := t.node
    numLeaves := t.numLeaves
    root := t.root
    nodeCount := t.nodeCount
    treeValid := true
    codesValid := false }

/-- `BuildTree()` (R140), also a part of COMPRESS and DECOMPRESS. -/
def buildTree (s : State) : Run State :=
  match treeOf s.freq with
  | none => .error (.pre .emptyAlphabet 0)
  | some t => .ok (installTree s t)

/-- The pseudocode of BUILD (R140). -/
def buildBody (s : State) : Run (Nat × State) := do
  let t ← buildTree s
  .ok (0, t)

/-- BUILD (R140). -/
def execBuild (s : State) : Host.Outcome State Fault Refusal := complete (writeSet .build) s (buildBody s)

end Sys2Proof.Machine
end

