-- ==== Sys2Proof/Machine/Count.lean ====
section
/-! DEFINITION. The Frequency Counter, COUNT (41_freq_count.md R130). The source bytes are read in ascending order and then counted; an
error leaves FREQ free either way (R224), so the order of reading and counting is not observable (log 21). -/

namespace Sys2Proof.Machine

/-- `FREQ[b] <- FREQ[b] + 1` (R130). -/
def bumpFreq (f : FreqTable) (b : Byte) : FreqTable := symSet f b (symGet f b + 1)

/-- The histogram of a byte sequence, from zero (R130, R131). -/
def histogram (bs : List Byte) : FreqTable := bs.foldl bumpFreq zeroFreq

/-- `CountFreq(SRC_ADDR, SRC_LEN)` (R130), also a part of COMPRESS. -/
def countFreq (s : State) : Run State := do
  let bs ← readBytes s.memMap s.mem s.srcAddr.toNat s.srcLen.toNat
  .ok { clearValid s with freq := histogram bs, origLen := s.srcLen }

/-- The pseudocode of COUNT (R130). -/
def countBody (s : State) : Run (Nat × State) := do
  checkSrcRange s
  let t ← countFreq s
  .ok (0, t)

/-- COUNT (R130). -/
def execCount (s : State) : Host.Outcome State Fault Refusal := complete (writeSet .count) s (countBody s)

end Sys2Proof.Machine
end

