-- ==== Sys2Proof/Machine/Gencode.lean ====
section
/-! DEFINITION. The Code Generator, GENCODE (43_code_generator.md R160 to R165), and the depth-first walk it shares with the capacity check of
DECOMPRESS (47_composite.md R204). -/

namespace Sys2Proof.Machine

/-- R161: the depth-first, pre-order walk with an explicit stack of indices and paths (10_state.md R55), listing the leaves in the
order they are met. The first argument bounds the pops: a tree of at most 511 nodes needs at most 511 (40_control.md R119). A walk that
needs more, or that meets an Absent entry, is on no tree (log 9). -/
def walkTree (ar : Arena) : Nat → List (Nat × List Bool) → Run (List LeafPath)
  | _, [] => .ok []
  | 0, _ :: _ => .error (.stuck .arenaNotTree)
  | n + 1, (i, p) :: stack =>
    match nodeAt ar i with
    | .absent => .error (.stuck .arenaNotTree)
    | .leaf sym w =>
      match walkTree ar n stack with
      | .error e => .error e
      | .ok ls => .ok (⟨sym, w, p⟩ :: ls)
    | .internal left right _ => walkTree ar n ((left.toNat, p ++ [false]) :: (right.toNat, p ++ [true]) :: stack)

/-- The leaves of the tree at `root` with their paths. -/
def leafPaths (ar : Arena) (root : NodeIdx) : Run (List LeafPath) := walkTree ar Config.maxNodes [(root.toNat, [])]

/-- R162: a leaf of nonzero weight writes its symbol's entry. -/
def writeCode (t : CodeTable) (l : LeafPath) : CodeTable := if l.w = 0 then t else symSet t l.sym (some l.path)

/-- R160, R162: the code table the leaves give; every other entry is invalid. -/
def codesOf (ls : List LeafPath) : CodeTable := ls.foldl writeCode emptyCodes

/-- R163: `EncodedBits()`, the sum of weight times depth over the leaves of nonzero weight. -/
def encodedBits (ls : List LeafPath) : Nat := (ls.map fun l => l.w.toNat * l.path.length).sum

/-- `GenCodes()` (R160), also a part of COMPRESS. -/
def genCodes (s : State) : Run State := do
  raiseIf (!s.treeValid) (.pre .noTree 0)
  let ls ← leafPaths s.node s.root
  .ok { s with code := codesOf ls, bitCnt := BitVec.ofNat 48 (encodedBits ls), codesValid := true }

/-- The pseudocode of GENCODE (R160). -/
def gencodeBody (s : State) : Run (Nat × State) := do
  let t ← genCodes s
  .ok (0, t)

/-- GENCODE (R160). -/
def execGencode (s : State) : Host.Outcome State Fault Refusal := complete (writeSet .gencode) s (gencodeBody s)

end Sys2Proof.Machine
end

