-- ==== Sys2Proof/Machine/Header.lean ====
section
/-! DEFINITION. The Header Codec, HDR_WRITE and HDR_PARSE (45_header_codec.md R180 to R185). -/

namespace Sys2Proof.Machine

/-- R181: the 1028 header bytes of an original length and a frequency table. -/
def headerBytes (n : Word) (f : FreqTable) : List Byte := (n :: f.toList).flatMap le32

/-- `WriteHeader(da)` (R180), also a part of COMPRESS. -/
def writeHeader (s : State) : Run Memory := writeBytes s.memMap s.mem s.dstAddr.toNat (headerBytes s.origLen s.freq)

/-- The pseudocode of HDR_WRITE (R180). -/
def hdrWriteBody (s : State) : Run (Nat × State) := do
  checkDstRange s
  raiseIf (decide (s.dstCap.toNat < Config.hdrBytes)) (.pre .dstOverflow 0)
  let m ← writeHeader s
  .ok (Config.hdrBytes, { s with mem := m })

/-- HDR_WRITE (R180). -/
def execHdrWrite (s : State) : Host.Outcome State Fault Refusal := complete (writeSet .hdrWrite) s (hdrWriteBody s)

/-- R181: field 0 of the header, originalLength. -/
def headerLen (bs : List Byte) : Word := (le32Words bs).getD 0 0

/-- R181: the frequency fields of the header. -/
def headerFreq (bs : List Byte) : FreqTable := tableOf 256 0 ((le32Words bs).drop 1)

/-- The exact sum of the counts (R182). -/
def freqSum (f : FreqTable) : Nat := (f.toList.map fun c => c.toNat).sum

/-- R184: originalLength is 0 or the counts do not sum to it. -/
def headerCorrupt (n : Word) (f : FreqTable) : Bool := n == 0 || freqSum f != n.toNat

/-- `ParseHeader(SRC_ADDR)` (R182), also a part of DECOMPRESS. -/
def parseHeader (s : State) : Run State := do
  let bs ← readBytes s.memMap s.mem s.srcAddr.toNat Config.hdrBytes
  raiseIf (headerCorrupt (headerLen bs) (headerFreq bs)) (.inflight .corruptHeader 0)
  .ok { clearValid s with origLen := headerLen bs, freq := headerFreq bs }

/-- The pseudocode of HDR_PARSE (R182). DEDUCED (log 24): a short window is a pre-check for SRC_LEN = 0 too, as the pseudocode, R221 and
R223 have it, where the class cell of 60_exceptions.md R220 says `0 < SRC_LEN < 1028`. -/
def hdrParseBody (s : State) : Run (Nat × State) := do
  checkSrcRange s
  raiseIf (decide (s.srcLen.toNat < Config.hdrBytes)) (.pre .corruptHeader 0)
  let t ← parseHeader s
  .ok (0, t)

/-- HDR_PARSE (R182). -/
def execHdrParse (s : State) : Host.Outcome State Fault Refusal := complete (writeSet .hdrParse) s (hdrParseBody s)

end Sys2Proof.Machine
end

