-- ==== Sys2Proof/Machine/Pack.lean ====
section
/-! DEFINITION. The Bit Packer, PACK (44_bit_packer.md R170 to R174). -/

namespace Sys2Proof.Machine

/-- `Emit(acc)`, after which the accumulator is empty (R170). -/
def emitByte (mm : List Region) (da dc : Nat) (p : Packer) : Run Packer := do
  raiseIf (decide (p.o ≥ dc)) (.inflight .dstOverflow 0)
  let m ← dmaWrite mm p.mem (da + p.o) p.acc
  .ok { p with acc := 0, k := 0, o := p.o + 1, mem := m }

/-- One code bit into the accumulator, which is emitted when it holds eight (R170, R171). -/
def pushBit (mm : List Region) (da dc : Nat) (p : Packer) (b : Bool) : Run Packer :=
  let q := { p with acc := setBit p.acc p.k b, k := p.k + 1, nb := p.nb + 1 }
  if q.k = 8 then emitByte mm da dc q else .ok q

/-- The bits of one code, the root edge first (R171). -/
def pushBits (mm : List Region) (da dc : Nat) : Packer → List Bool → Run Packer
  | p, [] => .ok p
  | p, b :: bs =>
    match pushBit mm da dc p b with
    | .error e => .error e
    | .ok q => pushBits mm da dc q bs

/-- The stream loop over `n` source bytes from `a` (R170): the read, then the code, then its bits. -/
def packLoop (mm : List Region) (code : CodeTable) (da dc : Nat) : Nat → Nat → Packer → Run Packer
  | 0, _, p => .ok p
  | n + 1, a, p =>
    match dmaRead mm p.mem a with
    | .error e => .error e
    | .ok b =>
      match symGet code b with
      | none => .error (.inflight .noCode a)
      | some bits =>
        match pushBits mm da dc p bits with
        | .error e => .error e
        | .ok q => packLoop mm code da dc n (a + 1) q

/-- R170, R173: a partial last byte is emitted, its unused high bits 0. -/
def flushByte (mm : List Region) (da dc : Nat) (p : Packer) : Run Packer := if p.k > 0 then emitByte mm da dc p else .ok p

/-- `PackBits(sa, sl, da, dc)` (R170), also a part of COMPRESS. -/
def packBits (mm : List Region) (code : CodeTable) (m : Memory) (sa sl da dc : Nat) : Run Packer := do
  let p ← packLoop mm code da dc sl sa { acc := 0, k := 0, o := 0, nb := 0, mem := m }
  flushByte mm da dc p

/-- The pseudocode of PACK (R170). -/
def packBody (s : State) : Run (Nat × State) := do
  checkWindows s
  raiseIf (!s.codesValid) (.pre .noCodes 0)
  let p ← packBits s.memMap s.code s.mem s.srcAddr.toNat s.srcLen.toNat s.dstAddr.toNat s.dstCap.toNat
  .ok (p.o, { s with mem := p.mem, bitCnt := BitVec.ofNat 48 p.nb })

/-- PACK (R170). -/
def execPack (s : State) : Host.Outcome State Fault Refusal := complete (writeSet .pack) s (packBody s)

end Sys2Proof.Machine
end

