-- ==== Sys2Proof/Machine/Unpack.lean ====
section
/-! DEFINITION. The Bit Unpacker, UNPACK (46_bit_unpacker.md R190 to R194). -/

namespace Sys2Proof.Machine

/-- The payload byte that holds bit `j`: read when its first bit is needed (R190, R191). -/
def fetchByte (mm : List Region) (sa : Nat) (c : Cursor) : Run Byte :=
  if c.j % 8 = 0 then dmaRead mm c.mem (sa + c.j / 8) else .ok c.byte

/-- The child a bit selects: 0 is left, 1 is right (R191); an entry that is not internal has none (log 9). -/
def childOf (n : Node) (b : Bool) : Option Nat :=
  match n with
  | .internal left right _ => some (if b then right.toNat else left.toNat)
  | .leaf _ _ => none
  | .absent => none

/-- One bit of the payload applied to the cursor (R190): a leaf's symbol is emitted and the cursor returns to the root. -/
def decodeBit (mm : List Region) (ar : Arena) (root sa da : Nat) (c : Cursor) : Run Cursor := do
  let byte ← fetchByte mm sa c
  match childOf (nodeAt ar c.cur) (byte.getLsbD (c.j % 8)) with
  | none => .error (.stuck .arenaNotTree)
  | some i =>
    match nodeAt ar i with
    | .leaf sym _ => do
      let m ← dmaWrite mm c.mem (da + c.cnt) sym
      .ok { cur := root, cnt := c.cnt + 1, j := c.j + 1, byte := byte, mem := m }
    | .internal _ _ _ => .ok { c with cur := i, j := c.j + 1, byte := byte }
    | .absent => .ok { c with cur := i, j := c.j + 1, byte := byte }

/-- The decode loop (R190, R193). The first argument bounds the bits; a payload of `sl` bytes has `8 × sl` of them, so where it
is 0 the payload is exhausted (40_control.md R119). -/
def decodeLoop (mm : List Region) (ar : Arena) (root sa sl da n : Nat) : Nat → Cursor → Run Cursor
  | 0, c => if c.cnt ≥ n then .ok c else .error (.inflight .truncatedPayload 0)
  | fuel + 1, c =>
    if c.cnt ≥ n then .ok c
    else if c.j / 8 ≥ sl then .error (.inflight .truncatedPayload 0)
    else
      match decodeBit mm ar root sa da c with
      | .error e => .error e
      | .ok d => decodeLoop mm ar root sa sl da n fuel d

/-- `Decode(sa, sl, da, n)` (R190), also a part of DECOMPRESS. -/
def decodePayload (mm : List Region) (ar : Arena) (root : Nat) (m : Memory) (sa sl da n : Nat) : Run Cursor :=
  decodeLoop mm ar root sa sl da n (8 * sl) { cur := root, cnt := 0, j := 0, byte := 0, mem := m }

/-- The pseudocode of UNPACK (R190). -/
def unpackBody (s : State) : Run (Nat × State) := do
  checkWindows s
  raiseIf (!s.treeValid) (.pre .noTree 0)
  raiseIf (decide (s.origLen.toNat > s.dstCap.toNat)) (.pre .dstOverflow 0)
  let c ← decodePayload s.memMap s.node s.root.toNat s.mem s.srcAddr.toNat s.srcLen.toNat s.dstAddr.toNat s.origLen.toNat
  .ok (c.cnt, { s with mem := c.mem, bitCnt := BitVec.ofNat 48 c.j })

/-- UNPACK (R190). -/
def execUnpack (s : State) : Host.Outcome State Fault Refusal := complete (writeSet .unpack) s (unpackBody s)

end Sys2Proof.Machine
end

