-- ==== Sys2Proof/Machine/Composite.lean ====
section
/-! DEFINITION. The top-level commands COMPRESS and DECOMPRESS (47_composite.md R200 to R205), which chain the units. -/

namespace Sys2Proof.Machine

/-- R200, after the zero-length case: count, build, codes, the capacity test, the header, the payload. -/
def compressNonempty (s : State) : Run (Nat × State) := do
  let s₁ ← countFreq s
  let s₂ ← buildTree s₁
  let s₃ ← genCodes s₂
  raiseIf (decide (Config.hdrBytes + ceilDiv s₃.bitCnt.toNat 8 > s.dstCap.toNat)) (.inflight .dstOverflow 0)
  let m ← writeHeader s₃
  let p ← packBits s₃.memMap s₃.code m s₃.srcAddr.toNat s₃.srcLen.toNat (s₃.dstAddr.toNat + Config.hdrBytes)
    (s₃.dstCap.toNat - Config.hdrBytes)
  .ok (Config.hdrBytes + p.o, { s₃ with mem := p.mem, bitCnt := BitVec.ofNat 48 p.nb })

/-- The pseudocode of COMPRESS (R200, R201). -/
def compressBody (s : State) : Run (Nat × State) := do
  checkWindows s
  if s.srcLen = 0 then .ok (0, s) else compressNonempty s

/-- COMPRESS (R200). -/
def execCompress (s : State) : Host.Outcome State Fault Refusal := complete (writeSet .compress) s (compressBody s)

/-- R203, after the pre-checks: parse, build, the capacity check of R204, the output size, the payload. -/
def decompressNonempty (s : State) : Run (Nat × State) := do
  let s₁ ← parseHeader s
  let s₂ ← buildTree s₁
  let ls ← leafPaths s₂.node s₂.root
  raiseIf (decide (encodedBits ls > 8 * (s.srcLen.toNat - Config.hdrBytes))) (.inflight .truncatedPayload 0)
  raiseIf (decide (s₂.origLen.toNat > s.dstCap.toNat)) (.inflight .dstOverflow 0)
  let c ← decodePayload s₂.memMap s₂.node s₂.root.toNat s₂.mem (s₂.srcAddr.toNat + Config.hdrBytes)
    (s₂.srcLen.toNat - Config.hdrBytes) s₂.dstAddr.toNat s₂.origLen.toNat
  .ok (c.cnt, { s₂ with mem := c.mem, bitCnt := BitVec.ofNat 48 c.j })

/-- The pseudocode of DECOMPRESS (R203). -/
def decompressBody (s : State) : Run (Nat × State) := do
  checkWindows s
  if s.srcLen = 0 then .ok (0, s)
  else do
    raiseIf (decide (s.srcLen.toNat < Config.hdrBytes)) (.pre .corruptHeader 0)
    decompressNonempty s

/-- DECOMPRESS (R203). -/
def execDecompress (s : State) : Host.Outcome State Fault Refusal := complete (writeSet .decompress) s (decompressBody s)

end Sys2Proof.Machine
end

