-- ==== Sys2Proof/Machine/Control.lean ====
section
/-! DEFINITION. The control commands NOP and CLEAR (40_control.md R120, R121). -/

namespace Sys2Proof.Machine

/-- R121: every table and every register computed from one takes its reset value. -/
def clearTables (s : State) : State :=
  { clearValid s with
    freq := zeroFreq
    code := emptyCodes
    node := emptyArena
    origLen := 0
    bitCnt := 0
    numLeaves := 0
    root := 0
    nodeCount := 0 }

/-- NOP (R120). -/
def execNop (s : State) : Host.Outcome State Fault Refusal := complete (writeSet .nop) s (.ok (0, s))

/-- CLEAR (R121). -/
def execClear (s : State) : Host.Outcome State Fault Refusal := complete (writeSet .clear) s (.ok (0, clearTables s))

end Sys2Proof.Machine
end

