-- ==== Sys2Proof/Machine/Registers.lean ====
section
/-! DEFINITION. The register window: what the host reads (10_state.md R22 to R48, 40_control.md R111) and what its writes do (R112, R113,
R115, R116). -/

namespace Sys2Proof.Machine

/-- CODE_INFO (10_state.md R45): valid in bit 31, length in bits [7:0]. -/
def codeInfoWord (c : Code) : Word :=
  match c with
  | none => 0
  | some bits => 1#1 ++ 0#23 ++ BitVec.ofNat 8 bits.length

/-- CODE_BITS (R46): bit `k` is `bits[32 × CODE_SEL + k]`, 0 past the length. -/
def codeBitsWord (c : Code) (sel : BitVec 3) : Word :=
  BitVec.ofNat 32 (natOfBits (fun k => (c.getD []).getD (32 * sel.toNat + k) false) 32)

/-- NODE_INFO (R47). -/
def nodeInfoWord : Node → Word
  | .absent => 0
  | .leaf sym _ => 1#1 ++ 1#1 ++ 0#5 ++ 0#9 ++ 0#7 ++ (0#1 ++ sym)
  | .internal left right _ => 1#1 ++ 0#1 ++ 0#5 ++ right ++ 0#7 ++ left

/-- The value each register's rule gives for the state; bits outside its defined bits are 0 (R23). -/
def regValue (s : State) : Reg → Word
  | .id => Config.idValue
  | .cmd => s.cmd
  | .status => statusWord s
  | .irqEn => s.irqEn.setWidth 32
  | .srcAddr => s.srcAddr
  | .srcLen => s.srcLen
  | .dstAddr => s.dstAddr
  | .dstCap => s.dstCap
  | .outLen => s.outLen
  | .origLen => s.origLen
  | .errAddr => s.errAddr
  | .bitcntLo => s.bitCnt.extractLsb' 0 32
  | .bitcntHi => (s.bitCnt.extractLsb' 32 16).setWidth 32
  | .numLeaves => s.numLeaves.setWidth 32
  | .root => s.root.setWidth 32
  | .nodeCount => s.nodeCount.setWidth 32
  | .freqIdx => s.freqIdx.setWidth 32
  | .freqData => symGet s.freq s.freqIdx
  | .codeIdx => s.codeIdx.setWidth 32
  | .codeInfo => codeInfoWord (symGet s.code s.codeIdx)
  | .codeSel => s.codeSel.setWidth 32
  | .codeBits => codeBitsWord (symGet s.code s.codeIdx) s.codeSel
  | .nodeIdx => s.nodeIdx.setWidth 32
  | .nodeInfo => nodeInfoWord (nodeAt s.node s.nodeIdx.toNat)
  | .nodeWlo => (nodeWeight (nodeAt s.node s.nodeIdx.toNat)).extractLsb' 0 32
  | .nodeWhi => ((nodeWeight (nodeAt s.node s.nodeIdx.toNat)).extractLsb' 32 8).setWidth 32

/-- R111: the registers whose reads are defined while BUSY = 1. -/
def readableWhileBusy : Reg → Bool
  | .id | .cmd | .status | .irqEn => true
  | _ => false

/-- R111: `RegRead(off)`, with the state after it, which differs only in the number of the next free draw. -/
def regRead (s : State) (off : BitVec 8) : Word × State :=
  match regAt off with
  | none => (0, s)
  | some r =>
    if s.busy && !readableWhileBusy r then (Config.freeRead s.draws, { s with draws := s.draws + 1 })
    else (regValue s r, s)

/-- R113: the effect of a write of `v` while BUSY = 0. An RW field narrower than 32 bits stores the low bits (10_state.md R23). -/
def regWriteIdle (s : State) (v : Word) : Reg → State
  | .cmd => issue s v
  | .status => writeStatus s v
  | .irqEn => { s with irqEn := v.extractLsb' 0 3 }
  | .srcAddr => { s with srcAddr := v }
  | .srcLen => { s with srcLen := v }
  | .dstAddr => { s with dstAddr := v }
  | .dstCap => { s with dstCap := v }
  | .origLen => { s with origLen := v }
  | .freqIdx => { s with freqIdx := v.extractLsb' 0 8 }
  | .freqData => clearValid { s with freq := symSet s.freq s.freqIdx v }
  | .codeIdx => { s with codeIdx := v.extractLsb' 0 8 }
  | .codeSel => { s with codeSel := v.extractLsb' 0 3 }
  | .nodeIdx => { s with nodeIdx := v.extractLsb' 0 9 }
  | .id | .outLen | .errAddr | .bitcntLo | .bitcntHi | .numLeaves | .root | .nodeCount | .codeInfo | .codeBits | .nodeInfo
  | .nodeWlo | .nodeWhi => s

/-- R112: `RegWrite(off, v)`. While BUSY = 1 the write is dropped and sets OVR (R116). -/
def regWrite (s : State) (off : BitVec 8) (v : Word) : State :=
  if s.busy then { s with ovr := true }
  else
    match regAt off with
    | none => s
    | some r => regWriteIdle s v r

end Sys2Proof.Machine
end

