-- ==== Sys2Proof/Machine/Engine.lean ====
section
/-! DEFINITION. The steps of the three agents (40_control.md R110): the ENGINE's whole command (R117), one statement of the HOST
(30_encoding.md R100, R101), and RESET; and which of them steps next. -/

namespace Sys2Proof.Machine

/-- R117: the command word in CMD is decoded and the command runs; an illegal word completes with ILLEGAL_CMD, a pre-check
(30_encoding.md R92). -/
def engineStep (s : State) : Host.Outcome State Fault Refusal :=
  match decode s.cmd with
  | .ok i => exec i s
  | .error _ => complete {} s (.error (.pre .illegalCmd 0))

/-- A host temporary assigned (30_encoding.md R100). -/
def setTemp (s : State) (t : Nat) (v : Word) : State := { s with temps := (t, v) :: s.temps.filter fun x => x.1 != t }

/-- A host buffer assigned (30_encoding.md R100). -/
def setBuf (s : State) (name : String) (bs : List Byte) : State :=
  { s with bufs := (name, bs) :: s.bufs.filter fun x => x.1 != name }

/-- 40_control.md R112, R114: a register write by offset and access size. -/
def hostWrite (s : State) (off : BitVec 8) (bytes : Nat) (v : Word) : Host.Outcome State Fault Refusal :=
  if (BusTxn.w off bytes v).wf then .next (regWrite s off v) else .refused .hostAccessNotWord

/-- 40_control.md R111, R114: a register read by offset and access size, into a temporary. -/
def hostRead (s : State) (off : BitVec 8) (bytes t : Nat) : Host.Outcome State Fault Refusal :=
  if (BusTxn.r off bytes).wf then
    let x := regRead s off
    .next (setTemp x.2 t x.1)
  else .refused .hostAccessNotWord

/-- A platform write by the host (30_encoding.md R100 `MEMW`), inside the duty of 20_memory.md R84. -/
def hostMemWrite (s : State) (a : Word) (bs : List Byte) : Host.Outcome State Fault Refusal :=
  if !memRangeWf a bs.length then .refused .hostOutsideMemory
  else if hostMayWrite s a.toNat bs.length then .next { s with mem := Memory.writeList s.mem a.toNat bs }
  else .refused .hostBreaksDuty

/-- A platform read by the host (30_encoding.md R100 `MEMR`), inside the duty of 20_memory.md R84. -/
def hostMemRead (s : State) (a : Word) (n : Nat) (name : String) : Host.Outcome State Fault Refusal :=
  if !memRangeWf a n then .refused .hostOutsideMemory
  else if hostMayRead s a.toNat n then .next (setBuf s name (Memory.readList s.mem a.toNat n))
  else .refused .hostBreaksDuty

/-- One statement, which `s` no longer lists; `WAIT` while BUSY = 1 stays listed, so that it reads STATUS again (R101). -/
def hostStatement (s : State) : HostStmt → Host.Outcome State Fault Refusal
  | .wr r v => hostWrite s (regOffset r) 4 v
  | .rd r t => hostRead s (regOffset r) 4 t
  | .cmd i => hostWrite s (regOffset .cmd) 4 (encode i)
  | .wait => if s.busy then .next { s with host := .wait :: s.host } else .next s
  | .memw a bs => hostMemWrite s a bs
  | .memr a n name => hostMemRead s a n name
  | .busWrite off bytes v => hostWrite s off bytes v
  | .busRead off bytes t => hostRead s off bytes t

/-- The HOST's step; a host whose program has ended does nothing. -/
def hostStep (s : State) : Host.Outcome State Fault Refusal :=
  match s.host with
  | [] => .next s
  | st :: rest => hostStatement { s with host := rest } st

/-- The step of one agent. The ENGINE has a step exactly when BUSY = 1 (R117); a choice of it while it has none passes. -/
def agentStep (s : State) : Agent → Host.Outcome State Fault Refusal
  | .host => hostStep s
  | .engine => if s.busy then engineStep s else .next s
  | .reset => .next (resetEvent s)

/-- R110: the agent that `schedule` names next; with none named, the ENGINE where it is enabled and otherwise the HOST, so that a
command that is issued is run (70_reset_and_hazards.md R259). -/
def nextStep (s : State) : Host.Outcome State Fault Refusal :=
  match s.schedule with
  | [] => agentStep s (if s.busy then .engine else .host)
  | a :: rest => agentStep { s with schedule := rest } a

/-- The word issued, and the ENGINE named as the agent that steps next: the very next step runs the command. -/
def issueNow (s : State) (v : Word) : State := { issue s v with schedule := .engine :: s.schedule }

end Sys2Proof.Machine
end

