-- ==== Sys2Proof/Machine/Step.lean ====
section
/-! DEFINITION. The step of the machine, and how the host's own check places a command (log 4). -/

namespace Sys2Proof.Machine

/-- One step of one agent (40_control.md R110). -/
def step (s : State) : Host.Outcome State Fault Refusal := nextStep s

/-- The block fetches nothing (10_state.md R21): a command is the word a host write stores in CMD, which issues it (R25, 40_control.md
R115). So the word is issued and the ENGINE steps next. -/
def State.withFetchWord (s : State) (nbits w : Nat) : State := issueNow s (BitVec.ofNat 32 (w % 2 ^ nbits))

end Sys2Proof.Machine
end

