-- ==== Sys2Proof/Machine/Assembler.lean ====
section
/-! DEFINITION. The written form of host programs (30_encoding.md R100) and the expansions of the pseudo-instructions (R102). A text becomes
the list of statements that `State.host` holds. -/

namespace Sys2Proof.Machine

/-! ### Pseudo-instructions (R102) -/

def pseudoWindows (s l d c : Word) : List HostStmt := [.wr .srcAddr s, .wr .srcLen l, .wr .dstAddr d, .wr .dstCap c]

def pseudoRun (i : Instr) : List HostStmt := [.cmd i, .wait]

def pseudoCompress (s l d c : Word) : List HostStmt := pseudoWindows s l d c ++ pseudoRun .compress

def pseudoDecompress (s l d c : Word) : List HostStmt := pseudoWindows s l d c ++ pseudoRun .decompress

/-- Clears DONE, ERR and OVR. -/
def pseudoAck : List HostStmt := [.wr .status 0x0000000E]

def pseudoSetFreq (s v : Word) : List HostStmt := [.wr .freqIdx s, .wr .freqData v]

def pseudoGetFreq (s : Word) (t : Nat) : List HostStmt := [.wr .freqIdx s, .rd .freqData t]

def pseudoGetCode (s : Word) (tI tB : Nat) : List HostStmt :=
  [.wr .codeIdx s, .rd .codeInfo tI, .wr .codeSel 0, .rd .codeBits tB]

def pseudoGetNode (i : Word) (tI tL tH : Nat) : List HostStmt :=
  [.wr .nodeIdx i, .rd .nodeInfo tI, .rd .nodeWlo tL, .rd .nodeWhi tH]

/-! ### Names (R22, R93) -/

def regNames : List (String × Reg) :=
  [("ID", .id), ("CMD", .cmd), ("STATUS", .status), ("IRQ_EN", .irqEn), ("SRC_ADDR", .srcAddr), ("SRC_LEN", .srcLen),
    ("DST_ADDR", .dstAddr), ("DST_CAP", .dstCap), ("OUT_LEN", .outLen), ("ORIG_LEN", .origLen), ("ERR_ADDR", .errAddr)]
  ++ [("BITCNT_LO", .bitcntLo), ("BITCNT_HI", .bitcntHi), ("NUM_LEAVES", .numLeaves), ("ROOT", .root),
    ("NODE_COUNT", .nodeCount), ("FREQ_IDX", .freqIdx), ("FREQ_DATA", .freqData), ("CODE_IDX", .codeIdx)]
  ++ [("CODE_INFO", .codeInfo), ("CODE_SEL", .codeSel), ("CODE_BITS", .codeBits), ("NODE_IDX", .nodeIdx),
    ("NODE_INFO", .nodeInfo), ("NODE_WLO", .nodeWlo), ("NODE_WHI", .nodeWhi)]

def instrNames : List (String × Instr) :=
  [("NOP", .nop), ("CLEAR", .clear), ("COUNT", .count), ("BUILD", .build), ("GENCODE", .gencode), ("PACK", .pack),
    ("HDR_WRITE", .hdrWrite), ("HDR_PARSE", .hdrParse), ("UNPACK", .unpack), ("COMPRESS", .compress),
    ("DECOMPRESS", .decompress)]

def named {α : Type} (name : String) : List (String × α) → Option α
  | [] => none
  | (n, x) :: rest => if n = name then some x else named name rest

/-! ### Lines and numbers (R100) -/

/-- The words of a line: separated by blanks and commas, up to a `;`. The first argument is the word being read, last character
first. -/
def lineWords : List Char → List Char → List String
  | [], [] => []
  | cur, [] => [String.ofList cur.reverse]
  | cur, c :: cs =>
    if c = ';' then (if cur = [] then [] else [String.ofList cur.reverse])
    else if c = ' ' ∨ c = ',' ∨ c = '\t' ∨ c = '\r' then
      (if cur = [] then lineWords [] cs else String.ofList cur.reverse :: lineWords [] cs)
    else lineWords (c :: cur) cs

/-- The lines of a text. The first argument is the line being read, last character first. -/
def textLines : List Char → List Char → List (List Char)
  | cur, [] => [cur.reverse]
  | cur, c :: cs => if c = '\n' then cur.reverse :: textLines [] cs else textLines (c :: cur) cs

def digitValue (c : Char) : Option Nat :=
  let n := c.toNat
  if 48 ≤ n ∧ n ≤ 57 then some (n - 48)
  else if 65 ≤ n ∧ n ≤ 70 then some (n - 55)
  else if 97 ≤ n ∧ n ≤ 102 then some (n - 87)
  else none

def digits (base : Nat) : Nat → List Char → Option Nat
  | acc, [] => some acc
  | acc, c :: cs =>
    match digitValue c with
    | none => none
    | some d => if d < base then digits base (acc * base + d) cs else none

/-- A nonempty number in a base. -/
def number (base : Nat) (cs : List Char) : Option Nat := if cs = [] then none else digits base 0 cs

/-- R100: `0x...` or decimal. -/
def numberOf (w : String) : Option Nat :=
  match w.toList with
  | '0' :: 'x' :: cs => number 16 cs
  | cs => number 10 cs

/-- A number that fits a 32-bit register. -/
def wordOf (w : String) : Option Word :=
  match numberOf w with
  | some n => if n < 4294967296 then some (BitVec.ofNat 32 n) else none
  | none => none

/-- A byte of `MEMW`: hexadecimal, as 95_test_vectors.md writes bytes (log 16). -/
def byteOf (w : String) : Option Byte :=
  let n :=
    match w.toList with
    | '0' :: 'x' :: cs => number 16 cs
    | cs => number 16 cs
  match n with
  | some v => if v < 256 then some (BitVec.ofNat 8 v) else none
  | none => none

/-- A temporary `tN`. -/
def tempOf (w : String) : Option Nat :=
  match w.toList with
  | 't' :: cs => number 10 cs
  | _ => none

/-! ### Statements (R100, R102) -/

/-- The statements of one line's words; `none` of a line that is no statement. -/
def lineStatements (ws : List String) : Option (List HostStmt) :=
  match ws with
  | [] => some []
  | ["WAIT"] => some [.wait]
  | ["ACK"] => some pseudoAck
  | ["CMD", op] => do let i ← named op instrNames; some [.cmd i]
  | ["RUN", op] => do let i ← named op instrNames; some (pseudoRun i)
  | ["WR", r, v] => do let r ← named r regNames; let v ← wordOf v; some [.wr r v]
  | ["SETFREQ", s, v] => do let s ← wordOf s; let v ← wordOf v; some (pseudoSetFreq s v)
  | ["RD", r, "->", t] => do let r ← named r regNames; let t ← tempOf t; some [.rd r t]
  | ["GETFREQ", s, "->", t] => do let s ← wordOf s; let t ← tempOf t; some (pseudoGetFreq s t)
  | ["GETCODE", s, "->", t, u] => do let s ← wordOf s; let t ← tempOf t; let u ← tempOf u; some (pseudoGetCode s t u)
  | ["GETNODE", i, "->", t, u, v] => do
    let i ← wordOf i; let t ← tempOf t; let u ← tempOf u; let v ← tempOf v; some (pseudoGetNode i t u v)
  | ["MEMR", a, n, "->", name] => do let a ← wordOf a; let n ← numberOf n; some [.memr a n name]
  | "MEMW" :: a :: bs => do let a ← wordOf a; let bs ← bs.mapM byteOf; some [.memw a bs]
  | [op, s, l, d, c] => do
    let s ← wordOf s; let l ← wordOf l; let d ← wordOf d; let c ← wordOf c
    if op = "WINDOWS" then some (pseudoWindows s l d c)
    else if op = "HUFF.COMPRESS" then some (pseudoCompress s l d c)
    else if op = "HUFF.DECOMPRESS" then some (pseudoDecompress s l d c)
    else none
  | _ => none

/-- The statements of a text's lines, in order; `none` where a line is no statement. -/
def linesStatements : List (List Char) → Option (List HostStmt)
  | [] => some []
  | l :: ls => do
    let x ← lineStatements (lineWords [] l)
    let xs ← linesStatements ls
    some (x ++ xs)

/-- The host program a text writes (R100, R101). -/
def assemble (text : String) : Option (List HostStmt) := linesStatements (textLines [] text.toList)

end Sys2Proof.Machine
end

