-- ==== Sys2Proof/Safety.lean ====
section
/-! DEFINITION. The terms claims are stated in: what the windows hold, what the data formats are (30_encoding.md R97, R98), when a
table is current (10_state.md R32, R33, R51), the invariants, and the end of a run (40_control.md R122). -/

namespace Sys2Proof.Machine

/-! ### Windows -/

/-- The bytes of the source window. -/
def srcBytes (s : State) : List Byte := Memory.readList s.mem s.srcAddr.toNat s.srcLen.toNat

/-- The first `n` bytes from `a` respond to the ENGINE (20_memory.md R74). -/
abbrev allOK (s : State) (a n : Nat) : Prop := ∀ i < n, memOK s.memMap (a + i) = true

/-- No byte before the first one that does not respond, which is byte `i` from `a`. -/
abbrev firstBad (s : State) (a i : Nat) : Prop := allOK s a i ∧ memOK s.memMap (a + i) = false

/-- The source window passes no address (20_memory.md R72). -/
abbrev srcInRange (s : State) : Prop := s.srcAddr.toNat + s.srcLen.toNat ≤ Config.addrEnd

/-- The destination window passes no address (20_memory.md R72). -/
abbrev dstInRange (s : State) : Prop := s.dstAddr.toNat + s.dstCap.toNat ≤ Config.addrEnd

/-- The window checks of a command that uses both pass (20_memory.md R72, R73). -/
abbrev windowsOk (s : State) : Prop := srcInRange s ∧ dstInRange s ∧ windowsOverlap s = false

/-- Which commands read the source window (20_memory.md R71). -/
def usesSrc : Instr → Bool
  | .count | .pack | .hdrParse | .unpack | .compress | .decompress => true
  | .nop | .clear | .build | .gencode | .hdrWrite => false

/-- Which commands write the destination window (20_memory.md R71). -/
def usesDst : Instr → Bool
  | .pack | .hdrWrite | .unpack | .compress | .decompress => true
  | .nop | .clear | .count | .build | .gencode | .hdrParse => false

/-- From address `a` memory `m'` holds `bs`, and every byte elsewhere reads as in `m`. -/
def storedAt (m m' : Memory) (a : Nat) (bs : List Byte) : Prop :=
  (∀ i < bs.length, Memory.read m' (a + i) = bs.getD i 0) ∧
    ∀ x, ¬(a ≤ x ∧ x < a + bs.length) → Memory.read m' x = Memory.read m x

/-- The command ends with an in-flight error (60_exceptions.md R222, R224): recorded over free values in its write-set. -/
abbrev endsInFlight (i : Instr) (s : State) (e : ErrCode) (a : Nat) : Prop :=
  exec i s = .next (recordError (havoc (writeSet i) s) e a)

/-! ### Data formats -/

/-- Bit `j` of a byte sequence is bit `j mod 8` of byte `j div 8` (20_memory.md R76). -/
def bytesBits (bs : List Byte) : List Bool := bs.flatMap fun b => (List.range 8).map fun k => b.getLsbD k

/-- The payload bytes of a bit sequence, the last one padded with 0 (30_encoding.md R98). -/
def bitsBytes (bits : List Bool) : List Byte :=
  (List.range (ceilDiv bits.length 8)).map fun q => BitVec.ofNat 8 (natOfBits (fun r => bits.getD (8 * q + r) false) 8)

/-- The code bits of a byte sequence, in order (R98). -/
def codeBits (code : CodeTable) (bs : List Byte) : List Bool := bs.flatMap fun b => (symGet code b).getD []

/-- The code table of a tree, where the walk lists its leaves. -/
def codesFor (ar : Arena) (root : NodeIdx) : Option CodeTable :=
  match leafPaths ar root with
  | .ok ls => some (codesOf ls)
  | .error _ => none

/-- The code table of a frequency table (R98). -/
def codesOfFreq (f : FreqTable) : Option CodeTable := (treeOf f).bind fun t => codesFor t.node t.root

/-- `Archive(S)` (R97): empty for the empty sequence, otherwise the header and the payload. -/
def archive (bs : List Byte) : List Byte :=
  if bs = [] then []
  else
    headerBytes (BitVec.ofNat 32 bs.length) (histogram bs) ++
      bitsBytes (codeBits ((codesOfFreq (histogram bs)).getD emptyCodes) bs)

/-! ### The tree -/

/-- What the tree registers and the arena hold. -/
def treeRegs (s : State) : Tree := ⟨s.node, s.numLeaves, s.root, s.nodeCount⟩

/-- The tree is the one BUILD makes from the current FREQ (10_state.md R32). -/
abbrev treeCurrent (s : State) : Prop := treeOf s.freq = some (treeRegs s)

/-- The code table is the one GENCODE makes from the current tree (10_state.md R33). -/
abbrev codesCurrent (s : State) : Prop := codesFor s.node s.root = some s.code

/-- The 256 symbols, ascending. -/
def allSymbols : List Byte := (List.range 256).map (BitVec.ofNat 8)

/-- The symbols of nonzero count. -/
def presentSymbols (f : FreqTable) : List Byte := allSymbols.filter fun s => symGet f s != 0

/-- How many leaves the tree has: one per symbol of nonzero count, and the dummy where there is one such symbol
(42_tree_builder.md R141, R142). -/
def leafCount (f : FreqTable) : Nat := if (presentSymbols f).length = 1 then 2 else (presentSymbols f).length

/-- Items 1 to 5 of 10_state.md R51, for a frequency table, an arena and a number of leaves. -/
structure ArenaTree (f : FreqTable) (ar : Arena) (n : Nat) : Prop where
  leaves_bound : 2 ≤ n ∧ n ≤ 256
  leaves : ∀ i < n, ∃ sym w, nodeAt ar i = .leaf sym w
  internals : ∀ i, n ≤ i → i ≤ 2 * n - 2 → ∃ l r w, nodeAt ar i = .internal l r w ∧ l.toNat < i ∧ r.toNat < i ∧
    w.toNat = (nodeWeight (nodeAt ar l.toNat)).toNat + (nodeWeight (nodeAt ar r.toNat)).toNat
  absents : ∀ i, 2 * n - 1 ≤ i → nodeAt ar i = .absent
  one_parent : ∀ i < 2 * n - 2, ∃! p : Nat × Bool, childOf (nodeAt ar p.1) p.2 = some i
  root_no_parent : ∀ p : Nat × Bool, childOf (nodeAt ar p.1) p.2 ≠ some (2 * n - 2)
  symbols : ∀ s, symGet f s ≠ 0 → ∃! i, ∃ w, nodeAt ar i = .leaf s w ∧ w ≠ 0
  weights : ∀ i s w, nodeAt ar i = .leaf s w → w ≠ 0 → w = (symGet f s).setWidth 40
  dummy : ∀ i s, nodeAt ar i = .leaf s 0 → s = 0 ∧ i = 1 ∧ (presentSymbols f).length = 1
  dummy_present : (presentSymbols f).length = 1 → nodeAt ar 1 = .leaf 0 0

/-- The arena index a path leads to from an index: 0 is the left child, 1 the right (30_encoding.md R99). -/
def followPath (ar : Arena) : Nat → List Bool → Option Nat
  | i, [] => some i
  | i, b :: path =>
    match childOf (nodeAt ar i) b with
    | none => none
    | some j => followPath ar j path

/-- `Σ_s FREQ[s] × CODE[s].len` (43_code_generator.md R163). -/
def codedBits (f : FreqTable) (code : CodeTable) : Nat :=
  (allSymbols.map fun s => (symGet f s).toNat * ((symGet code s).getD []).length).sum

/-- A bit sequence begins with another. -/
def startsWith (xs ys : List Bool) : Prop := ∃ zs, xs = ys ++ zs

/-! ### Invariants -/

/-- The STATUS bits agree with each other (10_state.md R28, R31, R39, R53, 93_implementation_defined.md I8). -/
structure StatusInv (s : State) : Prop where
  done_or_err : ¬(s.done = true ∧ s.err = true)
  busy_clean : s.busy = true → s.done = false ∧ s.err = false ∧ s.errCode = 0 ∧ s.errAddr = 0
  done_clean : s.done = true → s.errCode = 0 ∧ s.errAddr = 0
  err_coded : s.err = true → s.errCode ≠ 0
  code_bound : s.errCode.toNat ≤ 11
  coupled : s.codesValid = true → s.treeValid = true

/-- The validity flags say what the tables hold (10_state.md R32, R33, R53). -/
structure TablesInv (s : State) : Prop where
  coupled : s.codesValid = true → s.treeValid = true
  tree : s.treeValid = true → treeCurrent s
  codes : s.codesValid = true → codesCurrent s

/-- A code-table entry fits its width (00_scope.md R15, R52). -/
def codesFit (s : State) : Prop := ∀ x bits, symGet s.code x = some bits → bits.length ≤ 255

/-- What every step of the machine keeps. -/
structure Inv (s : State) : Prop where
  status : StatusInv s
  tables : TablesInv s
  memory : Memory.wf s.mem = true

/-! ### Runs -/

/-- A run has ended (30_encoding.md R101, 40_control.md R122): the host has no statement left and BUSY = 0. -/
def ended (s : State) : Bool := s.host.isEmpty && !s.busy

/-- A step answers a next state. -/
def goesOn (o : Host.Outcome State Fault Refusal) : Bool :=
  match o with
  | .next _ => true
  | .fault _ => false
  | .refused _ => false

end Sys2Proof.Machine
end

