-- ==== Sys2Proof/Certificates/Slice0/Obligations.lean ====
section
/-! DEFINITION. The statements for the provers. Each is about the model's own `exec`, `step`, `decode` and register window; the rule of
spec/ it formalises stands in its docstring. -/

open Sys2Proof Sys2Proof.Machine

/-! ### Encoding (30_encoding.md) -/

/-- The eleven words of R93, written out, and three illegal ones (95_test_vectors.md L2-A3 to L2-A5). -/
def Obligations.CommandWordsDecodeAsTheTable : Prop :=
  decode 0x00000000 = .ok .nop ∧ decode 0x00000001 = .ok .clear ∧ decode 0x00000002 = .ok .count ∧
  decode 0x00000003 = .ok .build ∧ decode 0x00000004 = .ok .gencode ∧ decode 0x00000005 = .ok .pack ∧
  decode 0x00000006 = .ok .hdrWrite ∧ decode 0x00000007 = .ok .hdrParse ∧ decode 0x00000008 = .ok .unpack ∧
  decode 0x00000009 = .ok .compress ∧ decode 0x0000000A = .ok .decompress ∧
  decode 0x0000000B = .error .reservedOpcode ∧ decode 0x00000109 = .error .reservedBits ∧
  decode 0x000000FF = .error .reservedOpcode

/-- A word decodes to a command exactly when it is that command's word, and to an error exactly when it is above 0x0A. -/
def Obligations.DecodeAcceptsExactlyTheEncodedCommands : Prop :=
  ∀ w : Word, (∀ i, decode w = .ok i ↔ w = encode i) ∧ ((∃ e, decode w = .error e) ↔ 0x0A < w.toNat)

/-- R95: which words are illegal, and how the ENGINE's step completes one; no illegal word acts as a NOP, and the NOP is the word 0. -/
def Obligations.IllegalWordCompletesWithIllegalCmd : Prop :=
  ∀ (s : State) (rest : List Agent), s.busy = true → s.schedule = .engine :: rest →
    (s.cmd.extractLsb' 8 24 ≠ 0 ∨ 0x0A < (s.cmd.extractLsb' 0 8).toNat →
      step s = .next { s with err := true, errCode := 1, errAddr := 0, outLen := 0, busy := false, schedule := rest }) ∧
    (s.cmd = 0 → step s = exec .nop { s with schedule := rest }) ∧
    (¬(s.cmd.extractLsb' 8 24 ≠ 0 ∨ 0x0A < (s.cmd.extractLsb' 0 8).toNat) → ∃ i, s.cmd = encode i)

/-! ### Steps (40_control.md) -/

/-- 40_control.md R117: an enabled ENGINE step runs the decoded command, where it is the agent the schedule names. The model's choices: that
the ENGINE is the agent that steps where the schedule names none (log 3), and that `withFetchWord` places a word by issuing it, which the very
next step runs (log 4). -/
def Obligations.StepRunsTheDecodedCommand : Prop :=
  ∀ (s : State) (i : Instr),
    (s.busy = true → decode s.cmd = .ok i →
      (s.schedule = [] → step s = exec i s) ∧
      ∀ rest, s.schedule = .engine :: rest → step s = exec i { s with schedule := rest }) ∧
    step (s.withFetchWord 32 (encode i).toNat) = exec i (issue s (encode i))

/-- R115: a host write to CMD while BUSY = 0, for every word. -/
def Obligations.WriteToCmdIssuesAnyWord : Prop :=
  ∀ (s : State) (v : Word), s.busy = false →
    regWrite s 0x04 v =
      { s with cmd := v, busy := true, done := false, err := false, errCode := 0, errAddr := 0 }

/-- R116: while BUSY = 1 a register write at any offset sets OVR and does nothing else, as a step of the host. -/
def Obligations.WriteWhileBusyOnlySetsOvr : Prop :=
  ∀ (s : State) (off : BitVec 8) (v : Word) (stmts : List HostStmt) (rest : List Agent),
    s.busy = true → off.toNat % 4 = 0 → s.host = .busWrite off 4 v :: stmts → s.schedule = .host :: rest →
      step s = .next { s with ovr := true, host := stmts, schedule := rest }

/-- R114: a register access that is not 32 bits wide at a multiple of 4 is refused. -/
def Obligations.NarrowOrMisalignedAccessIsRefused : Prop :=
  ∀ (s : State) (off : BitVec 8) (bytes t : Nat) (v : Word) (stmts : List HostStmt) (rest : List Agent),
    ¬(bytes = 4 ∧ off.toNat % 4 = 0) → s.schedule = .host :: rest →
      (s.host = .busWrite off bytes v :: stmts → step s = .refused .hostAccessNotWord) ∧
      (s.host = .busRead off bytes t :: stmts → step s = .refused .hostAccessNotWord)

/-- The host's duty of 20_memory.md R84: `MEMW` is refused while BUSY = 1 exactly where it writes a byte of a window, and otherwise
stores its bytes; `MEMR` is refused exactly where it reads a byte of the destination window. The model's choices: that both windows count
whatever the command (log 10), that a host access completes whatever MemOK says (log 11), and that its bytes are one step (log 12). -/
def Obligations.HostMemoryAccessKeepsTheDuty : Prop :=
  ∀ (s : State) (a : Word) (bs : List Byte) (n : Nat) (name : String),
    (a.toNat + bs.length ≤ Config.addrEnd →
      ((s.busy = true ∧ ∃ i < bs.length, inSrc s (a.toNat + i) = true ∨ inDst s (a.toNat + i) = true) →
        hostMemWrite s a bs = .refused .hostBreaksDuty) ∧
      (¬(s.busy = true ∧ ∃ i < bs.length, inSrc s (a.toNat + i) = true ∨ inDst s (a.toNat + i) = true) →
        hostMemWrite s a bs = .next { s with mem := Memory.writeList s.mem a.toNat bs })) ∧
    (a.toNat + n ≤ Config.addrEnd →
      ((s.busy = true ∧ ∃ i < n, inDst s (a.toNat + i) = true) → hostMemRead s a n name = .refused .hostBreaksDuty) ∧
      (¬(s.busy = true ∧ ∃ i < n, inDst s (a.toNat + i) = true) →
        hostMemRead s a n name = .next (setBuf s name (Memory.readList s.mem a.toNat n))))

/-- R100, R101, R103, 40_control.md R110: the HOST's step runs its next statement, and a host statement runs as its bus transactions; `WAIT` is
the read of STATUS and stays listed where bit 0 of what it reads is 1 (one step for each read: the model's choice, log 13); `MEMW` and `MEMR`
are no bus transaction but the platform's accesses (one step each: log 12). That the HOST steps where the schedule names no agent and BUSY = 0,
and that a HOST without a statement passes, is the model's choice (log 3). -/
def Obligations.StatementsRunAsTheirBusTransactions : Prop :=
  ∀ s : State,
    (∀ r v, busTransactions (.wr r v) = [.w (regOffset r) 4 v] ∧
      hostStatement s (.wr r v) = hostStatement s (.busWrite (regOffset r) 4 v) ∧
      hostStatement s (.wr r v) = .next (regWrite s (regOffset r) v)) ∧
    (∀ r t, busTransactions (.rd r t) = [.r (regOffset r) 4] ∧
      hostStatement s (.rd r t) = .next (setTemp (regRead s (regOffset r)).2 t (regRead s (regOffset r)).1)) ∧
    (∀ i, busTransactions (.cmd i) = [.w 0x04 4 (encode i)] ∧ hostStatement s (.cmd i) = .next (regWrite s 0x04 (encode i))) ∧
    (busTransactions .wait = [.r 0x08 4] ∧
      ((regRead s 0x08).1.getLsbD 0 = true → hostStatement s .wait = .next { (regRead s 0x08).2 with host := .wait :: s.host }) ∧
      ((regRead s 0x08).1.getLsbD 0 = false → hostStatement s .wait = .next (regRead s 0x08).2)) ∧
    (∀ a bs, busTransactions (.memw a bs) = [] ∧ hostStatement s (.memw a bs) = hostMemWrite s a bs) ∧
    (∀ a n name, busTransactions (.memr a n name) = [] ∧ hostStatement s (.memr a n name) = hostMemRead s a n name) ∧
    (∀ off v, off.toNat % 4 = 0 → busTransactions (.busWrite off 4 v) = [.w off 4 v] ∧
      hostStatement s (.busWrite off 4 v) = .next (regWrite s off v)) ∧
    (∀ off t, off.toNat % 4 = 0 → busTransactions (.busRead off 4 t) = [.r off 4] ∧
      hostStatement s (.busRead off 4 t) = .next (setTemp (regRead s off).2 t (regRead s off).1)) ∧
    (∀ st stmts, s.host = st :: stmts →
      (∀ rest, s.schedule = .host :: rest → step s = hostStatement { s with schedule := rest, host := stmts } st) ∧
      (s.schedule = [] → s.busy = false → step s = hostStatement { s with host := stmts } st)) ∧
    (s.host = [] →
      (∀ rest, s.schedule = .host :: rest → step s = .next { s with schedule := rest }) ∧
      (s.schedule = [] → s.busy = false → step s = .next s))

/-- R101, 70_reset_and_hazards.md R259: a `WAIT` over a running command ends, with BUSY = 0. That the ENGINE steps where the schedule names
no agent is the model's choice (log 3). -/
def Obligations.WaitEndsWhenTheCommandCompletes : Prop :=
  ∀ (s : State) (stmts : List HostStmt), TablesInv s → s.busy = true → s.schedule = [] → s.host = .wait :: stmts →
    ∃ t, Host.Core.run Sys2Proof.core 2 s = .next t ∧ t.host = stmts ∧ t.busy = false

/-! ### The register window (10_state.md) -/

/-- R24: ID reads the constant in every state, and the read changes nothing; its bytes from bit 31 down are "HUF1"; a write of it while
BUSY = 0 changes nothing. -/
def Obligations.IdReadsItsConstant : Prop :=
  (∀ s : State, regRead s 0x00 = (0x48554631, s)) ∧
  (∀ (s : State) (v : Word), s.busy = false → regWrite s 0x00 v = s) ∧
  (0x48554631#32).extractLsb' 24 8 = BitVec.ofNat 8 'H'.toNat ∧ (0x48554631#32).extractLsb' 16 8 = BitVec.ofNat 8 'U'.toNat ∧
  (0x48554631#32).extractLsb' 8 8 = BitVec.ofNat 8 'F'.toNat ∧ (0x48554631#32).extractLsb' 0 8 = BitVec.ofNat 8 '1'.toNat

/-- R111: what a register read returns and that it changes no state (but the number of the next free draw, the model's own: log 5); and,
10_state.md R24 to R44, what each register holds, as a field of the state (the windows onto CODE and NODE have statements of their own). -/
def Obligations.RegisterReadReturnsItsValue : Prop :=
  (∀ (s : State) (off : BitVec 8), off.toNat % 4 = 0 →
    (0x68 ≤ off.toNat → regRead s off = (0, s)) ∧
    ∀ r, regOffset r = off →
      ((s.busy = false ∨ r = .id ∨ r = .cmd ∨ r = .status ∨ r = .irqEn) → regRead s off = (regValue s r, s)) ∧
      (¬(s.busy = false ∨ r = .id ∨ r = .cmd ∨ r = .status ∨ r = .irqEn) →
        regRead s off = (Config.freeRead s.draws, { s with draws := s.draws + 1 }))) ∧
  ∀ s : State,
    ((regRead s 0x00).1 = 0x48554631 ∧ (regRead s 0x04).1 = s.cmd ∧ (regRead s 0x08).1 = statusWord s ∧
      (regRead s 0x0C).1.toNat = s.irqEn.toNat) ∧
    (s.busy = false →
      ((regRead s 0x10).1 = s.srcAddr ∧ (regRead s 0x14).1 = s.srcLen ∧ (regRead s 0x18).1 = s.dstAddr ∧
        (regRead s 0x1C).1 = s.dstCap) ∧
      ((regRead s 0x20).1 = s.outLen ∧ (regRead s 0x24).1 = s.origLen ∧ (regRead s 0x28).1 = s.errAddr ∧
        (regRead s 0x2C).1.toNat = s.bitCnt.toNat % 2 ^ 32 ∧ (regRead s 0x30).1.toNat = s.bitCnt.toNat / 2 ^ 32) ∧
      ((regRead s 0x34).1.toNat = s.numLeaves.toNat ∧ (regRead s 0x38).1.toNat = s.root.toNat ∧
        (regRead s 0x3C).1.toNat = s.nodeCount.toNat) ∧
      ((regRead s 0x40).1.toNat = s.freqIdx.toNat ∧ (regRead s 0x44).1 = symGet s.freq s.freqIdx ∧
        (regRead s 0x48).1.toNat = s.codeIdx.toNat ∧ (regRead s 0x50).1.toNat = s.codeSel.toNat ∧
        (regRead s 0x58).1.toNat = s.nodeIdx.toNat))

/-- R23, R113: after a host write while BUSY = 0, an RW register reads the low bits of the word that its width holds; the write of a
register that only stores (not CMD, STATUS or FREQ_DATA, which have statements of their own) changes that register and nothing else, so that
one of ORIG_LEN keeps both validity flags (R38, 70_reset_and_hazards.md R258); a write to an RO register or a reserved offset changes
nothing. -/
def Obligations.WrittenRegisterReadsBackItsDefinedBits : Prop :=
  ∀ (s : State) (v : Word), s.busy = false →
    (∀ p ∈ [(Reg.srcAddr, 0xFFFFFFFF#32), (.srcLen, 0xFFFFFFFF), (.dstAddr, 0xFFFFFFFF), (.dstCap, 0xFFFFFFFF),
        (.origLen, 0xFFFFFFFF), (.cmd, 0xFFFFFFFF), (.freqData, 0xFFFFFFFF), (.irqEn, 0x7), (.freqIdx, 0xFF),
        (.codeIdx, 0xFF), (.codeSel, 0x7), (.nodeIdx, 0x1FF)],
      regValue (regWrite s (regOffset p.1) v) p.1 = v &&& p.2) ∧
    (regWrite s 0x0C v = { s with irqEn := v.extractLsb' 0 3 } ∧ regWrite s 0x10 v = { s with srcAddr := v } ∧
      regWrite s 0x14 v = { s with srcLen := v } ∧ regWrite s 0x18 v = { s with dstAddr := v } ∧
      regWrite s 0x1C v = { s with dstCap := v } ∧ regWrite s 0x24 v = { s with origLen := v } ∧
      regWrite s 0x40 v = { s with freqIdx := v.extractLsb' 0 8 } ∧ regWrite s 0x48 v = { s with codeIdx := v.extractLsb' 0 8 } ∧
      regWrite s 0x50 v = { s with codeSel := v.extractLsb' 0 3 } ∧ regWrite s 0x58 v = { s with nodeIdx := v.extractLsb' 0 9 }) ∧
    (∀ r ∈ [Reg.id, .outLen, .errAddr, .bitcntLo, .bitcntHi, .numLeaves, .root, .nodeCount, .codeInfo, .codeBits, .nodeInfo,
        .nodeWlo, .nodeWhi],
      regWrite s (regOffset r) v = s) ∧
    ∀ off : BitVec 8, 0x68 ≤ off.toNat → regWrite s off v = s

/-- R26: the layout of STATUS and its write-one-to-clear bits. -/
def Obligations.StatusLayoutAndWriteOneToClear : Prop :=
  ∀ (s : State) (v : Word),
    (statusWord s).getLsbD 0 = s.busy ∧ (statusWord s).getLsbD 1 = s.done ∧ (statusWord s).getLsbD 2 = s.err ∧
    (statusWord s).getLsbD 3 = s.ovr ∧ (statusWord s).extractLsb' 4 4 = 0 ∧ (statusWord s).extractLsb' 8 4 = s.errCode ∧
    (statusWord s).extractLsb' 12 4 = 0 ∧ (statusWord s).getLsbD 16 = s.treeValid ∧
    (statusWord s).getLsbD 17 = s.codesValid ∧ (statusWord s).extractLsb' 18 14 = 0 ∧
    (s.busy = false → regWrite s 0x08 v =
      { s with
        done := s.done && !v.getLsbD 1
        err := s.err && !v.getLsbD 2
        ovr := s.ovr && !v.getLsbD 3 })

/-- R44: the window onto FREQ. -/
def Obligations.FreqDataReadsAndWritesTheSelectedCount : Prop :=
  ∀ (s : State) (v : Word), s.busy = false →
    regRead s 0x44 = (symGet s.freq s.freqIdx, s) ∧
    regWrite s 0x40 v = { s with freqIdx := v.extractLsb' 0 8 } ∧
    regWrite s 0x44 v =
      { s with freq := symSet s.freq s.freqIdx v, treeValid := false, codesValid := false } ∧
    ∀ b, symGet (symSet s.freq s.freqIdx v) b = if b = s.freqIdx then v else symGet s.freq b

/-- R45, R46: the window onto CODE, where every entry fits its width. -/
def Obligations.CodeWindowReadsTheSelectedCode : Prop :=
  ∀ s : State, s.busy = false → codesFit s →
    ((regRead s 0x4C).1.getLsbD 31 = (symGet s.code s.codeIdx).isSome ∧
      ((regRead s 0x4C).1.extractLsb' 0 8).toNat = ((symGet s.code s.codeIdx).getD []).length ∧
      (regRead s 0x4C).1.extractLsb' 8 23 = 0) ∧
    ∀ k < 32, (regRead s 0x54).1.getLsbD k = ((symGet s.code s.codeIdx).getD []).getD (32 * s.codeSel.toNat + k) false

/-- R47, R48: the window onto NODE; index 511 and an absent entry read 0. -/
def Obligations.NodeWindowReadsTheSelectedNode : Prop :=
  ∀ s : State, s.busy = false →
    (∀ x y z, regRead s 0x5C = (x, s) → regRead s 0x60 = (y, s) → regRead s 0x64 = (z, s) →
      (nodeAt s.node s.nodeIdx.toNat = .absent → x = 0 ∧ y = 0 ∧ z = 0) ∧
      (s.nodeIdx = 511 → x = 0 ∧ y = 0 ∧ z = 0) ∧
      (∀ sym w, nodeAt s.node s.nodeIdx.toNat = .leaf sym w →
        x.toNat = 2 ^ 31 + 2 ^ 30 + sym.toNat ∧ y.toNat + 2 ^ 32 * z.toNat = w.toNat) ∧
      ∀ left right w, nodeAt s.node s.nodeIdx.toNat = .internal left right w →
        x.toNat = 2 ^ 31 + 2 ^ 16 * right.toNat + left.toNat ∧ y.toNat + 2 ^ 32 * z.toNat = w.toNat) ∧
    (∃ x y z, regRead s 0x5C = (x, s) ∧ regRead s 0x60 = (y, s) ∧ regRead s 0x64 = (z, s))

/-- 60_exceptions.md R227, R228: IRQ is the OR of the enabled status bits; `ACK` drops it; an issue leaves only the OVR part. -/
def Obligations.IrqFollowsTheEnabledStatusBits : Prop :=
  ∀ (s : State) (v : Word),
    (irq s = true ↔ (s.done = true ∧ s.irqEn.getLsbD 0 = true) ∨ (s.err = true ∧ s.irqEn.getLsbD 1 = true) ∨
      (s.ovr = true ∧ s.irqEn.getLsbD 2 = true)) ∧
    (s.busy = false → irq (regWrite s 0x08 0x0000000E) = false) ∧
    (s.busy = false → irq (regWrite s 0x04 v) = (s.ovr && s.irqEn.getLsbD 2)) ∧
    irq (resetEvent s) = false

/-! ### Control, window checks, prerequisites (40_control.md, 20_memory.md, 60_exceptions.md) -/

/-- 40_control.md R120: NOP. -/
def Obligations.NopCompletes : Prop :=
  ∀ s : State, exec .nop s = .next { s with done := true, outLen := 0, busy := false }

/-- 40_control.md R121: CLEAR; everything it does not name is unchanged. -/
def Obligations.ClearCompletes : Prop :=
  ∀ s : State, ∃ t,
    exec .clear s = .next t ∧
    (∀ b, symGet t.freq b = 0 ∧ symGet t.code b = none) ∧ (∀ i, nodeAt t.node i = .absent) ∧
    t = { s with
      freq := t.freq
      code := t.code
      node := t.node
      origLen := 0
      bitCnt := 0
      numLeaves := 0
      root := 0
      nodeCount := 0
      treeValid := false
      codesValid := false
      done := true
      outLen := 0
      busy := false }

/-- 20_memory.md R72, R73: the window checks, the source window first, for every command that uses the window. -/
def Obligations.WindowChecksEndTheCommand : Prop :=
  ∀ (i : Instr) (s : State),
    (i ∈ [Instr.count, .pack, .hdrParse, .unpack, .compress, .decompress] → 2 ^ 32 < s.srcAddr.toNat + s.srcLen.toNat →
      exec i s = .next { s with err := true, errCode := 2, errAddr := s.srcAddr, outLen := 0, busy := false }) ∧
    (i ∈ [Instr.pack, .hdrWrite, .unpack, .compress, .decompress] →
      (i = .hdrWrite ∨ s.srcAddr.toNat + s.srcLen.toNat ≤ 2 ^ 32) → 2 ^ 32 < s.dstAddr.toNat + s.dstCap.toNat →
      exec i s = .next { s with err := true, errCode := 2, errAddr := s.dstAddr, outLen := 0, busy := false }) ∧
    (i ∈ [Instr.pack, .unpack, .compress, .decompress] → s.srcAddr.toNat + s.srcLen.toNat ≤ 2 ^ 32 →
      s.dstAddr.toNat + s.dstCap.toNat ≤ 2 ^ 32 → 0 < s.srcLen.toNat → 0 < s.dstCap.toNat →
      s.srcAddr.toNat < s.dstAddr.toNat + s.dstCap.toNat → s.dstAddr.toNat < s.srcAddr.toNat + s.srcLen.toNat →
      exec i s = .next { s with err := true, errCode := 3, errAddr := 0, outLen := 0, busy := false })

/-- The prerequisite flags and the size pre-checks (60_exceptions.md R220, R221 items 4 and 5), which leave all other state
(R223). That HDR_PARSE's is a pre-check for SRC_LEN = 0 too is the model's choice (log 24). -/
def Obligations.PrerequisitesEndTheCommand : Prop :=
  ∀ s : State,
    (s.treeValid = false →
      exec .gencode s = .next { s with err := true, errCode := 6, errAddr := 0, outLen := 0, busy := false }) ∧
    (windowsOk s → s.codesValid = false →
      exec .pack s = .next { s with err := true, errCode := 7, errAddr := 0, outLen := 0, busy := false }) ∧
    (windowsOk s → s.treeValid = false →
      exec .unpack s = .next { s with err := true, errCode := 6, errAddr := 0, outLen := 0, busy := false }) ∧
    (windowsOk s → s.treeValid = true → s.dstCap.toNat < s.origLen.toNat →
      exec .unpack s = .next { s with err := true, errCode := 9, errAddr := 0, outLen := 0, busy := false }) ∧
    (dstInRange s → s.dstCap.toNat < 1028 →
      exec .hdrWrite s = .next { s with err := true, errCode := 9, errAddr := 0, outLen := 0, busy := false }) ∧
    (srcInRange s → s.srcLen.toNat < 1028 →
      exec .hdrParse s = .next { s with err := true, errCode := 10, errAddr := 0, outLen := 0, busy := false }) ∧
    (windowsOk s → 0 < s.srcLen.toNat → s.srcLen.toNat < 1028 →
      exec .decompress s = .next { s with err := true, errCode := 10, errAddr := 0, outLen := 0, busy := false })

/-- 20_memory.md R74, R80, 60_exceptions.md R221 item 6, R224: the first byte the command reaches that does not respond ends it with its
address, and the write-set is free (the whole of it: log 6 and log 7): the source of COUNT; the header of HDR_PARSE and DECOMPRESS; the
counting pass of COMPRESS; the destination of HDR_WRITE and COMPRESS; a source byte of PACK, and a byte PACK emits; a payload byte that
UNPACK or DECOMPRESS needs, and a symbol it emits. -/
def Obligations.FirstUnresponsiveByteIsTheBusError : Prop :=
  ∀ (s : State) (i : Nat),
    (srcInRange s → i < s.srcLen.toNat → firstBad s s.srcAddr.toNat i →
      endsInFlight .count s .busError (s.srcAddr.toNat + i)) ∧
    (srcInRange s → 1028 ≤ s.srcLen.toNat → i < 1028 → firstBad s s.srcAddr.toNat i →
      endsInFlight .hdrParse s .busError (s.srcAddr.toNat + i)) ∧
    (windowsOk s → 1028 ≤ s.srcLen.toNat → i < 1028 → firstBad s s.srcAddr.toNat i →
      endsInFlight .decompress s .busError (s.srcAddr.toNat + i)) ∧
    (windowsOk s → i < s.srcLen.toNat → firstBad s s.srcAddr.toNat i →
      endsInFlight .compress s .busError (s.srcAddr.toNat + i)) ∧
    (dstInRange s → 1028 ≤ s.dstCap.toNat → i < 1028 → firstBad s s.dstAddr.toNat i →
      endsInFlight .hdrWrite s .busError (s.dstAddr.toNat + i)) ∧
    (windowsOk s → s.srcLen ≠ 0 → allOK s s.srcAddr.toNat s.srcLen.toNat → (archive (srcBytes s)).length ≤ s.dstCap.toNat →
      i < (archive (srcBytes s)).length → firstBad s s.dstAddr.toNat i →
      endsInFlight .compress s .busError (s.dstAddr.toNat + i)) ∧
    (windowsOk s → s.codesValid = true → i < s.srcLen.toNat → firstBad s s.srcAddr.toNat i →
      (∀ b ∈ (srcBytes s).take i, (symGet s.code b).isSome = true) →
      (codeBits s.code ((srcBytes s).take i)).length / 8 ≤ s.dstCap.toNat →
      allOK s s.dstAddr.toNat ((codeBits s.code ((srcBytes s).take i)).length / 8) →
      endsInFlight .pack s .busError (s.srcAddr.toNat + i)) ∧
    (∀ n ≤ s.srcLen.toNat, windowsOk s → s.codesValid = true → allOK s s.srcAddr.toNat n →
      (∀ b ∈ (srcBytes s).take n, (symGet s.code b).isSome = true) →
      (i < (codeBits s.code ((srcBytes s).take n)).length / 8 ∨
        (n = s.srcLen.toNat ∧ i < ceilDiv (codeBits s.code (srcBytes s)).length 8)) →
      i < s.dstCap.toNat → firstBad s s.dstAddr.toNat i →
      endsInFlight .pack s .busError (s.dstAddr.toNat + i)) ∧
    (∀ (ls xs : List LeafPath) (l : LeafPath) (rest : List Bool), windowsOk s → s.treeValid = true → treeCurrent s →
      leafPaths s.node s.root = .ok ls → s.origLen.toNat ≤ s.dstCap.toNat → (∀ x ∈ xs, x ∈ ls) → xs.length < s.origLen.toNat →
      l ∈ ls → startsWith l.path rest → rest ≠ l.path →
      bytesBits ((srcBytes s).take i) = (xs.flatMap fun x => x.path) ++ rest →
      i < s.srcLen.toNat → firstBad s s.srcAddr.toNat i → allOK s s.dstAddr.toNat xs.length →
      endsInFlight .unpack s .busError (s.srcAddr.toNat + i)) ∧
    (∀ (ls xs : List LeafPath) (tail : List Bool), windowsOk s → s.treeValid = true → treeCurrent s →
      leafPaths s.node s.root = .ok ls → s.origLen.toNat ≤ s.dstCap.toNat → (∀ x ∈ xs, x ∈ ls) →
      xs.length = i + 1 → i < s.origLen.toNat → bytesBits (srcBytes s) = (xs.flatMap fun x => x.path) ++ tail →
      allOK s s.srcAddr.toNat (ceilDiv (xs.flatMap fun x => x.path).length 8) → firstBad s s.dstAddr.toNat i →
      endsInFlight .unpack s .busError (s.dstAddr.toNat + i)) ∧
    (∀ (hb : List Byte) (T : Tree) (ls xs : List LeafPath), windowsOk s → 1028 ≤ s.srcLen.toNat →
      hb = Memory.readList s.mem s.srcAddr.toNat 1028 → headerLen hb ≠ 0 → freqSum (headerFreq hb) = (headerLen hb).toNat →
      treeOf (headerFreq hb) = some T → leafPaths T.node T.root = .ok ls → encodedBits ls ≤ 8 * (s.srcLen.toNat - 1028) →
      (headerLen hb).toNat ≤ s.dstCap.toNat → (∀ x ∈ xs, x ∈ ls) →
      (∀ (l : LeafPath) (rest : List Bool), xs.length < (headerLen hb).toNat → l ∈ ls → startsWith l.path rest → rest ≠ l.path →
        bytesBits (((srcBytes s).drop 1028).take i) = (xs.flatMap fun x => x.path) ++ rest →
        1028 + i < s.srcLen.toNat → firstBad s s.srcAddr.toNat (1028 + i) → allOK s s.dstAddr.toNat xs.length →
        endsInFlight .decompress s .busError (s.srcAddr.toNat + (1028 + i))) ∧
      ∀ tail : List Bool, xs.length = i + 1 → i < (headerLen hb).toNat →
        bytesBits ((srcBytes s).drop 1028) = (xs.flatMap fun x => x.path) ++ tail →
        allOK s s.srcAddr.toNat (1028 + ceilDiv (xs.flatMap fun x => x.path).length 8) → firstBad s s.dstAddr.toNat i →
        endsInFlight .decompress s .busError (s.dstAddr.toNat + i))

/-! ### COUNT and BUILD (41_freq_count.md, 42_tree_builder.md) -/

/-- R130, R131: COUNT completes where the window is in range and responds; the counts are those of the source bytes, and they sum to
ORIG_LEN, which is SRC_LEN; the same counts come of the counting part of COMPRESS. -/
def Obligations.CountCompletesWithTheHistogram : Prop :=
  ∀ s : State,
    (srcInRange s → allOK s s.srcAddr.toNat s.srcLen.toNat → ∃ t,
      exec .count s = .next t ∧
      t = { s with
        freq := t.freq
        origLen := s.srcLen
        treeValid := false
        codesValid := false
        done := true
        outLen := 0
        busy := false } ∧
      (∀ b, (symGet t.freq b).toNat = (srcBytes s).count b) ∧ freqSum t.freq = t.origLen.toNat) ∧
    ∀ t, countFreq s = .ok t →
      (∀ b, (symGet t.freq b).toNat = (srcBytes s).count b) ∧ freqSum t.freq = t.origLen.toNat ∧ t.origLen = s.srcLen

/-- R148: a BUILD step, standalone or inside a composite command, completes where some count is not 0; what it sets, and that it changes
nothing else. -/
def Obligations.BuildCompletesWithTheTreeSizes : Prop :=
  ∀ (s : State) (b : Byte), symGet s.freq b ≠ 0 → ∃ t,
    buildTree s = .ok t ∧
    t = { s with
      node := t.node
      numLeaves := t.numLeaves
      root := t.root
      nodeCount := t.nodeCount
      treeValid := true
      codesValid := false } ∧
    t.numLeaves.toNat = leafCount s.freq ∧ t.root.toNat = 2 * leafCount s.freq - 2 ∧
    t.nodeCount.toNat = 2 * leafCount s.freq - 1 ∧
    exec .build s = .next { t with done := true, outLen := 0, busy := false }

/-- R140: BUILD over an empty alphabet. -/
def Obligations.BuildOfNoSymbolIsEmptyAlphabet : Prop :=
  ∀ s : State, (∀ b, symGet s.freq b = 0) →
    exec .build s = .next { s with err := true, errCode := 5, errAddr := 0, outLen := 0, busy := false }

/-- R141, R142, R145: where the leaves stand: the real ones from index 0 in ascending symbol order with their counts, then the dummy
where there is one real leaf. -/
def Obligations.LeavesStandInSymbolOrder : Prop :=
  ∀ (f : FreqTable) (T : Tree), treeOf f = some T →
    (∀ k < (presentSymbols f).length, nodeAt T.node k =
      .leaf ((presentSymbols f).getD k 0) ((symGet f ((presentSymbols f).getD k 0)).setWidth 40)) ∧
    ((presentSymbols f).length = 1 → nodeAt T.node 1 = .leaf 0 0) ∧
    T.numLeaves.toNat = leafCount f

/-- 10_state.md R51, all six items, for the tree every BUILD step makes, standalone or inside a composite command. -/
def Obligations.EveryBuiltArenaIsATree : Prop :=
  ∀ s t : State, buildTree s = .ok t →
    ArenaTree s.freq t.node t.numLeaves.toNat ∧ t.root.toNat = 2 * t.numLeaves.toNat - 2 ∧
    ∃ ls, leafPaths t.node t.root = .ok ls ∧ ls.length = t.numLeaves.toNat ∧
      ∀ l ∈ ls, 1 ≤ l.path.length ∧ l.path.length ≤ t.numLeaves.toNat - 1 ∧
        ∃ i < t.numLeaves.toNat, followPath t.node t.root.toNat l.path = some i ∧ nodeAt t.node i = .leaf l.sym l.w

/-- R144: the queue gives up the index of the smallest key `(weight, index)`, the only one with that key. -/
def Obligations.QueueGivesTheSmallestKeyFirst : Prop :=
  ∀ (ar : List Node) (pq : List Nat), pq ≠ [] → pq.Nodup → ∃ a,
    takeMin ar pq = some (a, pq.erase a) ∧ a ∈ pq ∧
    ∀ j ∈ pq, j ≠ a → weightAt ar a < weightAt ar j ∨ (weightAt ar a = weightAt ar j ∧ a < j)

/-- R143, R146, R147: a merge of a queue of two or more removes the two smallest keys, makes the first the right child and the second
the left, at the next free index, with the exact sum as weight where it fits 40 bits. -/
def Obligations.MergeMakesTheFirstRemovedTheRightChild : Prop :=
  ∀ (ar : List Node) (pq : List Nat), 2 ≤ pq.length → pq.Nodup → ar.length < 511 → (∀ i ∈ pq, i < ar.length) →
    ∃ (a b : Nat) (left right : NodeIdx) (w : Weight),
      a ∈ pq ∧ b ∈ pq ∧ a ≠ b ∧
      (∀ j ∈ pq, j ≠ a → weightAt ar a < weightAt ar j ∨ (weightAt ar a = weightAt ar j ∧ a < j)) ∧
      (∀ j ∈ pq, j ≠ a → j ≠ b → weightAt ar b < weightAt ar j ∨ (weightAt ar b = weightAt ar j ∧ b < j)) ∧
      mergeOnce ar pq = some (ar ++ [.internal left right w], (pq.erase a).erase b ++ [ar.length]) ∧
      right.toNat = a ∧ left.toNat = b ∧
      (weightAt ar a + weightAt ar b < 2 ^ 40 → w.toNat = weightAt ar a + weightAt ar b)

/-- R147: the root's weight is the sum of all counts, below 2^40. -/
def Obligations.RootWeightIsTheSumOfTheCounts : Prop :=
  ∀ (f : FreqTable) (T : Tree), treeOf f = some T →
    (nodeWeight (nodeAt T.node T.root.toNat)).toNat = freqSum f ∧ freqSum f < 2 ^ 40

/-! ### GENCODE (43_code_generator.md) -/

/-- R162, R163, R164: a GENCODE step, standalone or inside COMPRESS, completes over a current tree; each present symbol's code is the path
from the root to its leaf, no other entry is valid, and BITCNT is the encoded size. -/
def Obligations.GencodeCompletesWithTheTreePaths : Prop :=
  ∀ s : State, s.treeValid = true → treeCurrent s → ∃ t,
    genCodes s = .ok t ∧
    t = { s with code := t.code, bitCnt := t.bitCnt, codesValid := true } ∧
    exec .gencode s = .next { t with done := true, outLen := 0, busy := false } ∧
    (∀ i b w, nodeAt s.node i = .leaf b w → w ≠ 0 → ∃ path, symGet t.code b = some path ∧
      followPath s.node s.root.toNat path = some i) ∧
    (∀ b, symGet s.freq b ≠ 0 → ∃ path i, symGet t.code b = some path ∧
      followPath s.node s.root.toNat path = some i ∧ nodeAt s.node i = .leaf b ((symGet s.freq b).setWidth 40)) ∧
    (∀ b, symGet s.freq b = 0 → symGet t.code b = none) ∧
    t.bitCnt.toNat = codedBits s.freq t.code

/-- R165: the codes of a frequency table have lengths from 1 to `NUM_LEAVES − 1`, none begins another, the tree is full, and they are
the same for equal tables. -/
def Obligations.CodesArePrefixFreeAndFull : Prop :=
  ∀ (f : FreqTable) (T : Tree) (ls : List LeafPath), treeOf f = some T → leafPaths T.node T.root = .ok ls →
    (∀ b path, symGet (codesOf ls) b = some path →
      1 ≤ path.length ∧ path.length ≤ T.numLeaves.toNat - 1 ∧ path.length ≤ 255) ∧
    (∀ a b xs ys, a ≠ b → symGet (codesOf ls) a = some xs → symGet (codesOf ls) b = some ys → ¬startsWith xs ys) ∧
    (ls.map fun l => (1 / 2 : ℚ) ^ l.path.length).sum = 1 ∧
    ∀ (s₁ s₂ t₁ t₂ : State), s₁.node = s₂.node → s₁.root = s₂.root → genCodes s₁ = .ok t₁ → genCodes s₂ = .ok t₂ →
      t₁.code = t₂.code

/-- 42_tree_builder.md R149: BUILD steps from equal FREQ tables make identical arenas, whatever else the states hold, standalone or inside
a composite command. -/
def Obligations.BuildIsAFunctionOfFreqAlone : Prop :=
  ∀ (s₁ s₂ : State) (b : Byte), s₁.freq = s₂.freq → symGet s₁.freq b ≠ 0 → ∃ t₁ t₂,
    buildTree s₁ = .ok t₁ ∧ buildTree s₂ = .ok t₂ ∧ t₁.treeValid = true ∧ t₂.treeValid = true ∧
    t₂.node = t₁.node ∧ t₂.numLeaves = t₁.numLeaves ∧ t₂.root = t₁.root ∧ t₂.nodeCount = t₁.nodeCount ∧
    exec .build s₁ = .next (recordDone t₁ 0) ∧ exec .build s₂ = .next (recordDone t₂ 0)

/-! ### PACK (44_bit_packer.md) -/

/-- R171, R172, R173: PACK completes where the windows pass, the codes are valid, every source byte responds and has a code, and the
payload fits and responds; the payload is the code bits in order, LSB first, its unused bits 0. -/
def Obligations.PackCompletesWithThePayload : Prop :=
  ∀ s : State, windowsOk s → s.codesValid = true → allOK s s.srcAddr.toNat s.srcLen.toNat →
    (∀ b ∈ srcBytes s, (symGet s.code b).isSome = true) →
    (bitsBytes (codeBits s.code (srcBytes s))).length ≤ s.dstCap.toNat →
    allOK s s.dstAddr.toNat (bitsBytes (codeBits s.code (srcBytes s))).length →
    ∃ t,
      exec .pack s = .next t ∧
      t = { s with
        mem := Memory.writeList s.mem s.dstAddr.toNat (bitsBytes (codeBits s.code (srcBytes s)))
        bitCnt := BitVec.ofNat 48 (codeBits s.code (srcBytes s)).length
        outLen := BitVec.ofNat 32 (ceilDiv (codeBits s.code (srcBytes s)).length 8)
        done := true
        busy := false } ∧
      (bitsBytes (codeBits s.code (srcBytes s))).length = ceilDiv (codeBits s.code (srcBytes s)).length 8 ∧
      (∀ j, ((bitsBytes (codeBits s.code (srcBytes s))).getD (j / 8) 0).getLsbD (j % 8) =
        (codeBits s.code (srcBytes s)).getD j false) ∧
      (codesFit s → (codeBits s.code (srcBytes s)).length < 2 ^ 40 ∧
        t.bitCnt.toNat = ((srcBytes s).map fun b => ((symGet s.code b).getD []).length).sum) ∧
      (Memory.wf s.mem = true →
        storedAt s.mem t.mem s.dstAddr.toNat (bitsBytes (codeBits s.code (srcBytes s))))

/-- R170, 60_exceptions.md R220, R221 item 6, R224: the first source byte without a code is NO_CODE at its address, where the bytes before it
are packed; a payload that does not fit is DST_OVERFLOW, and so is one whose first bytes already overflow, whatever source bytes follow. The
write-set is free after either (the whole of it: log 6 and log 7). -/
def Obligations.PackStopsAtNoCodeOrFullDestination : Prop :=
  ∀ s : State, windowsOk s → s.codesValid = true →
    (∀ i < s.srcLen.toNat, allOK s s.srcAddr.toNat (i + 1) →
      (∀ b ∈ (srcBytes s).take i, (symGet s.code b).isSome = true) → symGet s.code ((srcBytes s).getD i 0) = none →
      (codeBits s.code ((srcBytes s).take i)).length / 8 ≤ s.dstCap.toNat →
      allOK s s.dstAddr.toNat ((codeBits s.code ((srcBytes s).take i)).length / 8) →
      exec .pack s = .next (recordError (havoc (writeSet .pack) s) .noCode (s.srcAddr.toNat + i))) ∧
    (allOK s s.srcAddr.toNat s.srcLen.toNat → (∀ b ∈ srcBytes s, (symGet s.code b).isSome = true) →
      s.dstCap.toNat < ceilDiv (codeBits s.code (srcBytes s)).length 8 → allOK s s.dstAddr.toNat s.dstCap.toNat →
      exec .pack s = .next (recordError (havoc (writeSet .pack) s) .dstOverflow 0)) ∧
    ∀ n ≤ s.srcLen.toNat, allOK s s.srcAddr.toNat n → (∀ b ∈ (srcBytes s).take n, (symGet s.code b).isSome = true) →
      s.dstCap.toNat < (codeBits s.code ((srcBytes s).take n)).length / 8 → allOK s s.dstAddr.toNat s.dstCap.toNat →
      exec .pack s = .next (recordError (havoc (writeSet .pack) s) .dstOverflow 0)

/-- R174: for codes generated from the counts of the same bytes, every byte has a code and the payload's length is the encoded
size. -/
def Obligations.PayloadLengthIsTheEncodedSize : Prop :=
  ∀ (bs : List Byte) (T : Tree) (ls : List LeafPath), bs.length < 2 ^ 32 → treeOf (histogram bs) = some T →
    leafPaths T.node T.root = .ok ls →
    (∀ b ∈ bs, (symGet (codesOf ls) b).isSome = true) ∧
    (codeBits (codesOf ls) bs).length = encodedBits ls ∧ encodedBits ls = codedBits (histogram bs) (codesOf ls) ∧
    encodedBits ls < 2 ^ 48

/-! ### The header (45_header_codec.md) -/

/-- R180, R181: HDR_WRITE completes where the window is in range, holds 1028 bytes and responds; the layout of the header, which is the
one ParseHeader reads. -/
def Obligations.HdrWriteCompletesWithTheHeader : Prop :=
  ∀ s : State,
    (dstInRange s → 1028 ≤ s.dstCap.toNat → allOK s s.dstAddr.toNat 1028 →
      exec .hdrWrite s = .next
        { s with
          mem := Memory.writeList s.mem s.dstAddr.toNat (headerBytes s.origLen s.freq)
          outLen := 1028
          done := true
          busy := false }) ∧
    (Memory.wf s.mem = true → storedAt s.mem (Memory.writeList s.mem s.dstAddr.toNat (headerBytes s.origLen s.freq))
      s.dstAddr.toNat (headerBytes s.origLen s.freq)) ∧
    (headerBytes s.origLen s.freq).length = 1028 ∧
    (∀ t < 4, (headerBytes s.origLen s.freq).getD t 0 = s.origLen.extractLsb' (8 * t) 8) ∧
    (∀ (b : Byte), ∀ t < 4, (headerBytes s.origLen s.freq).getD (4 + 4 * b.toNat + t) 0 =
      (symGet s.freq b).extractLsb' (8 * t) 8) ∧
    headerLen (headerBytes s.origLen s.freq) = s.origLen ∧ headerFreq (headerBytes s.origLen s.freq) = s.freq

/-- R182, R184: HDR_PARSE completes on a consistent header of a window that responds, and rejects a window shorter than 1028 bytes
before it reads (for SRC_LEN = 0 too: the model's choice, log 24), and in flight a header whose length is 0 or whose exact sum differs. -/
def Obligations.HdrParseCompletesOnAConsistentHeader : Prop :=
  ∀ s : State, srcInRange s →
    (s.srcLen.toNat < 1028 →
      exec .hdrParse s = .next { s with err := true, errCode := 10, errAddr := 0, outLen := 0, busy := false }) ∧
    (1028 ≤ s.srcLen.toNat → allOK s s.srcAddr.toNat 1028 →
      ∀ hb, hb = Memory.readList s.mem s.srcAddr.toNat 1028 →
        (headerLen hb ≠ 0 ∧ freqSum (headerFreq hb) = (headerLen hb).toNat →
          exec .hdrParse s = .next
            { s with
              origLen := headerLen hb
              freq := headerFreq hb
              treeValid := false
              codesValid := false
              done := true
              outLen := 0
              busy := false }) ∧
        (headerLen hb = 0 ∨ freqSum (headerFreq hb) ≠ (headerLen hb).toNat →
          exec .hdrParse s = .next (recordError (havoc (writeSet .hdrParse) s) .corruptHeader 0)) ∧
        (∀ t < 4, (headerLen hb).extractLsb' (8 * t) 8 = hb.getD t 0) ∧
        ∀ b : Byte, ∀ t < 4, (symGet (headerFreq hb) b).extractLsb' (8 * t) 8 = hb.getD (4 + 4 * b.toNat + t) 0)

/-- R183: the header that was written parses back to what was written, exactly when it is consistent. -/
def Obligations.ParsedHeaderIsTheWrittenHeader : Prop :=
  ∀ s u : State, ∀ m : Memory, Memory.wf s.mem = true → writeHeader s = .ok m →
    u.mem = m → u.srcAddr = s.dstAddr → u.memMap = s.memMap →
      ((s.origLen ≠ 0 ∧ freqSum s.freq = s.origLen.toNat → ∃ t, parseHeader u = .ok t ∧ t.origLen = s.origLen ∧
        t.freq = s.freq) ∧
      (¬(s.origLen ≠ 0 ∧ freqSum s.freq = s.origLen.toNat) → parseHeader u = .error (.inflight .corruptHeader 0)))

/-! ### UNPACK (46_bit_unpacker.md) -/

/-- R190 to R194: UNPACK completes where the payload's bits go along the paths of ORIG_LEN leaves (the dummy among them), whatever bits
follow, and the bytes it needs respond; it emits those leaves' symbols and counts the bits consumed. -/
def Obligations.UnpackCompletesAlongTheLeafPaths : Prop :=
  ∀ (s : State) (ls xs : List LeafPath) (tail : List Bool),
    windowsOk s → s.treeValid = true → treeCurrent s → leafPaths s.node s.root = .ok ls → (∀ x ∈ xs, x ∈ ls) →
    xs.length = s.origLen.toNat → s.origLen.toNat ≤ s.dstCap.toNat →
    bytesBits (srcBytes s) = (xs.flatMap fun x => x.path) ++ tail →
    allOK s s.srcAddr.toNat (ceilDiv (xs.flatMap fun x => x.path).length 8) → allOK s s.dstAddr.toNat s.origLen.toNat →
    ∃ t,
      exec .unpack s = .next t ∧
      t = { s with
        mem := Memory.writeList s.mem s.dstAddr.toNat (xs.map fun x => x.sym)
        bitCnt := BitVec.ofNat 48 (xs.flatMap fun x => x.path).length
        outLen := s.origLen
        done := true
        busy := false } ∧
      t.bitCnt.toNat = (xs.flatMap fun x => x.path).length ∧ t.bitCnt.toNat ≤ 8 * s.srcLen.toNat ∧
      (Memory.wf s.mem = true → storedAt s.mem t.mem s.dstAddr.toNat (xs.map fun x => x.sym))

/-- R193, 47_composite.md R203: a payload that ends inside a path, before ORIG_LEN symbols are emitted, is TRUNCATED_PAYLOAD, and the
write-set is free (the whole of it: log 6 and log 7): for UNPACK, and for DECOMPRESS over a consistent header whose payload has the capacity of
R204 and yet fewer bits than its own paths take. -/
def Obligations.UnpackOfAShortPayloadIsTruncated : Prop :=
  ∀ (s : State) (ls xs : List LeafPath) (l : LeafPath) (tail : List Bool),
    (windowsOk s → s.treeValid = true → treeCurrent s → leafPaths s.node s.root = .ok ls → (∀ x ∈ xs, x ∈ ls) →
      xs.length < s.origLen.toNat → s.origLen.toNat ≤ s.dstCap.toNat →
      bytesBits (srcBytes s) = (xs.flatMap fun x => x.path) ++ tail → l ∈ ls → startsWith l.path tail → tail ≠ l.path →
      allOK s s.srcAddr.toNat s.srcLen.toNat → allOK s s.dstAddr.toNat xs.length →
      exec .unpack s = .next (recordError (havoc (writeSet .unpack) s) .truncatedPayload 0)) ∧
    ∀ (hb : List Byte) (T : Tree), windowsOk s → 1028 ≤ s.srcLen.toNat → hb = Memory.readList s.mem s.srcAddr.toNat 1028 →
      headerLen hb ≠ 0 → freqSum (headerFreq hb) = (headerLen hb).toNat → treeOf (headerFreq hb) = some T →
      leafPaths T.node T.root = .ok ls → encodedBits ls ≤ 8 * (s.srcLen.toNat - 1028) →
      (headerLen hb).toNat ≤ s.dstCap.toNat → (∀ x ∈ xs, x ∈ ls) → xs.length < (headerLen hb).toNat →
      bytesBits ((srcBytes s).drop 1028) = (xs.flatMap fun x => x.path) ++ tail → l ∈ ls → startsWith l.path tail → tail ≠ l.path →
      allOK s s.srcAddr.toNat s.srcLen.toNat → allOK s s.dstAddr.toNat xs.length →
      exec .decompress s = .next (recordError (havoc (writeSet .decompress) s) .truncatedPayload 0)

/-! ### COMPRESS and DECOMPRESS (47_composite.md) -/

/-- R200, R201, R203: the empty input and the empty archive. -/
def Obligations.EmptyInputCompletesUnchanged : Prop :=
  ∀ s : State, srcInRange s → dstInRange s → s.srcLen = 0 →
    exec .compress s = .next { s with done := true, outLen := 0, busy := false } ∧
    exec .decompress s = .next { s with done := true, outLen := 0, busy := false }

/-- R200, R202: COMPRESS of a nonempty window completes where the windows pass, the source responds, and the archive fits and
responds; the destination holds `Archive(S)` (30_encoding.md R97), and the tables are those of COUNT, BUILD and GENCODE. -/
def Obligations.CompressCompletesWithTheArchive : Prop :=
  ∀ s : State, windowsOk s → s.srcLen ≠ 0 → allOK s s.srcAddr.toNat s.srcLen.toNat →
    (archive (srcBytes s)).length ≤ s.dstCap.toNat → allOK s s.dstAddr.toNat (archive (srcBytes s)).length →
    ∃ (T : Tree) (ls : List LeafPath) (t : State),
      treeOf (histogram (srcBytes s)) = some T ∧ leafPaths T.node T.root = .ok ls ∧ exec .compress s = .next t ∧
      t = { s with
        freq := histogram (srcBytes s)
        origLen := s.srcLen
        node := T.node
        numLeaves := T.numLeaves
        root := T.root
        nodeCount := T.nodeCount
        code := codesOf ls
        bitCnt := t.bitCnt
        treeValid := true
        codesValid := true
        mem := Memory.writeList s.mem s.dstAddr.toNat (archive (srcBytes s))
        outLen := t.outLen
        done := true
        busy := false } ∧
      t.outLen.toNat = (archive (srcBytes s)).length ∧
      t.bitCnt.toNat = (codeBits (codesOf ls) (srcBytes s)).length ∧
      (Memory.wf s.mem = true → storedAt s.mem t.mem s.dstAddr.toNat (archive (srcBytes s)))

/-- R202 items 2 and 3: an archive is at least a header long, begins with the length, and has `ceil(N/8)` payload bytes for one repeated
byte. -/
def Obligations.ArchiveLengthLaws : Prop :=
  ∀ bs : List Byte, bs ≠ [] → bs.length < 2 ^ 32 →
    1028 ≤ (archive bs).length ∧ (headerLen (archive bs)).toNat = bs.length ∧
    ((∀ b ∈ bs, ∀ c ∈ bs, b = c) → (archive bs).length = 1028 + ceilDiv bs.length 8)

/-- R200: an archive that does not fit is DST_OVERFLOW in flight, with the write-set free and both flags 0. -/
def Obligations.CompressIntoASmallBufferOverflows : Prop :=
  ∀ s : State, windowsOk s → s.srcLen ≠ 0 → allOK s s.srcAddr.toNat s.srcLen.toNat →
    s.dstCap.toNat < (archive (srcBytes s)).length →
    exec .compress s = .next (recordError (havoc (writeSet .compress) s) .dstOverflow 0) ∧
    (havoc (writeSet .compress) s).treeValid = false ∧ (havoc (writeSet .compress) s).codesValid = false

/-- R203: DECOMPRESS completes on a consistent header whose payload has the capacity of R204 and goes along the paths of ORIG_LEN leaves,
whatever follows, where the output fits and the bytes it needs respond. CODE is unchanged. -/
def Obligations.DecompressCompletesAlongTheLeafPaths : Prop :=
  ∀ (s : State) (hb : List Byte) (T : Tree) (ls xs : List LeafPath) (tail : List Bool),
    windowsOk s → 1028 ≤ s.srcLen.toNat → hb = Memory.readList s.mem s.srcAddr.toNat 1028 →
    headerLen hb ≠ 0 → freqSum (headerFreq hb) = (headerLen hb).toNat → treeOf (headerFreq hb) = some T →
    leafPaths T.node T.root = .ok ls → encodedBits ls ≤ 8 * (s.srcLen.toNat - 1028) →
    (headerLen hb).toNat ≤ s.dstCap.toNat → (∀ x ∈ xs, x ∈ ls) → xs.length = (headerLen hb).toNat →
    bytesBits ((srcBytes s).drop 1028) = (xs.flatMap fun x => x.path) ++ tail →
    allOK s s.srcAddr.toNat (1028 + ceilDiv (xs.flatMap fun x => x.path).length 8) →
    allOK s s.dstAddr.toNat xs.length →
    ∃ t,
      exec .decompress s = .next t ∧
      t = { s with
        freq := headerFreq hb
        origLen := headerLen hb
        node := T.node
        numLeaves := T.numLeaves
        root := T.root
        nodeCount := T.nodeCount
        bitCnt := t.bitCnt
        treeValid := true
        codesValid := false
        mem := Memory.writeList s.mem s.dstAddr.toNat (xs.map fun x => x.sym)
        outLen := headerLen hb
        done := true
        busy := false } ∧
      t.bitCnt.toNat = (xs.flatMap fun x => x.path).length ∧
      (Memory.wf s.mem = true → storedAt s.mem t.mem s.dstAddr.toNat (xs.map fun x => x.sym))

/-- R203, R204: the in-flight errors of DECOMPRESS before it decodes, in their order: a corrupt header, a payload without the capacity the
counts require, an output that does not fit. -/
def Obligations.DecompressChecksBeforeDecoding : Prop :=
  ∀ (s : State) (hb : List Byte), windowsOk s → 1028 ≤ s.srcLen.toNat → allOK s s.srcAddr.toNat 1028 →
    hb = Memory.readList s.mem s.srcAddr.toNat 1028 →
    (¬(headerLen hb ≠ 0 ∧ freqSum (headerFreq hb) = (headerLen hb).toNat) →
      exec .decompress s = .next (recordError (havoc (writeSet .decompress) s) .corruptHeader 0)) ∧
    (headerLen hb ≠ 0 → freqSum (headerFreq hb) = (headerLen hb).toNat → ∃ (T : Tree) (ls : List LeafPath),
      treeOf (headerFreq hb) = some T ∧ leafPaths T.node T.root = .ok ls ∧
      (8 * (s.srcLen.toNat - 1028) < encodedBits ls →
        exec .decompress s = .next (recordError (havoc (writeSet .decompress) s) .truncatedPayload 0)) ∧
      (encodedBits ls ≤ 8 * (s.srcLen.toNat - 1028) → s.dstCap.toNat < (headerLen hb).toNat →
        exec .decompress s = .next (recordError (havoc (writeSet .decompress) s) .dstOverflow 0)))

/-- R205: DECOMPRESS of what COMPRESS wrote gives the source bytes back, for every source, the empty one among them. -/
def Obligations.DecompressUndoesCompress : Prop :=
  ∀ s : State, Memory.wf s.mem = true → windowsOk s → allOK s s.srcAddr.toNat s.srcLen.toNat →
    (archive (srcBytes s)).length ≤ s.dstCap.toNat → allOK s s.dstAddr.toNat (archive (srcBytes s)).length →
    ∃ t, exec .compress s = .next t ∧ t.done = true ∧
      ∀ u : State, u.mem = t.mem → u.memMap = t.memMap → u.srcAddr = t.dstAddr → u.srcLen = t.outLen → windowsOk u →
        s.srcLen.toNat ≤ u.dstCap.toNat → allOK u u.dstAddr.toNat s.srcLen.toNat →
        ∃ v, exec .decompress u = .next v ∧ v.done = true ∧ v.outLen = s.srcLen ∧
          Memory.readList v.mem u.dstAddr.toNat s.srcLen.toNat = srcBytes s

/-! ### What every command does (60_exceptions.md) -/

/-- R225, with 10_state.md R62: whatever way a command ends, it changes nothing outside its write-set, and no byte of memory outside
the destination window. -/
def Obligations.CommandsChangeOnlyTheirWriteSet : Prop :=
  ∀ (i : Instr) (s t : State), exec i s = .next t →
    (t.cmd = s.cmd ∧ t.ovr = s.ovr ∧ t.irqEn = s.irqEn ∧ t.srcAddr = s.srcAddr ∧ t.srcLen = s.srcLen ∧
      t.dstAddr = s.dstAddr ∧ t.dstCap = s.dstCap ∧ t.freqIdx = s.freqIdx ∧ t.codeIdx = s.codeIdx ∧
      t.codeSel = s.codeSel ∧ t.nodeIdx = s.nodeIdx) ∧
    (t.memMap = s.memMap ∧ t.host = s.host ∧ t.temps = s.temps ∧ t.bufs = s.bufs ∧ t.schedule = s.schedule) ∧
    (i ∉ [Instr.clear, .count, .hdrParse, .compress, .decompress] → t.freq = s.freq ∧ t.origLen = s.origLen) ∧
    (i ∉ [Instr.clear, .build, .compress, .decompress] →
      t.node = s.node ∧ t.numLeaves = s.numLeaves ∧ t.root = s.root ∧ t.nodeCount = s.nodeCount) ∧
    (i ∉ [Instr.clear, .gencode, .compress] → t.code = s.code) ∧
    (i ∉ [Instr.clear, .gencode, .pack, .unpack, .compress, .decompress] → t.bitCnt = s.bitCnt) ∧
    (i ∉ [Instr.clear, .count, .build, .hdrParse, .compress, .decompress] → t.treeValid = s.treeValid) ∧
    (i ∉ [Instr.clear, .count, .build, .gencode, .hdrParse, .compress, .decompress] → t.codesValid = s.codesValid) ∧
    (i ∉ [Instr.pack, .hdrWrite, .unpack, .compress, .decompress] → t.mem = s.mem) ∧
    (Memory.wf s.mem = true → ∀ a, inDst s a = false → Memory.read t.mem a = Memory.read s.mem a) ∧
    (i ∈ [Instr.nop, .clear, .build, .gencode] → s.err = false → t.err = true → ∃ e a, t = recordError s e a)

/-- 40_control.md R117, R222, R223, R224: a command issued over clean outcome bits ends with BUSY 0 and with DONE or ERR, never both; an
error has a code from 1 to 11 and OUT_LEN 0, and leaves either the state of the issue or free values in the write-set with its flags 0. -/
def Obligations.EveryOutcomeIsDoneOrARecordedError : Prop :=
  ∀ (i : Instr) (s t : State), exec i s = .next t → s.done = false → s.err = false → s.errCode = 0 → s.errAddr = 0 →
    t.busy = false ∧
    ((t.done = true ∧ t.err = false ∧ t.errCode = 0 ∧ t.errAddr = 0) ∨
      (t.done = false ∧ t.err = true ∧ 1 ≤ t.errCode.toNat ∧ t.errCode.toNat ≤ 11 ∧ t.outLen = 0 ∧
        ((∃ e a, t = recordError s e a) ∨
          ((∃ e a, t = recordError (havoc (writeSet i) s) e a) ∧
            (i ∈ [Instr.count, .hdrParse, .compress, .decompress] → t.treeValid = false ∧ t.codesValid = false) ∧
            i ∉ [Instr.nop, .clear, .build, .gencode]))))

/-- 40_control.md R119: from every state whose validity flags tell the truth, every command completes, with or without an error; none is
stuck. -/
def Obligations.EveryCommandCompletes : Prop :=
  ∀ (i : Instr) (s : State), TablesInv s → ∃ t, exec i s = .next t

/-! ### Reset (70_reset_and_hazards.md) -/

/-- R250, R251, R254: the RESET event: every register and table at its reset value, no completion reported, memory unchanged where no
command runs or the word in CMD is illegal, and only the destination window of an abandoned command that writes memory free (the whole of it,
with bytes that an overlapping source window shares: log 7). That the platform, the host's program, its temporaries and buffers and the
schedule stay is the model's choice (log 15). -/
def Obligations.ResetGivesTheResetValues : Prop :=
  ∀ (s : State) (rest : List Agent), s.schedule = .reset :: rest → ∃ t,
    step s = .next t ∧
    t = { State.reset with
      mem := t.mem
      memMap := s.memMap
      host := s.host
      temps := s.temps
      bufs := s.bufs
      schedule := rest
      draws := t.draws } ∧
    (∀ r, regRead t (regOffset r) = (if r = .id then 0x48554631 else 0, t)) ∧ irq t = false ∧
    (∀ b, symGet t.freq b = 0 ∧ symGet t.code b = none) ∧ (∀ i, nodeAt t.node i = .absent) ∧
    (s.busy = false → t.mem = s.mem) ∧
    (∀ i, decode s.cmd = .ok i → i ∉ [Instr.pack, .hdrWrite, .unpack, .compress, .decompress] → t.mem = s.mem) ∧
    (∀ e, decode s.cmd = .error e → t.mem = s.mem) ∧
    (Memory.wf s.mem = true → ∀ a, inDst s a = false → Memory.read t.mem a = Memory.read s.mem a)

/-- R253: right after reset ID identifies the block, GENCODE and UNPACK raise NO_TREE, PACK raises NO_CODES, BUILD raises EMPTY_ALPHABET,
and COMPRESS and DECOMPRESS complete. -/
def Obligations.FirstCommandsAfterReset : Prop :=
  (regRead State.reset 0x00).1 = 0x48554631 ∧
  ∀ i, ∃ t, step (State.reset.withFetchWord 32 (encode i).toNat) = .next t ∧
    (i = .gencode ∨ i = .unpack → statusWord t = 0x00000604) ∧ (i = .pack → statusWord t = 0x00000704) ∧
    (i = .build → statusWord t = 0x00000504) ∧ (i = .compress ∨ i = .decompress ∨ i = .nop → statusWord t = 0x00000002)

/-! ### Invariants -/

/-- The state after reset meets the invariant (70_reset_and_hazards.md R250; memory and the platform at reset are the model's choice,
log 1 and log 2). -/
def Obligations.ResetMeetsTheInvariant : Prop := Inv State.reset ∧ codesFit State.reset

/-- 10_state.md R28, R53: DONE and ERR are never both 1, CODES_VALID implies TREE_VALID, ERRCODE is at most 11: every step of every agent
keeps the STATUS invariant. -/
def Obligations.EveryStepKeepsTheStatusInvariant : Prop :=
  ∀ s t : State, StatusInv s → step s = .next t → StatusInv t

/-- 10_state.md R32, R33: while TREE_VALID = 1 the arena is the one BUILD makes from the current FREQ, and while CODES_VALID = 1 the code
table is the one of that tree: every step of every agent keeps it. -/
def Obligations.EveryStepKeepsTheTablesCurrent : Prop :=
  ∀ s t : State, TablesInv s → step s = .next t → TablesInv t

/-- 00_scope.md R15, 10_state.md R52: an entry of the code table has at most 255 bits: every step of every agent keeps it, where the
validity flags tell the truth. -/
def Obligations.EveryStepKeepsCodesInTheirWidth : Prop :=
  ∀ s t : State, TablesInv s → codesFit s → step s = .next t → codesFit t

/-- Every step of every agent keeps memory in its canonical form (log 2: the form is the model's). -/
def Obligations.EveryStepKeepsMemoryCanonical : Prop :=
  ∀ s t : State, Memory.wf s.mem = true → step s = .next t → Memory.wf t.mem = true

/-- From every state that meets the invariant no step faults (log 9), and a refused step is the host's, at a register access that is not a
word access (20_memory.md R78, 40_control.md R114), at a memory access against its duty (20_memory.md R84; the duty tested whatever the
command: log 10), or at one past the last address (the model's choice: log 11). -/
def Obligations.NoStepFaultsUnderTheInvariant : Prop :=
  ∀ s : State, Inv s → (∀ f, step s ≠ .fault f) ∧
    ∀ q, step s = .refused q → ∃ (st : HostStmt) (stmts : List HostStmt), s.host = st :: stmts ∧
      ((∃ rest, s.schedule = .host :: rest) ∨ (s.schedule = [] ∧ s.busy = false)) ∧
      ((q = .hostAccessNotWord ∧ ∃ off bytes, ¬(bytes = 4 ∧ off.toNat % 4 = 0) ∧
          ((∃ v, st = .busWrite off bytes v) ∨ ∃ t, st = .busRead off bytes t)) ∨
        (q = .hostOutsideMemory ∧
          ((∃ a bs, st = .memw a bs ∧ Config.addrEnd < a.toNat + bs.length) ∨
            ∃ a n name, st = .memr a n name ∧ Config.addrEnd < a.toNat + n)) ∨
        (q = .hostBreaksDuty ∧ s.busy = true ∧
          ((∃ a bs, st = .memw a bs ∧ ∃ i < bs.length, inSrc s (a.toNat + i) = true ∨ inDst s (a.toNat + i) = true) ∨
            ∃ a n name, st = .memr a n name ∧ ∃ i < n, inDst s (a.toNat + i) = true)))
end

