-- ==== Sys2Proof/Laws/Memory.lean ====
section
/-! SUPPORT. The laws of data memory: the canonical form is kept by every operation, a read after a write, and memories that read
alike are equal. -/

namespace Sys2Proof.Machine

/-- The canonical form, said of the first cell and the rest. -/
theorem Memory.wf_cons (k : Nat) (v : Byte) (m : Memory) :
    Memory.wf ((k, v) :: m) = true ↔ v ≠ unlistedByte ∧ (∀ x ∈ m, k < x.1) ∧ Memory.wf m = true := by
  induction m generalizing k v with
  | nil => simp [Memory.wf]
  | cons c m ih =>
    obtain ⟨k', v'⟩ := c
    have step : Memory.wf ((k, v) :: (k', v') :: m) = true ↔
        v ≠ unlistedByte ∧ k < k' ∧ Memory.wf ((k', v') :: m) = true := by
      simp [Memory.wf, and_assoc]
    rw [step]
    constructor
    · rintro ⟨hv, hk, hw⟩
      refine ⟨hv, ?_, hw⟩
      have below := ((ih k' v').mp hw).2.1
      intro x hx
      rcases List.mem_cons.mp hx with rfl | hx
      · exact hk
      · exact lt_trans hk (below x hx)
    · rintro ⟨hv, hk, hw⟩
      exact ⟨hv, hk _ (List.mem_cons_self ..), hw⟩

@[simp] theorem Memory.read_nil (a : Nat) : Memory.read [] a = unlistedByte := rfl

theorem Memory.read_cons (k : Nat) (v : Byte) (m : Memory) (a : Nat) :
    Memory.read ((k, v) :: m) a = if k = a then v else Memory.read m a := rfl

/-- An address below every listed one reads as unlisted. -/
theorem Memory.read_below (m : Memory) (a : Nat) (h : ∀ x ∈ m, a < x.1) : Memory.read m a = unlistedByte := by
  induction m with
  | nil => rfl
  | cons c m ih =>
    obtain ⟨k, v⟩ := c
    have hk : a < k := h (k, v) (List.mem_cons_self ..)
    rw [Memory.read_cons, if_neg (by omega)]
    exact ih fun x hx => h x (List.mem_cons_of_mem _ hx)

/-- Every address a write lists is the written one or was listed before. -/
theorem Memory.mem_write (m : Memory) (a : Nat) (v : Byte) (x : Host.Cell) (hx : x ∈ Memory.write m a v) :
    x.1 = a ∨ ∃ y ∈ m, y.1 = x.1 := by
  induction m with
  | nil =>
    simp only [Memory.write, consCell] at hx
    split at hx <;> simp_all
  | cons c m ih =>
    obtain ⟨k, w⟩ := c
    simp only [Memory.write, consCell] at hx
    split at hx
    · rcases List.mem_cons.mp hx with rfl | hx
      · exact .inr ⟨_, List.mem_cons_self .., rfl⟩
      · rcases ih hx with h | ⟨y, hy, hyx⟩
        · exact .inl h
        · exact .inr ⟨y, List.mem_cons_of_mem _ hy, hyx⟩
    · split at hx
      · split at hx
        · exact .inr ⟨x, List.mem_cons_of_mem _ hx, rfl⟩
        · rcases List.mem_cons.mp hx with rfl | hx
          · exact .inl rfl
          · exact .inr ⟨x, List.mem_cons_of_mem _ hx, rfl⟩
      · split at hx
        · exact .inr ⟨x, hx, rfl⟩
        · rcases List.mem_cons.mp hx with rfl | hx
          · exact .inl rfl
          · exact .inr ⟨x, hx, rfl⟩

/-- Putting a cell in front of higher ones keeps the canonical form. -/
theorem Memory.wf_consCell (a : Nat) (v : Byte) (m : Memory) (hm : Memory.wf m = true) (hlt : ∀ x ∈ m, a < x.1) :
    Memory.wf (consCell a v m) = true := by
  unfold consCell
  split
  · exact hm
  · exact (Memory.wf_cons a v m).mpr ⟨‹_›, hlt, hm⟩

/-- A cell put in front of higher ones: what reads. -/
theorem Memory.read_consCell (a : Nat) (v : Byte) (m : Memory) (hlt : ∀ x ∈ m, a < x.1) (b : Nat) :
    Memory.read (consCell a v m) b = if a = b then v else Memory.read m b := by
  unfold consCell
  split
  · rename_i hv
    split
    · rename_i hab; subst hab; rw [Memory.read_below m a hlt, hv]
    · rfl
  · rfl

/-- Every write keeps the canonical form. -/
theorem Memory.wf_write (m : Memory) (a : Nat) (v : Byte) (hm : Memory.wf m = true) : Memory.wf (Memory.write m a v) = true := by
  induction m with
  | nil => exact Memory.wf_consCell a v [] rfl (by simp)
  | cons c m ih =>
    obtain ⟨k, w⟩ := c
    obtain ⟨hw, hlt, hm'⟩ := (Memory.wf_cons k w m).mp hm
    simp only [Memory.write]
    split
    · rename_i hka
      refine (Memory.wf_cons k w _).mpr ⟨hw, ?_, ih hm'⟩
      intro x hx
      rcases Memory.mem_write m a v x hx with h | ⟨y, hy, hyx⟩
      · omega
      · rw [← hyx]; exact hlt y hy
    · split
      · rename_i hka; subst hka; exact Memory.wf_consCell k v m hm' hlt
      · refine Memory.wf_consCell a v _ hm ?_
        intro x hx
        rcases List.mem_cons.mp hx with rfl | hx
        · simp only; omega
        · have := hlt x hx; omega

/-- A read after a write: the written byte at its address, every other byte as before. -/
theorem Memory.read_write (m : Memory) (a : Nat) (v : Byte) (hm : Memory.wf m = true) (b : Nat) :
    Memory.read (Memory.write m a v) b = if a = b then v else Memory.read m b := by
  induction m with
  | nil => exact Memory.read_consCell a v [] (by simp) b
  | cons c m ih =>
    obtain ⟨k, w⟩ := c
    obtain ⟨hw, hlt, hm'⟩ := (Memory.wf_cons k w m).mp hm
    simp only [Memory.write]
    split
    · rename_i hka
      rw [Memory.read_cons, Memory.read_cons, ih hm']
      by_cases hkb : k = b
      · rw [if_pos hkb, if_pos hkb, if_neg (by omega)]
      · rw [if_neg hkb, if_neg hkb]
    · split
      · rename_i hka
        subst hka
        rw [Memory.read_consCell k v m hlt, Memory.read_cons]
        by_cases hkb : k = b
        · rw [if_pos hkb, if_pos hkb]
        · rw [if_neg hkb, if_neg hkb, if_neg hkb]
      · refine Memory.read_consCell a v _ ?_ b
        intro x hx
        rcases List.mem_cons.mp hx with rfl | hx
        · simp only; omega
        · have := hlt x hx; omega

/-- A write leaves every other byte alone, in every memory. -/
theorem Memory.read_write_ne (m : Memory) (a : Nat) (v : Byte) (b : Nat) (h : a ≠ b) :
    Memory.read (Memory.write m a v) b = Memory.read m b := by
  have hc : ∀ m' : Memory, Memory.read (consCell a v m') b = Memory.read m' b := by
    intro m'
    unfold consCell
    split
    · rfl
    · rw [Memory.read_cons, if_neg h]
  induction m with
  | nil => exact hc []
  | cons c m ih =>
    obtain ⟨k, w⟩ := c
    simp only [Memory.write]
    split
    · rw [Memory.read_cons, Memory.read_cons, ih]
    · split
      · rename_i hka; rw [hc, Memory.read_cons, if_neg (by omega)]
      · exact hc _

/-- Storing a list leaves every byte outside it alone, in every memory. -/
theorem Memory.read_writeList_outside (bs : List Byte) (m : Memory) (a x : Nat) (h : ¬(a ≤ x ∧ x < a + bs.length)) :
    Memory.read (Memory.writeList m a bs) x = Memory.read m x := by
  induction bs generalizing m a with
  | nil => rfl
  | cons b bs ih =>
    simp only [List.length_cons] at h
    rw [Memory.writeList, ih _ _ (by omega), Memory.read_write_ne m a b x (by omega)]

/-- Storing a list keeps the canonical form. -/
theorem Memory.wf_writeList (bs : List Byte) (m : Memory) (a : Nat) (hm : Memory.wf m = true) :
    Memory.wf (Memory.writeList m a bs) = true := by
  induction bs generalizing m a with
  | nil => exact hm
  | cons b bs ih => exact ih _ _ (Memory.wf_write m a b hm)

/-- A read after storing a list. -/
theorem Memory.read_writeList (bs : List Byte) (m : Memory) (a : Nat) (hm : Memory.wf m = true) (x : Nat) :
    Memory.read (Memory.writeList m a bs) x =
      if a ≤ x ∧ x < a + bs.length then bs.getD (x - a) 0 else Memory.read m x := by
  induction bs generalizing m a with
  | nil => simp [Memory.writeList]
  | cons b bs ih =>
    rw [Memory.writeList, ih _ _ (Memory.wf_write m a b hm), Memory.read_write m a b hm]
    simp only [List.length_cons]
    by_cases h : a + 1 ≤ x ∧ x < a + 1 + bs.length
    · rw [if_pos h, if_pos (by omega)]
      obtain ⟨d, rfl⟩ : ∃ d, x = a + 1 + d := ⟨x - (a + 1), by omega⟩
      rw [show a + 1 + d - (a + 1) = d by omega, show a + 1 + d - a = d + 1 by omega, List.getD_cons_succ]
    · rw [if_neg h]
      by_cases hx : a = x
      · subst hx; rw [if_pos rfl, if_pos (by omega), Nat.sub_self, List.getD_cons_zero]
      · rw [if_neg hx, if_neg (by omega)]

/-- Storing two lists one after the other is storing them joined. -/
theorem Memory.writeList_append (bs cs : List Byte) (m : Memory) (a : Nat) :
    Memory.writeList m a (bs ++ cs) = Memory.writeList (Memory.writeList m a bs) (a + bs.length) cs := by
  induction bs generalizing m a with
  | nil => simp [Memory.writeList]
  | cons b bs ih =>
    simp only [List.cons_append, Memory.writeList, List.length_cons, ih]
    rw [show a + 1 + bs.length = a + (bs.length + 1) by omega]

/-- What `storedAt` says holds of a stored list. -/
theorem storedAt_writeList (m : Memory) (a : Nat) (bs : List Byte) (hm : Memory.wf m = true) :
    storedAt m (Memory.writeList m a bs) a bs := by
  refine ⟨fun i hi => ?_, fun x hx => ?_⟩
  · rw [Memory.read_writeList bs m a hm, if_pos (by omega), Nat.add_sub_cancel_left]
  · rw [Memory.read_writeList bs m a hm, if_neg hx]

/-- Filling with free bytes keeps the canonical form. -/
theorem wf_freeFill (d base n i : Nat) (m : Memory) (hm : Memory.wf m = true) : Memory.wf (freeFill d base i n m) = true := by
  induction n generalizing i m with
  | zero => exact hm
  | succ n ih =>
    refine ih _ _ ?_
    split
    · exact Memory.wf_write m _ _ hm
    · exact hm

/-- Filling with free bytes leaves every byte outside the window alone (60_exceptions.md R224). -/
theorem read_freeFill_outside (d base n i : Nat) (m : Memory) (hm : Memory.wf m = true) (x : Nat)
    (hx : ¬(base + i ≤ x ∧ x < base + i + n)) : Memory.read (freeFill d base i n m) x = Memory.read m x := by
  induction n generalizing i m with
  | zero => rfl
  | succ n ih =>
    have hw : Memory.wf (if base + i < Config.addrEnd then Memory.write m (base + i) (Config.freeByte d i) else m) = true := by
      split
      · exact Memory.wf_write m _ _ hm
      · exact hm
    rw [freeFill, ih (i + 1) _ hw (by omega)]
    split
    · rw [Memory.read_write m _ _ hm, if_neg (by omega)]
    · rfl

/-- Inside the window, and inside data memory, a filled byte is free (R224). -/
theorem read_freeFill_inside (d base n i : Nat) (m : Memory) (hm : Memory.wf m = true) (k : Nat) (hk : i ≤ k ∧ k < i + n)
    (hend : base + k < Config.addrEnd) : Memory.read (freeFill d base i n m) (base + k) = Config.freeByte d k := by
  induction n generalizing i m with
  | zero => omega
  | succ n ih =>
    have hw : Memory.wf (if base + i < Config.addrEnd then Memory.write m (base + i) (Config.freeByte d i) else m) = true := by
      split
      · exact Memory.wf_write m _ _ hm
      · exact hm
    rw [freeFill]
    by_cases hik : k = i
    · subst hik
      rw [read_freeFill_outside d base n (k + 1) _ hw _ (by omega), if_pos hend, Memory.read_write m _ _ hm, if_pos rfl]
    · exact ih (i + 1) _ hw (by omega)

/-- Canonical memories that read alike are the same list. -/
theorem Memory.eq_of_read_eq (m m' : Memory) (hm : Memory.wf m = true) (hm' : Memory.wf m' = true)
    (h : ∀ a, Memory.read m a = Memory.read m' a) : m = m' := by
  induction m generalizing m' with
  | nil =>
    cases m' with
    | nil => rfl
    | cons c m' =>
      obtain ⟨k, v⟩ := c
      have := h k
      rw [Memory.read_cons, if_pos rfl] at this
      exact absurd this.symm ((Memory.wf_cons k v m').mp hm').1
  | cons c m ih =>
    obtain ⟨k, v⟩ := c
    obtain ⟨hv, hlt, hwm⟩ := (Memory.wf_cons k v m).mp hm
    cases m' with
    | nil =>
      have := h k
      rw [Memory.read_cons, if_pos rfl] at this
      exact absurd this hv
    | cons c' m' =>
      obtain ⟨k', v'⟩ := c'
      obtain ⟨hv', hlt', hwm'⟩ := (Memory.wf_cons k' v' m').mp hm'
      have hk : k = k' := by
        by_contra hne
        rcases lt_or_gt_of_ne hne with hl | hl
        · have := h k
          rw [Memory.read_cons, if_pos rfl, Memory.read_cons, if_neg (by omega),
            Memory.read_below m' k fun x hx => lt_trans hl (hlt' x hx)] at this
          exact hv this
        · have := h k'
          rw [Memory.read_cons, if_neg (by omega), Memory.read_cons, if_pos rfl,
            Memory.read_below m k' fun x hx => lt_trans hl (hlt x hx)] at this
          exact hv' this.symm
      subst hk
      have hvv : v = v' := by simpa [Memory.read_cons] using h k
      subst hvv
      congr 1
      refine ih m' hwm hwm' fun a => ?_
      by_cases ha : k = a
      · subst ha; rw [Memory.read_below m k hlt, Memory.read_below m' k hlt']
      · simpa [Memory.read_cons, ha] using h a

/-- Every contents of data memory is a canonical list (log 2). -/
theorem memory_represents_every_contents (f : Nat → Byte) (n : Nat) :
    ∃ m : Memory, Memory.wf m = true ∧ ∀ a, Memory.read m a = if a < n then f a else unlistedByte := by
  induction n with
  | zero => exact ⟨[], rfl, fun a => by simp⟩
  | succ n ih =>
    obtain ⟨m, hm, hr⟩ := ih
    refine ⟨Memory.write m n (f n), Memory.wf_write m n (f n) hm, fun a => ?_⟩
    rw [Memory.read_write m n (f n) hm, hr]
    by_cases h : n = a
    · subst h; simp
    · rw [if_neg h]
      by_cases ha : a < n
      · rw [if_pos ha, if_pos (by omega)]
      · rw [if_neg ha, if_neg (by omega)]

/-- Every platform predicate on the addresses of data memory is a list of regions (00_scope.md R7; log 1). -/
theorem memMap_represents_every_predicate (p : Nat → Bool) :
    ∃ mm : List Region, ∀ a < Config.addrEnd, memOK mm a = p a := by
  refine ⟨((List.range Config.addrEnd).filter p).map fun a => ⟨a, 1⟩, fun a ha => ?_⟩
  rw [Bool.eq_iff_iff]
  simp only [memOK, List.any_eq_true, List.mem_map, List.mem_filter, List.mem_range, inRange, Bool.and_eq_true,
    decide_eq_true_eq]
  constructor
  · rintro ⟨r, ⟨b, ⟨_, hpb⟩, rfl⟩, h₁, h₂⟩
    obtain rfl : b = a := by simp only at h₁ h₂; omega
    exact hpb
  · intro hp
    exact ⟨⟨a, 1⟩, ⟨a, ⟨ha, hp⟩, rfl⟩, by simp, by simp⟩

end Sys2Proof.Machine
end

