-- ==== Sys2Proof/Laws/State.lean ====
section
/-! SUPPORT. For each operation that updates the state, what each field holds after it. Later proofs cite these and unfold no record
update. -/

namespace Sys2Proof.Machine

/-! ### `issue` (40_control.md R115) -/

@[simp] theorem issue_cmd (s : State) (v : Word) : (issue s v).cmd = v := rfl
@[simp] theorem issue_busy (s : State) (v : Word) : (issue s v).busy = true := rfl
@[simp] theorem issue_done (s : State) (v : Word) : (issue s v).done = false := rfl
@[simp] theorem issue_err (s : State) (v : Word) : (issue s v).err = false := rfl
@[simp] theorem issue_ovr (s : State) (v : Word) : (issue s v).ovr = s.ovr := rfl
@[simp] theorem issue_errCode (s : State) (v : Word) : (issue s v).errCode = 0 := rfl
@[simp] theorem issue_treeValid (s : State) (v : Word) : (issue s v).treeValid = s.treeValid := rfl
@[simp] theorem issue_codesValid (s : State) (v : Word) : (issue s v).codesValid = s.codesValid := rfl
@[simp] theorem issue_irqEn (s : State) (v : Word) : (issue s v).irqEn = s.irqEn := rfl
@[simp] theorem issue_srcAddr (s : State) (v : Word) : (issue s v).srcAddr = s.srcAddr := rfl
@[simp] theorem issue_srcLen (s : State) (v : Word) : (issue s v).srcLen = s.srcLen := rfl
@[simp] theorem issue_dstAddr (s : State) (v : Word) : (issue s v).dstAddr = s.dstAddr := rfl
@[simp] theorem issue_dstCap (s : State) (v : Word) : (issue s v).dstCap = s.dstCap := rfl
@[simp] theorem issue_outLen (s : State) (v : Word) : (issue s v).outLen = s.outLen := rfl
@[simp] theorem issue_origLen (s : State) (v : Word) : (issue s v).origLen = s.origLen := rfl
@[simp] theorem issue_errAddr (s : State) (v : Word) : (issue s v).errAddr = 0 := rfl
@[simp] theorem issue_bitCnt (s : State) (v : Word) : (issue s v).bitCnt = s.bitCnt := rfl
@[simp] theorem issue_numLeaves (s : State) (v : Word) : (issue s v).numLeaves = s.numLeaves := rfl
@[simp] theorem issue_root (s : State) (v : Word) : (issue s v).root = s.root := rfl
@[simp] theorem issue_nodeCount (s : State) (v : Word) : (issue s v).nodeCount = s.nodeCount := rfl
@[simp] theorem issue_freqIdx (s : State) (v : Word) : (issue s v).freqIdx = s.freqIdx := rfl
@[simp] theorem issue_codeIdx (s : State) (v : Word) : (issue s v).codeIdx = s.codeIdx := rfl
@[simp] theorem issue_codeSel (s : State) (v : Word) : (issue s v).codeSel = s.codeSel := rfl
@[simp] theorem issue_nodeIdx (s : State) (v : Word) : (issue s v).nodeIdx = s.nodeIdx := rfl
@[simp] theorem issue_freq (s : State) (v : Word) : (issue s v).freq = s.freq := rfl
@[simp] theorem issue_node (s : State) (v : Word) : (issue s v).node = s.node := rfl
@[simp] theorem issue_code (s : State) (v : Word) : (issue s v).code = s.code := rfl
@[simp] theorem issue_mem (s : State) (v : Word) : (issue s v).mem = s.mem := rfl
@[simp] theorem issue_memMap (s : State) (v : Word) : (issue s v).memMap = s.memMap := rfl
@[simp] theorem issue_host (s : State) (v : Word) : (issue s v).host = s.host := rfl
@[simp] theorem issue_temps (s : State) (v : Word) : (issue s v).temps = s.temps := rfl
@[simp] theorem issue_bufs (s : State) (v : Word) : (issue s v).bufs = s.bufs := rfl
@[simp] theorem issue_schedule (s : State) (v : Word) : (issue s v).schedule = s.schedule := rfl
@[simp] theorem issue_draws (s : State) (v : Word) : (issue s v).draws = s.draws := rfl

/-! ### `recordDone` (40_control.md R117) -/

@[simp] theorem recordDone_cmd (s : State) (n : Nat) : (recordDone s n).cmd = s.cmd := rfl
@[simp] theorem recordDone_busy (s : State) (n : Nat) : (recordDone s n).busy = false := rfl
@[simp] theorem recordDone_done (s : State) (n : Nat) : (recordDone s n).done = true := rfl
@[simp] theorem recordDone_err (s : State) (n : Nat) : (recordDone s n).err = s.err := rfl
@[simp] theorem recordDone_ovr (s : State) (n : Nat) : (recordDone s n).ovr = s.ovr := rfl
@[simp] theorem recordDone_errCode (s : State) (n : Nat) : (recordDone s n).errCode = s.errCode := rfl
@[simp] theorem recordDone_treeValid (s : State) (n : Nat) : (recordDone s n).treeValid = s.treeValid := rfl
@[simp] theorem recordDone_codesValid (s : State) (n : Nat) : (recordDone s n).codesValid = s.codesValid := rfl
@[simp] theorem recordDone_irqEn (s : State) (n : Nat) : (recordDone s n).irqEn = s.irqEn := rfl
@[simp] theorem recordDone_srcAddr (s : State) (n : Nat) : (recordDone s n).srcAddr = s.srcAddr := rfl
@[simp] theorem recordDone_srcLen (s : State) (n : Nat) : (recordDone s n).srcLen = s.srcLen := rfl
@[simp] theorem recordDone_dstAddr (s : State) (n : Nat) : (recordDone s n).dstAddr = s.dstAddr := rfl
@[simp] theorem recordDone_dstCap (s : State) (n : Nat) : (recordDone s n).dstCap = s.dstCap := rfl
@[simp] theorem recordDone_outLen (s : State) (n : Nat) : (recordDone s n).outLen = BitVec.ofNat 32 n := rfl
@[simp] theorem recordDone_origLen (s : State) (n : Nat) : (recordDone s n).origLen = s.origLen := rfl
@[simp] theorem recordDone_errAddr (s : State) (n : Nat) : (recordDone s n).errAddr = s.errAddr := rfl
@[simp] theorem recordDone_bitCnt (s : State) (n : Nat) : (recordDone s n).bitCnt = s.bitCnt := rfl
@[simp] theorem recordDone_numLeaves (s : State) (n : Nat) : (recordDone s n).numLeaves = s.numLeaves := rfl
@[simp] theorem recordDone_root (s : State) (n : Nat) : (recordDone s n).root = s.root := rfl
@[simp] theorem recordDone_nodeCount (s : State) (n : Nat) : (recordDone s n).nodeCount = s.nodeCount := rfl
@[simp] theorem recordDone_freqIdx (s : State) (n : Nat) : (recordDone s n).freqIdx = s.freqIdx := rfl
@[simp] theorem recordDone_codeIdx (s : State) (n : Nat) : (recordDone s n).codeIdx = s.codeIdx := rfl
@[simp] theorem recordDone_codeSel (s : State) (n : Nat) : (recordDone s n).codeSel = s.codeSel := rfl
@[simp] theorem recordDone_nodeIdx (s : State) (n : Nat) : (recordDone s n).nodeIdx = s.nodeIdx := rfl
@[simp] theorem recordDone_freq (s : State) (n : Nat) : (recordDone s n).freq = s.freq := rfl
@[simp] theorem recordDone_node (s : State) (n : Nat) : (recordDone s n).node = s.node := rfl
@[simp] theorem recordDone_code (s : State) (n : Nat) : (recordDone s n).code = s.code := rfl
@[simp] theorem recordDone_mem (s : State) (n : Nat) : (recordDone s n).mem = s.mem := rfl
@[simp] theorem recordDone_memMap (s : State) (n : Nat) : (recordDone s n).memMap = s.memMap := rfl
@[simp] theorem recordDone_host (s : State) (n : Nat) : (recordDone s n).host = s.host := rfl
@[simp] theorem recordDone_temps (s : State) (n : Nat) : (recordDone s n).temps = s.temps := rfl
@[simp] theorem recordDone_bufs (s : State) (n : Nat) : (recordDone s n).bufs = s.bufs := rfl
@[simp] theorem recordDone_schedule (s : State) (n : Nat) : (recordDone s n).schedule = s.schedule := rfl
@[simp] theorem recordDone_draws (s : State) (n : Nat) : (recordDone s n).draws = s.draws := rfl

/-! ### `recordError` (60_exceptions.md R222) -/

@[simp] theorem recordError_cmd (s : State) (e : ErrCode) (a : Nat) : (recordError s e a).cmd = s.cmd := rfl
@[simp] theorem recordError_busy (s : State) (e : ErrCode) (a : Nat) : (recordError s e a).busy = false := rfl
@[simp] theorem recordError_done (s : State) (e : ErrCode) (a : Nat) : (recordError s e a).done = s.done := rfl
@[simp] theorem recordError_err (s : State) (e : ErrCode) (a : Nat) : (recordError s e a).err = true := rfl
@[simp] theorem recordError_ovr (s : State) (e : ErrCode) (a : Nat) : (recordError s e a).ovr = s.ovr := rfl
@[simp] theorem recordError_errCode (s : State) (e : ErrCode) (a : Nat) : (recordError s e a).errCode = errNumber e := rfl
@[simp] theorem recordError_treeValid (s : State) (e : ErrCode) (a : Nat) : (recordError s e a).treeValid = s.treeValid := rfl
@[simp] theorem recordError_codesValid (s : State) (e : ErrCode) (a : Nat) : (recordError s e a).codesValid = s.codesValid := rfl
@[simp] theorem recordError_irqEn (s : State) (e : ErrCode) (a : Nat) : (recordError s e a).irqEn = s.irqEn := rfl
@[simp] theorem recordError_srcAddr (s : State) (e : ErrCode) (a : Nat) : (recordError s e a).srcAddr = s.srcAddr := rfl
@[simp] theorem recordError_srcLen (s : State) (e : ErrCode) (a : Nat) : (recordError s e a).srcLen = s.srcLen := rfl
@[simp] theorem recordError_dstAddr (s : State) (e : ErrCode) (a : Nat) : (recordError s e a).dstAddr = s.dstAddr := rfl
@[simp] theorem recordError_dstCap (s : State) (e : ErrCode) (a : Nat) : (recordError s e a).dstCap = s.dstCap := rfl
@[simp] theorem recordError_outLen (s : State) (e : ErrCode) (a : Nat) : (recordError s e a).outLen = 0 := rfl
@[simp] theorem recordError_origLen (s : State) (e : ErrCode) (a : Nat) : (recordError s e a).origLen = s.origLen := rfl
@[simp] theorem recordError_errAddr (s : State) (e : ErrCode) (a : Nat) : (recordError s e a).errAddr = BitVec.ofNat 32 a := rfl
@[simp] theorem recordError_bitCnt (s : State) (e : ErrCode) (a : Nat) : (recordError s e a).bitCnt = s.bitCnt := rfl
@[simp] theorem recordError_numLeaves (s : State) (e : ErrCode) (a : Nat) : (recordError s e a).numLeaves = s.numLeaves := rfl
@[simp] theorem recordError_root (s : State) (e : ErrCode) (a : Nat) : (recordError s e a).root = s.root := rfl
@[simp] theorem recordError_nodeCount (s : State) (e : ErrCode) (a : Nat) : (recordError s e a).nodeCount = s.nodeCount := rfl
@[simp] theorem recordError_freqIdx (s : State) (e : ErrCode) (a : Nat) : (recordError s e a).freqIdx = s.freqIdx := rfl
@[simp] theorem recordError_codeIdx (s : State) (e : ErrCode) (a : Nat) : (recordError s e a).codeIdx = s.codeIdx := rfl
@[simp] theorem recordError_codeSel (s : State) (e : ErrCode) (a : Nat) : (recordError s e a).codeSel = s.codeSel := rfl
@[simp] theorem recordError_nodeIdx (s : State) (e : ErrCode) (a : Nat) : (recordError s e a).nodeIdx = s.nodeIdx := rfl
@[simp] theorem recordError_freq (s : State) (e : ErrCode) (a : Nat) : (recordError s e a).freq = s.freq := rfl
@[simp] theorem recordError_node (s : State) (e : ErrCode) (a : Nat) : (recordError s e a).node = s.node := rfl
@[simp] theorem recordError_code (s : State) (e : ErrCode) (a : Nat) : (recordError s e a).code = s.code := rfl
@[simp] theorem recordError_mem (s : State) (e : ErrCode) (a : Nat) : (recordError s e a).mem = s.mem := rfl
@[simp] theorem recordError_memMap (s : State) (e : ErrCode) (a : Nat) : (recordError s e a).memMap = s.memMap := rfl
@[simp] theorem recordError_host (s : State) (e : ErrCode) (a : Nat) : (recordError s e a).host = s.host := rfl
@[simp] theorem recordError_temps (s : State) (e : ErrCode) (a : Nat) : (recordError s e a).temps = s.temps := rfl
@[simp] theorem recordError_bufs (s : State) (e : ErrCode) (a : Nat) : (recordError s e a).bufs = s.bufs := rfl
@[simp] theorem recordError_schedule (s : State) (e : ErrCode) (a : Nat) : (recordError s e a).schedule = s.schedule := rfl
@[simp] theorem recordError_draws (s : State) (e : ErrCode) (a : Nat) : (recordError s e a).draws = s.draws := rfl

/-! ### `clearValid` (10_state.md R32, R33) -/

@[simp] theorem clearValid_cmd (s : State) : (clearValid s).cmd = s.cmd := rfl
@[simp] theorem clearValid_busy (s : State) : (clearValid s).busy = s.busy := rfl
@[simp] theorem clearValid_done (s : State) : (clearValid s).done = s.done := rfl
@[simp] theorem clearValid_err (s : State) : (clearValid s).err = s.err := rfl
@[simp] theorem clearValid_ovr (s : State) : (clearValid s).ovr = s.ovr := rfl
@[simp] theorem clearValid_errCode (s : State) : (clearValid s).errCode = s.errCode := rfl
@[simp] theorem clearValid_treeValid (s : State) : (clearValid s).treeValid = false := rfl
@[simp] theorem clearValid_codesValid (s : State) : (clearValid s).codesValid = false := rfl
@[simp] theorem clearValid_irqEn (s : State) : (clearValid s).irqEn = s.irqEn := rfl
@[simp] theorem clearValid_srcAddr (s : State) : (clearValid s).srcAddr = s.srcAddr := rfl
@[simp] theorem clearValid_srcLen (s : State) : (clearValid s).srcLen = s.srcLen := rfl
@[simp] theorem clearValid_dstAddr (s : State) : (clearValid s).dstAddr = s.dstAddr := rfl
@[simp] theorem clearValid_dstCap (s : State) : (clearValid s).dstCap = s.dstCap := rfl
@[simp] theorem clearValid_outLen (s : State) : (clearValid s).outLen = s.outLen := rfl
@[simp] theorem clearValid_origLen (s : State) : (clearValid s).origLen = s.origLen := rfl
@[simp] theorem clearValid_errAddr (s : State) : (clearValid s).errAddr = s.errAddr := rfl
@[simp] theorem clearValid_bitCnt (s : State) : (clearValid s).bitCnt = s.bitCnt := rfl
@[simp] theorem clearValid_numLeaves (s : State) : (clearValid s).numLeaves = s.numLeaves := rfl
@[simp] theorem clearValid_root (s : State) : (clearValid s).root = s.root := rfl
@[simp] theorem clearValid_nodeCount (s : State) : (clearValid s).nodeCount = s.nodeCount := rfl
@[simp] theorem clearValid_freqIdx (s : State) : (clearValid s).freqIdx = s.freqIdx := rfl
@[simp] theorem clearValid_codeIdx (s : State) : (clearValid s).codeIdx = s.codeIdx := rfl
@[simp] theorem clearValid_codeSel (s : State) : (clearValid s).codeSel = s.codeSel := rfl
@[simp] theorem clearValid_nodeIdx (s : State) : (clearValid s).nodeIdx = s.nodeIdx := rfl
@[simp] theorem clearValid_freq (s : State) : (clearValid s).freq = s.freq := rfl
@[simp] theorem clearValid_node (s : State) : (clearValid s).node = s.node := rfl
@[simp] theorem clearValid_code (s : State) : (clearValid s).code = s.code := rfl
@[simp] theorem clearValid_mem (s : State) : (clearValid s).mem = s.mem := rfl
@[simp] theorem clearValid_memMap (s : State) : (clearValid s).memMap = s.memMap := rfl
@[simp] theorem clearValid_host (s : State) : (clearValid s).host = s.host := rfl
@[simp] theorem clearValid_temps (s : State) : (clearValid s).temps = s.temps := rfl
@[simp] theorem clearValid_bufs (s : State) : (clearValid s).bufs = s.bufs := rfl
@[simp] theorem clearValid_schedule (s : State) : (clearValid s).schedule = s.schedule := rfl
@[simp] theorem clearValid_draws (s : State) : (clearValid s).draws = s.draws := rfl

/-! ### `installTree` (42_tree_builder.md R148) -/

@[simp] theorem installTree_cmd (s : State) (t : Tree) : (installTree s t).cmd = s.cmd := rfl
@[simp] theorem installTree_busy (s : State) (t : Tree) : (installTree s t).busy = s.busy := rfl
@[simp] theorem installTree_done (s : State) (t : Tree) : (installTree s t).done = s.done := rfl
@[simp] theorem installTree_err (s : State) (t : Tree) : (installTree s t).err = s.err := rfl
@[simp] theorem installTree_ovr (s : State) (t : Tree) : (installTree s t).ovr = s.ovr := rfl
@[simp] theorem installTree_errCode (s : State) (t : Tree) : (installTree s t).errCode = s.errCode := rfl
@[simp] theorem installTree_treeValid (s : State) (t : Tree) : (installTree s t).treeValid = true := rfl
@[simp] theorem installTree_codesValid (s : State) (t : Tree) : (installTree s t).codesValid = false := rfl
@[simp] theorem installTree_irqEn (s : State) (t : Tree) : (installTree s t).irqEn = s.irqEn := rfl
@[simp] theorem installTree_srcAddr (s : State) (t : Tree) : (installTree s t).srcAddr = s.srcAddr := rfl
@[simp] theorem installTree_srcLen (s : State) (t : Tree) : (installTree s t).srcLen = s.srcLen := rfl
@[simp] theorem installTree_dstAddr (s : State) (t : Tree) : (installTree s t).dstAddr = s.dstAddr := rfl
@[simp] theorem installTree_dstCap (s : State) (t : Tree) : (installTree s t).dstCap = s.dstCap := rfl
@[simp] theorem installTree_outLen (s : State) (t : Tree) : (installTree s t).outLen = s.outLen := rfl
@[simp] theorem installTree_origLen (s : State) (t : Tree) : (installTree s t).origLen = s.origLen := rfl
@[simp] theorem installTree_errAddr (s : State) (t : Tree) : (installTree s t).errAddr = s.errAddr := rfl
@[simp] theorem installTree_bitCnt (s : State) (t : Tree) : (installTree s t).bitCnt = s.bitCnt := rfl
@[simp] theorem installTree_numLeaves (s : State) (t : Tree) : (installTree s t).numLeaves = t.numLeaves := rfl
@[simp] theorem installTree_root (s : State) (t : Tree) : (installTree s t).root = t.root := rfl
@[simp] theorem installTree_nodeCount (s : State) (t : Tree) : (installTree s t).nodeCount = t.nodeCount := rfl
@[simp] theorem installTree_freqIdx (s : State) (t : Tree) : (installTree s t).freqIdx = s.freqIdx := rfl
@[simp] theorem installTree_codeIdx (s : State) (t : Tree) : (installTree s t).codeIdx = s.codeIdx := rfl
@[simp] theorem installTree_codeSel (s : State) (t : Tree) : (installTree s t).codeSel = s.codeSel := rfl
@[simp] theorem installTree_nodeIdx (s : State) (t : Tree) : (installTree s t).nodeIdx = s.nodeIdx := rfl
@[simp] theorem installTree_freq (s : State) (t : Tree) : (installTree s t).freq = s.freq := rfl
@[simp] theorem installTree_node (s : State) (t : Tree) : (installTree s t).node = t.node := rfl
@[simp] theorem installTree_code (s : State) (t : Tree) : (installTree s t).code = s.code := rfl
@[simp] theorem installTree_mem (s : State) (t : Tree) : (installTree s t).mem = s.mem := rfl
@[simp] theorem installTree_memMap (s : State) (t : Tree) : (installTree s t).memMap = s.memMap := rfl
@[simp] theorem installTree_host (s : State) (t : Tree) : (installTree s t).host = s.host := rfl
@[simp] theorem installTree_temps (s : State) (t : Tree) : (installTree s t).temps = s.temps := rfl
@[simp] theorem installTree_bufs (s : State) (t : Tree) : (installTree s t).bufs = s.bufs := rfl
@[simp] theorem installTree_schedule (s : State) (t : Tree) : (installTree s t).schedule = s.schedule := rfl
@[simp] theorem installTree_draws (s : State) (t : Tree) : (installTree s t).draws = s.draws := rfl

/-! ### `clearTables` (40_control.md R121) -/

@[simp] theorem clearTables_cmd (s : State) : (clearTables s).cmd = s.cmd := rfl
@[simp] theorem clearTables_busy (s : State) : (clearTables s).busy = s.busy := rfl
@[simp] theorem clearTables_done (s : State) : (clearTables s).done = s.done := rfl
@[simp] theorem clearTables_err (s : State) : (clearTables s).err = s.err := rfl
@[simp] theorem clearTables_ovr (s : State) : (clearTables s).ovr = s.ovr := rfl
@[simp] theorem clearTables_errCode (s : State) : (clearTables s).errCode = s.errCode := rfl
@[simp] theorem clearTables_treeValid (s : State) : (clearTables s).treeValid = false := rfl
@[simp] theorem clearTables_codesValid (s : State) : (clearTables s).codesValid = false := rfl
@[simp] theorem clearTables_irqEn (s : State) : (clearTables s).irqEn = s.irqEn := rfl
@[simp] theorem clearTables_srcAddr (s : State) : (clearTables s).srcAddr = s.srcAddr := rfl
@[simp] theorem clearTables_srcLen (s : State) : (clearTables s).srcLen = s.srcLen := rfl
@[simp] theorem clearTables_dstAddr (s : State) : (clearTables s).dstAddr = s.dstAddr := rfl
@[simp] theorem clearTables_dstCap (s : State) : (clearTables s).dstCap = s.dstCap := rfl
@[simp] theorem clearTables_outLen (s : State) : (clearTables s).outLen = s.outLen := rfl
@[simp] theorem clearTables_origLen (s : State) : (clearTables s).origLen = 0 := rfl
@[simp] theorem clearTables_errAddr (s : State) : (clearTables s).errAddr = s.errAddr := rfl
@[simp] theorem clearTables_bitCnt (s : State) : (clearTables s).bitCnt = 0 := rfl
@[simp] theorem clearTables_numLeaves (s : State) : (clearTables s).numLeaves = 0 := rfl
@[simp] theorem clearTables_root (s : State) : (clearTables s).root = 0 := rfl
@[simp] theorem clearTables_nodeCount (s : State) : (clearTables s).nodeCount = 0 := rfl
@[simp] theorem clearTables_freqIdx (s : State) : (clearTables s).freqIdx = s.freqIdx := rfl
@[simp] theorem clearTables_codeIdx (s : State) : (clearTables s).codeIdx = s.codeIdx := rfl
@[simp] theorem clearTables_codeSel (s : State) : (clearTables s).codeSel = s.codeSel := rfl
@[simp] theorem clearTables_nodeIdx (s : State) : (clearTables s).nodeIdx = s.nodeIdx := rfl
@[simp] theorem clearTables_freq (s : State) : (clearTables s).freq = zeroFreq := rfl
@[simp] theorem clearTables_node (s : State) : (clearTables s).node = emptyArena := rfl
@[simp] theorem clearTables_code (s : State) : (clearTables s).code = emptyCodes := rfl
@[simp] theorem clearTables_mem (s : State) : (clearTables s).mem = s.mem := rfl
@[simp] theorem clearTables_memMap (s : State) : (clearTables s).memMap = s.memMap := rfl
@[simp] theorem clearTables_host (s : State) : (clearTables s).host = s.host := rfl
@[simp] theorem clearTables_temps (s : State) : (clearTables s).temps = s.temps := rfl
@[simp] theorem clearTables_bufs (s : State) : (clearTables s).bufs = s.bufs := rfl
@[simp] theorem clearTables_schedule (s : State) : (clearTables s).schedule = s.schedule := rfl
@[simp] theorem clearTables_draws (s : State) : (clearTables s).draws = s.draws := rfl

/-! ### `writeStatus` (10_state.md R26) -/

@[simp] theorem writeStatus_cmd (s : State) (v : Word) : (writeStatus s v).cmd = s.cmd := rfl
@[simp] theorem writeStatus_busy (s : State) (v : Word) : (writeStatus s v).busy = s.busy := rfl
@[simp] theorem writeStatus_done (s : State) (v : Word) : (writeStatus s v).done = (s.done && !v.getLsbD 1) := rfl
@[simp] theorem writeStatus_err (s : State) (v : Word) : (writeStatus s v).err = (s.err && !v.getLsbD 2) := rfl
@[simp] theorem writeStatus_ovr (s : State) (v : Word) : (writeStatus s v).ovr = (s.ovr && !v.getLsbD 3) := rfl
@[simp] theorem writeStatus_errCode (s : State) (v : Word) : (writeStatus s v).errCode = s.errCode := rfl
@[simp] theorem writeStatus_treeValid (s : State) (v : Word) : (writeStatus s v).treeValid = s.treeValid := rfl
@[simp] theorem writeStatus_codesValid (s : State) (v : Word) : (writeStatus s v).codesValid = s.codesValid := rfl
@[simp] theorem writeStatus_irqEn (s : State) (v : Word) : (writeStatus s v).irqEn = s.irqEn := rfl
@[simp] theorem writeStatus_srcAddr (s : State) (v : Word) : (writeStatus s v).srcAddr = s.srcAddr := rfl
@[simp] theorem writeStatus_srcLen (s : State) (v : Word) : (writeStatus s v).srcLen = s.srcLen := rfl
@[simp] theorem writeStatus_dstAddr (s : State) (v : Word) : (writeStatus s v).dstAddr = s.dstAddr := rfl
@[simp] theorem writeStatus_dstCap (s : State) (v : Word) : (writeStatus s v).dstCap = s.dstCap := rfl
@[simp] theorem writeStatus_outLen (s : State) (v : Word) : (writeStatus s v).outLen = s.outLen := rfl
@[simp] theorem writeStatus_origLen (s : State) (v : Word) : (writeStatus s v).origLen = s.origLen := rfl
@[simp] theorem writeStatus_errAddr (s : State) (v : Word) : (writeStatus s v).errAddr = s.errAddr := rfl
@[simp] theorem writeStatus_bitCnt (s : State) (v : Word) : (writeStatus s v).bitCnt = s.bitCnt := rfl
@[simp] theorem writeStatus_numLeaves (s : State) (v : Word) : (writeStatus s v).numLeaves = s.numLeaves := rfl
@[simp] theorem writeStatus_root (s : State) (v : Word) : (writeStatus s v).root = s.root := rfl
@[simp] theorem writeStatus_nodeCount (s : State) (v : Word) : (writeStatus s v).nodeCount = s.nodeCount := rfl
@[simp] theorem writeStatus_freqIdx (s : State) (v : Word) : (writeStatus s v).freqIdx = s.freqIdx := rfl
@[simp] theorem writeStatus_codeIdx (s : State) (v : Word) : (writeStatus s v).codeIdx = s.codeIdx := rfl
@[simp] theorem writeStatus_codeSel (s : State) (v : Word) : (writeStatus s v).codeSel = s.codeSel := rfl
@[simp] theorem writeStatus_nodeIdx (s : State) (v : Word) : (writeStatus s v).nodeIdx = s.nodeIdx := rfl
@[simp] theorem writeStatus_freq (s : State) (v : Word) : (writeStatus s v).freq = s.freq := rfl
@[simp] theorem writeStatus_node (s : State) (v : Word) : (writeStatus s v).node = s.node := rfl
@[simp] theorem writeStatus_code (s : State) (v : Word) : (writeStatus s v).code = s.code := rfl
@[simp] theorem writeStatus_mem (s : State) (v : Word) : (writeStatus s v).mem = s.mem := rfl
@[simp] theorem writeStatus_memMap (s : State) (v : Word) : (writeStatus s v).memMap = s.memMap := rfl
@[simp] theorem writeStatus_host (s : State) (v : Word) : (writeStatus s v).host = s.host := rfl
@[simp] theorem writeStatus_temps (s : State) (v : Word) : (writeStatus s v).temps = s.temps := rfl
@[simp] theorem writeStatus_bufs (s : State) (v : Word) : (writeStatus s v).bufs = s.bufs := rfl
@[simp] theorem writeStatus_schedule (s : State) (v : Word) : (writeStatus s v).schedule = s.schedule := rfl
@[simp] theorem writeStatus_draws (s : State) (v : Word) : (writeStatus s v).draws = s.draws := rfl

/-! ### `setTemp` (30_encoding.md R100) -/

@[simp] theorem setTemp_cmd (s : State) (t : Nat) (v : Word) : (setTemp s t v).cmd = s.cmd := rfl
@[simp] theorem setTemp_busy (s : State) (t : Nat) (v : Word) : (setTemp s t v).busy = s.busy := rfl
@[simp] theorem setTemp_done (s : State) (t : Nat) (v : Word) : (setTemp s t v).done = s.done := rfl
@[simp] theorem setTemp_err (s : State) (t : Nat) (v : Word) : (setTemp s t v).err = s.err := rfl
@[simp] theorem setTemp_ovr (s : State) (t : Nat) (v : Word) : (setTemp s t v).ovr = s.ovr := rfl
@[simp] theorem setTemp_errCode (s : State) (t : Nat) (v : Word) : (setTemp s t v).errCode = s.errCode := rfl
@[simp] theorem setTemp_treeValid (s : State) (t : Nat) (v : Word) : (setTemp s t v).treeValid = s.treeValid := rfl
@[simp] theorem setTemp_codesValid (s : State) (t : Nat) (v : Word) : (setTemp s t v).codesValid = s.codesValid := rfl
@[simp] theorem setTemp_irqEn (s : State) (t : Nat) (v : Word) : (setTemp s t v).irqEn = s.irqEn := rfl
@[simp] theorem setTemp_srcAddr (s : State) (t : Nat) (v : Word) : (setTemp s t v).srcAddr = s.srcAddr := rfl
@[simp] theorem setTemp_srcLen (s : State) (t : Nat) (v : Word) : (setTemp s t v).srcLen = s.srcLen := rfl
@[simp] theorem setTemp_dstAddr (s : State) (t : Nat) (v : Word) : (setTemp s t v).dstAddr = s.dstAddr := rfl
@[simp] theorem setTemp_dstCap (s : State) (t : Nat) (v : Word) : (setTemp s t v).dstCap = s.dstCap := rfl
@[simp] theorem setTemp_outLen (s : State) (t : Nat) (v : Word) : (setTemp s t v).outLen = s.outLen := rfl
@[simp] theorem setTemp_origLen (s : State) (t : Nat) (v : Word) : (setTemp s t v).origLen = s.origLen := rfl
@[simp] theorem setTemp_errAddr (s : State) (t : Nat) (v : Word) : (setTemp s t v).errAddr = s.errAddr := rfl
@[simp] theorem setTemp_bitCnt (s : State) (t : Nat) (v : Word) : (setTemp s t v).bitCnt = s.bitCnt := rfl
@[simp] theorem setTemp_numLeaves (s : State) (t : Nat) (v : Word) : (setTemp s t v).numLeaves = s.numLeaves := rfl
@[simp] theorem setTemp_root (s : State) (t : Nat) (v : Word) : (setTemp s t v).root = s.root := rfl
@[simp] theorem setTemp_nodeCount (s : State) (t : Nat) (v : Word) : (setTemp s t v).nodeCount = s.nodeCount := rfl
@[simp] theorem setTemp_freqIdx (s : State) (t : Nat) (v : Word) : (setTemp s t v).freqIdx = s.freqIdx := rfl
@[simp] theorem setTemp_codeIdx (s : State) (t : Nat) (v : Word) : (setTemp s t v).codeIdx = s.codeIdx := rfl
@[simp] theorem setTemp_codeSel (s : State) (t : Nat) (v : Word) : (setTemp s t v).codeSel = s.codeSel := rfl
@[simp] theorem setTemp_nodeIdx (s : State) (t : Nat) (v : Word) : (setTemp s t v).nodeIdx = s.nodeIdx := rfl
@[simp] theorem setTemp_freq (s : State) (t : Nat) (v : Word) : (setTemp s t v).freq = s.freq := rfl
@[simp] theorem setTemp_node (s : State) (t : Nat) (v : Word) : (setTemp s t v).node = s.node := rfl
@[simp] theorem setTemp_code (s : State) (t : Nat) (v : Word) : (setTemp s t v).code = s.code := rfl
@[simp] theorem setTemp_mem (s : State) (t : Nat) (v : Word) : (setTemp s t v).mem = s.mem := rfl
@[simp] theorem setTemp_memMap (s : State) (t : Nat) (v : Word) : (setTemp s t v).memMap = s.memMap := rfl
@[simp] theorem setTemp_host (s : State) (t : Nat) (v : Word) : (setTemp s t v).host = s.host := rfl
@[simp] theorem setTemp_temps (s : State) (t : Nat) (v : Word) : (setTemp s t v).temps = (t, v) :: s.temps.filter fun x => x.1 != t := rfl
@[simp] theorem setTemp_bufs (s : State) (t : Nat) (v : Word) : (setTemp s t v).bufs = s.bufs := rfl
@[simp] theorem setTemp_schedule (s : State) (t : Nat) (v : Word) : (setTemp s t v).schedule = s.schedule := rfl
@[simp] theorem setTemp_draws (s : State) (t : Nat) (v : Word) : (setTemp s t v).draws = s.draws := rfl

/-! ### `setBuf` (30_encoding.md R100) -/

@[simp] theorem setBuf_cmd (s : State) (name : String) (bs : List Byte) : (setBuf s name bs).cmd = s.cmd := rfl
@[simp] theorem setBuf_busy (s : State) (name : String) (bs : List Byte) : (setBuf s name bs).busy = s.busy := rfl
@[simp] theorem setBuf_done (s : State) (name : String) (bs : List Byte) : (setBuf s name bs).done = s.done := rfl
@[simp] theorem setBuf_err (s : State) (name : String) (bs : List Byte) : (setBuf s name bs).err = s.err := rfl
@[simp] theorem setBuf_ovr (s : State) (name : String) (bs : List Byte) : (setBuf s name bs).ovr = s.ovr := rfl
@[simp] theorem setBuf_errCode (s : State) (name : String) (bs : List Byte) : (setBuf s name bs).errCode = s.errCode := rfl
@[simp] theorem setBuf_treeValid (s : State) (name : String) (bs : List Byte) : (setBuf s name bs).treeValid = s.treeValid := rfl
@[simp] theorem setBuf_codesValid (s : State) (name : String) (bs : List Byte) : (setBuf s name bs).codesValid = s.codesValid := rfl
@[simp] theorem setBuf_irqEn (s : State) (name : String) (bs : List Byte) : (setBuf s name bs).irqEn = s.irqEn := rfl
@[simp] theorem setBuf_srcAddr (s : State) (name : String) (bs : List Byte) : (setBuf s name bs).srcAddr = s.srcAddr := rfl
@[simp] theorem setBuf_srcLen (s : State) (name : String) (bs : List Byte) : (setBuf s name bs).srcLen = s.srcLen := rfl
@[simp] theorem setBuf_dstAddr (s : State) (name : String) (bs : List Byte) : (setBuf s name bs).dstAddr = s.dstAddr := rfl
@[simp] theorem setBuf_dstCap (s : State) (name : String) (bs : List Byte) : (setBuf s name bs).dstCap = s.dstCap := rfl
@[simp] theorem setBuf_outLen (s : State) (name : String) (bs : List Byte) : (setBuf s name bs).outLen = s.outLen := rfl
@[simp] theorem setBuf_origLen (s : State) (name : String) (bs : List Byte) : (setBuf s name bs).origLen = s.origLen := rfl
@[simp] theorem setBuf_errAddr (s : State) (name : String) (bs : List Byte) : (setBuf s name bs).errAddr = s.errAddr := rfl
@[simp] theorem setBuf_bitCnt (s : State) (name : String) (bs : List Byte) : (setBuf s name bs).bitCnt = s.bitCnt := rfl
@[simp] theorem setBuf_numLeaves (s : State) (name : String) (bs : List Byte) : (setBuf s name bs).numLeaves = s.numLeaves := rfl
@[simp] theorem setBuf_root (s : State) (name : String) (bs : List Byte) : (setBuf s name bs).root = s.root := rfl
@[simp] theorem setBuf_nodeCount (s : State) (name : String) (bs : List Byte) : (setBuf s name bs).nodeCount = s.nodeCount := rfl
@[simp] theorem setBuf_freqIdx (s : State) (name : String) (bs : List Byte) : (setBuf s name bs).freqIdx = s.freqIdx := rfl
@[simp] theorem setBuf_codeIdx (s : State) (name : String) (bs : List Byte) : (setBuf s name bs).codeIdx = s.codeIdx := rfl
@[simp] theorem setBuf_codeSel (s : State) (name : String) (bs : List Byte) : (setBuf s name bs).codeSel = s.codeSel := rfl
@[simp] theorem setBuf_nodeIdx (s : State) (name : String) (bs : List Byte) : (setBuf s name bs).nodeIdx = s.nodeIdx := rfl
@[simp] theorem setBuf_freq (s : State) (name : String) (bs : List Byte) : (setBuf s name bs).freq = s.freq := rfl
@[simp] theorem setBuf_node (s : State) (name : String) (bs : List Byte) : (setBuf s name bs).node = s.node := rfl
@[simp] theorem setBuf_code (s : State) (name : String) (bs : List Byte) : (setBuf s name bs).code = s.code := rfl
@[simp] theorem setBuf_mem (s : State) (name : String) (bs : List Byte) : (setBuf s name bs).mem = s.mem := rfl
@[simp] theorem setBuf_memMap (s : State) (name : String) (bs : List Byte) : (setBuf s name bs).memMap = s.memMap := rfl
@[simp] theorem setBuf_host (s : State) (name : String) (bs : List Byte) : (setBuf s name bs).host = s.host := rfl
@[simp] theorem setBuf_temps (s : State) (name : String) (bs : List Byte) : (setBuf s name bs).temps = s.temps := rfl
@[simp] theorem setBuf_bufs (s : State) (name : String) (bs : List Byte) : (setBuf s name bs).bufs = (name, bs) :: s.bufs.filter fun x => x.1 != name := rfl
@[simp] theorem setBuf_schedule (s : State) (name : String) (bs : List Byte) : (setBuf s name bs).schedule = s.schedule := rfl
@[simp] theorem setBuf_draws (s : State) (name : String) (bs : List Byte) : (setBuf s name bs).draws = s.draws := rfl

/-! ### `havoc` (60_exceptions.md R224) -/

@[simp] theorem havoc_cmd (w : WriteSet) (s : State) : (havoc w s).cmd = s.cmd := rfl
@[simp] theorem havoc_busy (w : WriteSet) (s : State) : (havoc w s).busy = s.busy := rfl
@[simp] theorem havoc_done (w : WriteSet) (s : State) : (havoc w s).done = s.done := rfl
@[simp] theorem havoc_err (w : WriteSet) (s : State) : (havoc w s).err = s.err := rfl
@[simp] theorem havoc_ovr (w : WriteSet) (s : State) : (havoc w s).ovr = s.ovr := rfl
@[simp] theorem havoc_errCode (w : WriteSet) (s : State) : (havoc w s).errCode = s.errCode := rfl
@[simp] theorem havoc_treeValid (w : WriteSet) (s : State) : (havoc w s).treeValid = (s.treeValid && !w.treeFlag) := rfl
@[simp] theorem havoc_codesValid (w : WriteSet) (s : State) : (havoc w s).codesValid = (s.codesValid && !w.codesFlag) := rfl
@[simp] theorem havoc_irqEn (w : WriteSet) (s : State) : (havoc w s).irqEn = s.irqEn := rfl
@[simp] theorem havoc_srcAddr (w : WriteSet) (s : State) : (havoc w s).srcAddr = s.srcAddr := rfl
@[simp] theorem havoc_srcLen (w : WriteSet) (s : State) : (havoc w s).srcLen = s.srcLen := rfl
@[simp] theorem havoc_dstAddr (w : WriteSet) (s : State) : (havoc w s).dstAddr = s.dstAddr := rfl
@[simp] theorem havoc_dstCap (w : WriteSet) (s : State) : (havoc w s).dstCap = s.dstCap := rfl
@[simp] theorem havoc_outLen (w : WriteSet) (s : State) : (havoc w s).outLen = s.outLen := rfl
@[simp] theorem havoc_origLen (w : WriteSet) (s : State) : (havoc w s).origLen = if w.origLen then Config.freeOrigLen s.draws else s.origLen := rfl
@[simp] theorem havoc_errAddr (w : WriteSet) (s : State) : (havoc w s).errAddr = s.errAddr := rfl
@[simp] theorem havoc_bitCnt (w : WriteSet) (s : State) : (havoc w s).bitCnt = if w.bitCnt then Config.freeBitCnt s.draws else s.bitCnt := rfl
@[simp] theorem havoc_numLeaves (w : WriteSet) (s : State) : (havoc w s).numLeaves = if w.tree then Config.freeNumLeaves s.draws else s.numLeaves := rfl
@[simp] theorem havoc_root (w : WriteSet) (s : State) : (havoc w s).root = if w.tree then Config.freeRoot s.draws else s.root := rfl
@[simp] theorem havoc_nodeCount (w : WriteSet) (s : State) : (havoc w s).nodeCount = if w.tree then Config.freeNodeCount s.draws else s.nodeCount := rfl
@[simp] theorem havoc_freqIdx (w : WriteSet) (s : State) : (havoc w s).freqIdx = s.freqIdx := rfl
@[simp] theorem havoc_codeIdx (w : WriteSet) (s : State) : (havoc w s).codeIdx = s.codeIdx := rfl
@[simp] theorem havoc_codeSel (w : WriteSet) (s : State) : (havoc w s).codeSel = s.codeSel := rfl
@[simp] theorem havoc_nodeIdx (w : WriteSet) (s : State) : (havoc w s).nodeIdx = s.nodeIdx := rfl
@[simp] theorem havoc_freq (w : WriteSet) (s : State) : (havoc w s).freq = if w.freq then Vector.ofFn fun i => Config.freeFreq s.draws i.val else s.freq := rfl
@[simp] theorem havoc_node (w : WriteSet) (s : State) : (havoc w s).node = if w.tree then Vector.ofFn fun i => Config.freeNode s.draws i.val else s.node := rfl
@[simp] theorem havoc_code (w : WriteSet) (s : State) : (havoc w s).code = if w.code then Vector.ofFn fun i => freeCodeEntry s.draws i.val else s.code := rfl
@[simp] theorem havoc_mem (w : WriteSet) (s : State) : (havoc w s).mem = if w.dst then freeFill s.draws s.dstAddr.toNat 0 s.dstCap.toNat s.mem else s.mem := rfl
@[simp] theorem havoc_memMap (w : WriteSet) (s : State) : (havoc w s).memMap = s.memMap := rfl
@[simp] theorem havoc_host (w : WriteSet) (s : State) : (havoc w s).host = s.host := rfl
@[simp] theorem havoc_temps (w : WriteSet) (s : State) : (havoc w s).temps = s.temps := rfl
@[simp] theorem havoc_bufs (w : WriteSet) (s : State) : (havoc w s).bufs = s.bufs := rfl
@[simp] theorem havoc_schedule (w : WriteSet) (s : State) : (havoc w s).schedule = s.schedule := rfl
@[simp] theorem havoc_draws (w : WriteSet) (s : State) : (havoc w s).draws = s.draws + 1 := rfl

/-! ### `resetEvent` (70_reset_and_hazards.md R250, R251) -/

@[simp] theorem resetEvent_cmd (s : State) : (resetEvent s).cmd = 0 := rfl
@[simp] theorem resetEvent_busy (s : State) : (resetEvent s).busy = false := rfl
@[simp] theorem resetEvent_done (s : State) : (resetEvent s).done = false := rfl
@[simp] theorem resetEvent_err (s : State) : (resetEvent s).err = false := rfl
@[simp] theorem resetEvent_ovr (s : State) : (resetEvent s).ovr = false := rfl
@[simp] theorem resetEvent_errCode (s : State) : (resetEvent s).errCode = 0 := rfl
@[simp] theorem resetEvent_treeValid (s : State) : (resetEvent s).treeValid = false := rfl
@[simp] theorem resetEvent_codesValid (s : State) : (resetEvent s).codesValid = false := rfl
@[simp] theorem resetEvent_irqEn (s : State) : (resetEvent s).irqEn = 0 := rfl
@[simp] theorem resetEvent_srcAddr (s : State) : (resetEvent s).srcAddr = 0 := rfl
@[simp] theorem resetEvent_srcLen (s : State) : (resetEvent s).srcLen = 0 := rfl
@[simp] theorem resetEvent_dstAddr (s : State) : (resetEvent s).dstAddr = 0 := rfl
@[simp] theorem resetEvent_dstCap (s : State) : (resetEvent s).dstCap = 0 := rfl
@[simp] theorem resetEvent_outLen (s : State) : (resetEvent s).outLen = 0 := rfl
@[simp] theorem resetEvent_origLen (s : State) : (resetEvent s).origLen = 0 := rfl
@[simp] theorem resetEvent_errAddr (s : State) : (resetEvent s).errAddr = 0 := rfl
@[simp] theorem resetEvent_bitCnt (s : State) : (resetEvent s).bitCnt = 0 := rfl
@[simp] theorem resetEvent_numLeaves (s : State) : (resetEvent s).numLeaves = 0 := rfl
@[simp] theorem resetEvent_root (s : State) : (resetEvent s).root = 0 := rfl
@[simp] theorem resetEvent_nodeCount (s : State) : (resetEvent s).nodeCount = 0 := rfl
@[simp] theorem resetEvent_freqIdx (s : State) : (resetEvent s).freqIdx = 0 := rfl
@[simp] theorem resetEvent_codeIdx (s : State) : (resetEvent s).codeIdx = 0 := rfl
@[simp] theorem resetEvent_codeSel (s : State) : (resetEvent s).codeSel = 0 := rfl
@[simp] theorem resetEvent_nodeIdx (s : State) : (resetEvent s).nodeIdx = 0 := rfl
@[simp] theorem resetEvent_freq (s : State) : (resetEvent s).freq = zeroFreq := rfl
@[simp] theorem resetEvent_node (s : State) : (resetEvent s).node = emptyArena := rfl
@[simp] theorem resetEvent_code (s : State) : (resetEvent s).code = emptyCodes := rfl
@[simp] theorem resetEvent_mem (s : State) : (resetEvent s).mem = if s.busy && wordWritesDst s.cmd then freeFill s.draws s.dstAddr.toNat 0 s.dstCap.toNat s.mem else s.mem := rfl
@[simp] theorem resetEvent_memMap (s : State) : (resetEvent s).memMap = s.memMap := rfl
@[simp] theorem resetEvent_host (s : State) : (resetEvent s).host = s.host := rfl
@[simp] theorem resetEvent_temps (s : State) : (resetEvent s).temps = s.temps := rfl
@[simp] theorem resetEvent_bufs (s : State) : (resetEvent s).bufs = s.bufs := rfl
@[simp] theorem resetEvent_schedule (s : State) : (resetEvent s).schedule = s.schedule := rfl
@[simp] theorem resetEvent_draws (s : State) : (resetEvent s).draws = s.draws + 1 := rfl

end Sys2Proof.Machine
end

