-- ==== Sys2Proof/Laws/Ops.lean ====
section
/-! SUPPORT. One lemma for each shared operation that says all it can do: the DMA accesses, the byte runs, the window checks, the
tables, and how a command completes. -/

namespace Sys2Proof.Machine

/-! ### Runs -/

@[simp] theorem run_bind_ok {α β : Type} (a : α) (f : α → Run β) : ((.ok a : Run α) >>= f) = f a := rfl

@[simp] theorem run_bind_error {α β : Type} (e : Stop) (f : α → Run β) : ((.error e : Run α) >>= f) = .error e := rfl

/-- A run of two parts answers a value where both do. -/
theorem run_bind_eq_ok {α β : Type} (x : Run α) (f : α → Run β) (b : β) :
    (x >>= f) = .ok b ↔ ∃ a, x = .ok a ∧ f a = .ok b := by
  cases x <;> simp

/-- A run of two parts ends early where the first does, or where the second does. -/
theorem run_bind_eq_error {α β : Type} (x : Run α) (f : α → Run β) (e : Stop) :
    (x >>= f) = .error e ↔ x = .error e ∨ ∃ a, x = .ok a ∧ f a = .error e := by
  cases x <;> simp

@[simp] theorem raiseIf_true (e : Stop) : raiseIf true e = .error e := rfl

@[simp] theorem raiseIf_false (e : Stop) : raiseIf false e = .ok () := rfl

theorem raiseIf_eq_ok (c : Bool) (e : Stop) : raiseIf c e = .ok () ↔ c = false := by
  cases c <;> simp

/-! ### Window checks (20_memory.md R72, R73) -/

theorem checkSrcRange_ok (s : State) (h : srcInRange s) : checkSrcRange s = .ok () := by
  rw [checkSrcRange, if_neg (by omega)]

theorem checkSrcRange_error (s : State) (h : ¬srcInRange s) : checkSrcRange s = .error (.pre .range s.srcAddr.toNat) := by
  rw [checkSrcRange, if_pos (by omega)]

theorem checkDstRange_ok (s : State) (h : dstInRange s) : checkDstRange s = .ok () := by
  rw [checkDstRange, if_neg (by omega)]

theorem checkDstRange_error (s : State) (h : ¬dstInRange s) : checkDstRange s = .error (.pre .range s.dstAddr.toNat) := by
  rw [checkDstRange, if_pos (by omega)]

theorem checkOverlap_ok (s : State) (h : windowsOverlap s = false) : checkOverlap s = .ok () := by
  simp [checkOverlap, h]

theorem checkOverlap_error (s : State) (h : windowsOverlap s = true) : checkOverlap s = .error (.pre .overlap 0) := by
  simp [checkOverlap, h]

theorem checkWindows_ok (s : State) (h : windowsOk s) : checkWindows s = .ok () := by
  simp [checkWindows, checkSrcRange_ok s h.1, checkDstRange_ok s h.2.1, checkOverlap_ok s h.2.2]

/-- The windows meet only where both hold a byte in common. -/
theorem windows_disjoint (s : State) (h : windowsOverlap s = false) (a : Nat) : ¬(inSrc s a = true ∧ inDst s a = true) := by
  rintro ⟨h₁, h₂⟩
  simp only [inSrc, inDst, inRange, Bool.and_eq_true, decide_eq_true_eq] at h₁ h₂
  simp only [windowsOverlap, rangesMeet, Bool.and_eq_false_iff, decide_eq_false_iff_not] at h
  omega

/-- Where the window checks pass, no source byte lies in the destination window. -/
theorem src_outside_dst (s : State) (h : windowsOk s) (k : Nat) (hk : k < s.srcLen.toNat) :
    ¬(s.dstAddr.toNat ≤ s.srcAddr.toNat + k ∧ s.srcAddr.toNat + k < s.dstAddr.toNat + s.dstCap.toNat) := by
  intro h'
  refine windows_disjoint s h.2.2 (s.srcAddr.toNat + k) ?_
  simp only [inSrc, inDst, inRange, Bool.and_eq_true, decide_eq_true_eq]
  omega

/-- Ranges that meet have a byte of the first that lies in the second. -/
theorem rangesMeet_byte (a n b l : Nat) (h : rangesMeet a n b l = true) : ∃ i < n, inRange b l (a + i) = true := by
  simp only [rangesMeet, Bool.and_eq_true, decide_eq_true_eq] at h
  refine ⟨max a b - a, by omega, ?_⟩
  simp only [inRange, Bool.and_eq_true, decide_eq_true_eq]
  omega

/-! ### DMA accesses (20_memory.md R74) -/

theorem dmaRead_ok (mm : List Region) (m : Memory) (a : Nat) (h : memOK mm a = true) :
    dmaRead mm m a = .ok (Memory.read m a) := by
  simp [dmaRead, h]

theorem dmaRead_error (mm : List Region) (m : Memory) (a : Nat) (h : memOK mm a = false) :
    dmaRead mm m a = .error (.inflight .busError a) := by
  simp [dmaRead, h]

theorem dmaWrite_ok (mm : List Region) (m : Memory) (a : Nat) (v : Byte) (h : memOK mm a = true) :
    dmaWrite mm m a v = .ok (Memory.write m a v) := by
  simp [dmaWrite, h]

theorem dmaWrite_error (mm : List Region) (m : Memory) (a : Nat) (v : Byte) (h : memOK mm a = false) :
    dmaWrite mm m a v = .error (.inflight .busError a) := by
  simp [dmaWrite, h]

theorem readList_zero (m : Memory) (a : Nat) : Memory.readList m a 0 = [] := rfl

theorem readList_succ (m : Memory) (a n : Nat) :
    Memory.readList m a (n + 1) = Memory.read m a :: Memory.readList m (a + 1) n := by
  simp only [Memory.readList, List.range_succ_eq_map, List.map_cons, List.map_map, Nat.add_zero]
  congr 1
  apply List.map_congr_left
  intro i _
  simp only [Function.comp]
  congr 1
  omega

@[simp] theorem readList_length (m : Memory) (a n : Nat) : (Memory.readList m a n).length = n := by
  simp [Memory.readList]

/-- The first bytes of the source window. -/
theorem srcBytes_take (s : State) (i : Nat) (h : i ≤ s.srcLen.toNat) :
    (srcBytes s).take i = Memory.readList s.mem s.srcAddr.toNat i := by
  simp [srcBytes, Memory.readList, ← List.map_take, List.take_range, h]

/-- A run of reads whose bytes all respond. -/
theorem readBytes_ok (mm : List Region) (m : Memory) (n a : Nat) (h : ∀ i < n, memOK mm (a + i) = true) :
    readBytes mm m a n = .ok (Memory.readList m a n) := by
  induction n generalizing a with
  | zero => rfl
  | succ n ih =>
    rw [readBytes, dmaRead_ok mm m a (h 0 (by omega))]
    dsimp only
    rw [ih (a + 1) fun i hi => by rw [show a + 1 + i = a + (i + 1) by omega]; exact h (i + 1) (by omega)]
    dsimp only
    rw [readList_succ]

/-- A run of reads ends at the first byte that does not respond. -/
theorem readBytes_error (mm : List Region) (m : Memory) (n a i : Nat) (hi : i < n)
    (hok : ∀ k < i, memOK mm (a + k) = true) (hbad : memOK mm (a + i) = false) :
    readBytes mm m a n = .error (.inflight .busError (a + i)) := by
  induction n generalizing a i with
  | zero => omega
  | succ n ih =>
    cases i with
    | zero => rw [readBytes, dmaRead_error mm m a hbad]; rfl
    | succ i =>
      rw [readBytes, dmaRead_ok mm m a (hok 0 (by omega))]
      dsimp only
      rw [ih (a + 1) i (by omega) (fun k hk => by rw [show a + 1 + k = a + (k + 1) by omega]; exact hok (k + 1) (by omega))
        (by rw [show a + 1 + i = a + (i + 1) by omega]; exact hbad)]
      dsimp only
      rw [show a + 1 + i = a + (i + 1) by omega]

/-- A run of writes whose bytes all respond. -/
theorem writeBytes_ok (mm : List Region) (bs : List Byte) (m : Memory) (a : Nat)
    (h : ∀ i < bs.length, memOK mm (a + i) = true) : writeBytes mm m a bs = .ok (Memory.writeList m a bs) := by
  induction bs generalizing m a with
  | nil => rfl
  | cons b bs ih =>
    rw [writeBytes, dmaWrite_ok mm m a b (h 0 (by simp))]
    dsimp only
    rw [ih _ (a + 1) fun i hi => by
      rw [show a + 1 + i = a + (i + 1) by omega]; exact h (i + 1) (by simpa using hi), Memory.writeList]

/-- A run of writes ends at the first byte that does not respond. -/
theorem writeBytes_error (mm : List Region) (bs : List Byte) (m : Memory) (a i : Nat) (hi : i < bs.length)
    (hok : ∀ k < i, memOK mm (a + k) = true) (hbad : memOK mm (a + i) = false) :
    writeBytes mm m a bs = .error (.inflight .busError (a + i)) := by
  induction bs generalizing m a i with
  | nil => simp at hi
  | cons b bs ih =>
    cases i with
    | zero => rw [writeBytes, dmaWrite_error mm m a b hbad]; rfl
    | succ i =>
      rw [writeBytes, dmaWrite_ok mm m a b (hok 0 (by omega))]
      dsimp only
      rw [ih _ (a + 1) i (by simpa using hi)
        (fun k hk => by rw [show a + 1 + k = a + (k + 1) by omega]; exact hok (k + 1) (by omega))
        (by rw [show a + 1 + i = a + (i + 1) by omega]; exact hbad)]
      rw [show a + 1 + i = a + (i + 1) by omega]

/-- A run of writes that answers a memory stored exactly its bytes. -/
theorem writeBytes_eq_ok (mm : List Region) (bs : List Byte) (m m' : Memory) (a : Nat) (h : writeBytes mm m a bs = .ok m') :
    m' = Memory.writeList m a bs := by
  induction bs generalizing m a with
  | nil => simpa [writeBytes, Memory.writeList] using h.symm
  | cons b bs ih =>
    rw [writeBytes, dmaWrite] at h
    split at h
    · cases h
    · rename_i m₁ hm₁
      split at hm₁
      · cases hm₁; exact ih _ _ h
      · cases hm₁

/-! ### Tables -/

theorem symGet_symSet {α : Type} (t : Vector α 256) (a b : Byte) (x : α) :
    symGet (symSet t a x) b = if a = b then x else symGet t b := by
  simp only [symGet, symSet, Vector.getElem_set, BitVec.toNat_inj]

@[simp] theorem symGet_zeroFreq (b : Byte) : symGet zeroFreq b = 0 := by
  simp [symGet, zeroFreq]

@[simp] theorem symGet_emptyCodes (b : Byte) : symGet emptyCodes b = none := by
  simp [symGet, emptyCodes]

@[simp] theorem nodeAt_emptyArena (i : Nat) : nodeAt emptyArena i = .absent := by
  unfold nodeAt emptyArena; split <;> simp

theorem tableOf_getElem {α : Type} (n : Nat) (d : α) (l : List α) (i : Nat) (h : i < n) :
    (tableOf n d l)[i] = l.getD i d := by
  simp only [tableOf, Vector.getElem_mk, List.getElem_toArray, List.getElem_take, List.getElem_append, List.getElem_replicate]
  split
  · rename_i h'; simp [h']
  · rename_i h'; rw [List.getD_eq_default]; omega

theorem symGet_tableOf {α : Type} (d : α) (l : List α) (b : Byte) : symGet (tableOf 256 d l) b = l.getD b.toNat d :=
  tableOf_getElem 256 d l b.toNat b.isLt

/-- The arena of a list of at most 511 entries reads as the list. -/
theorem nodeAt_arenaOf (ar : List Node) (h : ar.length ≤ 511) (i : Nat) : nodeAt (arenaOf ar) i = ar.getD i .absent := by
  unfold nodeAt arenaOf
  split
  · exact tableOf_getElem _ _ _ _ ‹_›
  · rw [List.getD_eq_default]; omega

theorem symGet_eq_getElem {α : Type} (t : Vector α 256) (n : Nat) (h : n < 256) : symGet t (BitVec.ofNat 8 n) = t[n] := by
  simp only [symGet, BitVec.toNat_ofNat, Nat.mod_eq_of_lt h]

/-- The leaves of the present symbols, in ascending symbol order (42_tree_builder.md R141). -/
theorem realLeaves_eq (f : FreqTable) :
    realLeaves f = (presentSymbols f).map fun s => .leaf s ((symGet f s).setWidth 40) := by
  have hz : f.toList.zipIdx = (List.range 256).map fun i => (symGet f (BitVec.ofNat 8 i), i) := by
    refine List.ext_getElem (by simp) fun i h₁ h₂ => ?_
    have hi : i < 256 := by simpa using h₂
    simp [symGet_eq_getElem, hi]
  have hg : ∀ l : List Nat, (l.map fun i => (symGet f (BitVec.ofNat 8 i), i)).filterMap
      (fun x => if x.1 = 0 then none else some (Node.leaf (BitVec.ofNat 8 x.2) (x.1.setWidth 40))) =
      ((l.map (BitVec.ofNat 8)).filter fun s => symGet f s != 0).map fun s => .leaf s ((symGet f s).setWidth 40) := by
    intro l
    induction l with
    | nil => rfl
    | cons i l ih =>
      by_cases h : symGet f (BitVec.ofNat 8 i) = 0 <;> simp_all
  unfold realLeaves presentSymbols allSymbols
  rw [hz]
  exact hg _

/-! ### Completion (40_control.md R117, 60_exceptions.md R222 to R224) -/

/-- A command that answers a next state completed, or recorded a pre-check error, or recorded an in-flight error over free
values. -/
theorem complete_eq_next (w : WriteSet) (s t : State) (r : Run (Nat × State)) (h : complete w s r = .next t) :
    (∃ n u, r = .ok (n, u) ∧ t = recordDone u n) ∨ (∃ e a, r = .error (.pre e a) ∧ t = recordError s e a) ∨
      ∃ e a, r = .error (.inflight e a) ∧ t = recordError (havoc w s) e a := by
  match r, h with
  | .ok (n, u), h => cases h; exact .inl ⟨n, u, rfl, rfl⟩
  | .error (.pre e a), h => cases h; exact .inr (.inl ⟨e, a, rfl, rfl⟩)
  | .error (.inflight e a), h => cases h; exact .inr (.inr ⟨e, a, rfl, rfl⟩)

/-- A command never ends in a refusal. -/
theorem complete_ne_refused (w : WriteSet) (s : State) (r : Run (Nat × State)) (q : Refusal) : complete w s r ≠ .refused q := by
  match r with
  | .ok (n, u) => exact fun h => by cases h
  | .error (.pre e a) => exact fun h => by cases h
  | .error (.inflight e a) => exact fun h => by cases h
  | .error (.stuck f) => exact fun h => by cases h

/-- The body of each command: the part of its meaning before completion. -/
def bodyOf (i : Instr) (s : State) : Run (Nat × State) :=
  match i with
  | .nop => .ok (0, s)
  | .clear => .ok (0, clearTables s)
  | .count => countBody s
  | .build => buildBody s
  | .gencode => gencodeBody s
  | .pack => packBody s
  | .hdrWrite => hdrWriteBody s
  | .hdrParse => hdrParseBody s
  | .unpack => unpackBody s
  | .compress => compressBody s
  | .decompress => decompressBody s

/-- Every command is its body and the one completion. -/
theorem exec_eq_complete (i : Instr) (s : State) : exec i s = complete (writeSet i) s (bodyOf i s) := by
  cases i <;> rfl

/-- A command whose body ends with an in-flight error records it over free values in its write-set. -/
theorem endsInFlight_of_body (i : Instr) (s : State) (e : ErrCode) (a : Nat) (h : bodyOf i s = .error (.inflight e a)) :
    endsInFlight i s e a := by
  rw [endsInFlight, exec_eq_complete, h, complete]

/-- No command is refused. -/
theorem exec_ne_refused (i : Instr) (s : State) (q : Refusal) : exec i s ≠ .refused q := by
  rw [exec_eq_complete]; exact complete_ne_refused _ _ _ _

end Sys2Proof.Machine
end

