-- ==== Sys2Proof/Laws/Header.lean ====
section
/-! SUPPORT. The laws of the counts (41_freq_count.md R130, R131) and of the header's byte order (45_header_codec.md R181). -/

namespace Sys2Proof.Machine

/-! ### Counts -/

/-- The table as a list, entry by entry. -/
theorem toList_eq_map_symGet (f : FreqTable) : f.toList = allSymbols.map (symGet f) := by
  refine List.ext_getElem (by simp [allSymbols]) fun i h₁ h₂ => ?_
  have hi : i < 256 := by simpa using h₁
  simp [allSymbols, symGet_eq_getElem, hi]

theorem freqSum_eq (f : FreqTable) : freqSum f = (allSymbols.map fun s => (symGet f s).toNat).sum := by
  rw [freqSum, toList_eq_map_symGet, List.map_map]; rfl

theorem mem_allSymbols (s : Byte) : s ∈ allSymbols := by
  simp only [allSymbols, List.mem_map, List.mem_range]
  exact ⟨s.toNat, s.isLt, by simp⟩

theorem allSymbols_nodup : allSymbols.Nodup := by
  refine List.Nodup.map_on ?_ List.nodup_range
  intro x hx y hy h
  have := congrArg BitVec.toNat h
  simp only [List.mem_range] at hx hy
  simpa [Nat.mod_eq_of_lt hx, Nat.mod_eq_of_lt hy] using this

/-- Replacing one count changes the sum by the difference. -/
theorem freqSum_symSet (f : FreqTable) (b : Byte) (x : Word) :
    freqSum (symSet f b x) + (symGet f b).toNat = freqSum f + x.toNat := by
  rw [freqSum_eq, freqSum_eq]
  have key : ∀ l : List Byte, l.Nodup →
      (l.map fun s => (symGet (symSet f b x) s).toNat).sum + (if b ∈ l then (symGet f b).toNat else 0) =
      (l.map fun s => (symGet f s).toNat).sum + (if b ∈ l then x.toNat else 0) := by
    intro l hl
    simp only [symGet_symSet]
    induction l with
    | nil => simp
    | cons c l ih =>
      obtain ⟨hc, hl⟩ := List.nodup_cons.mp hl
      have ih := ih hl
      simp only [List.map_cons, List.sum_cons, List.mem_cons]
      by_cases hbc : b = c
      · subst hbc
        simp only [if_neg hc, Nat.add_zero] at ih
        simp only [if_true, true_or]; omega
      · simp only [hbc, if_false, false_or]; omega
  have := key _ allSymbols_nodup
  simpa [mem_allSymbols] using this

/-- Counting adds to each entry the number of times its symbol occurs, where no count passes 32 bits. -/
theorem symGet_foldl_bumpFreq (bs : List Byte) (f : FreqTable) (b : Byte)
    (h : (symGet f b).toNat + bs.count b < 2 ^ 32) :
    (symGet (bs.foldl bumpFreq f) b).toNat = (symGet f b).toNat + bs.count b := by
  induction bs generalizing f with
  | nil => simp
  | cons c bs ih =>
    rw [List.foldl_cons]
    by_cases hcb : c = b
    · subst hcb
      rw [List.count_cons_self] at h ⊢
      have hg : (symGet (bumpFreq f c) c).toNat = (symGet f c).toNat + 1 := by
        rw [bumpFreq, symGet_symSet, if_pos rfl, BitVec.toNat_add, show BitVec.toNat (1 : Word) = 1 from rfl, Nat.mod_eq_of_lt (by omega)]
      rw [ih _ (by omega), hg]; omega
    · rw [List.count_cons_of_ne hcb] at h ⊢
      have hg : symGet (bumpFreq f c) b = symGet f b := by rw [bumpFreq, symGet_symSet, if_neg hcb]
      rw [ih _ (by rw [hg]; exact h), hg]

/-- R131: the count of a symbol is the number of times it occurs. -/
theorem symGet_histogram (bs : List Byte) (h : bs.length < 2 ^ 32) (b : Byte) :
    (symGet (histogram bs) b).toNat = bs.count b := by
  rw [histogram, symGet_foldl_bumpFreq bs zeroFreq b (by
    have := List.count_le_length (a := b) (l := bs); simp; omega)]
  simp

/-- R131: the counts sum to the number of bytes. -/
theorem freqSum_histogram (bs : List Byte) (h : bs.length < 2 ^ 32) : freqSum (histogram bs) = bs.length := by
  rw [freqSum_eq]
  have hc : (allSymbols.map fun s => (symGet (histogram bs) s).toNat) = allSymbols.map fun s => bs.count s :=
    List.map_congr_left fun s _ => symGet_histogram bs h s
  rw [hc]
  clear hc h
  induction bs with
  | nil => simp
  | cons b bs ih =>
    have key : ∀ l : List Byte, l.Nodup →
        (l.map fun s => (b :: bs).count s).sum = (l.map fun s => bs.count s).sum + if b ∈ l then 1 else 0 := by
      intro l hl
      induction l with
      | nil => simp
      | cons c l ihl =>
        obtain ⟨hc, hl⟩ := List.nodup_cons.mp hl
        have ihl := ihl hl
        by_cases hbc : b = c
        · subst hbc
          rw [if_neg hc] at ihl
          simp [ihl]; omega
        · simp only [List.map_cons, List.sum_cons, List.count_cons_of_ne hbc, List.mem_cons, hbc, false_or, ihl]
          omega
    rw [key _ allSymbols_nodup, ih, if_pos (mem_allSymbols b), List.length_cons]

/-! ### Byte order (20_memory.md R75) -/

/-- `LE32_read` of what `LE32_write` wrote. -/
theorem le32Of_le32 (v : Word) :
    le32Of (v.extractLsb' 0 8) (v.extractLsb' 8 8) (v.extractLsb' 16 8) (v.extractLsb' 24 8) = v := by
  apply BitVec.eq_of_toNat_eq
  have := v.isLt
  simp only [le32Of, BitVec.extractLsb'_toNat, BitVec.toNat_ofNat, Nat.shiftRight_eq_div_pow]
  omega

/-- The fields of a byte sequence that begins with written fields. -/
theorem le32Words_flatMap (ws : List Word) (rest : List Byte) :
    le32Words (ws.flatMap le32 ++ rest) = ws ++ le32Words rest := by
  induction ws with
  | nil => simp
  | cons w ws ih =>
    simp only [List.flatMap_cons, le32, List.cons_append, List.nil_append, le32Words, le32Of_le32]
    rw [ih]

theorem flatMap_le32_length (ws : List Word) : (ws.flatMap le32).length = 4 * ws.length := by
  induction ws with
  | nil => rfl
  | cons w ws ih => rw [List.flatMap_cons, List.length_append, ih, List.length_cons]; simp [le32]; omega

theorem headerBytes_length (n : Word) (f : FreqTable) : (headerBytes n f).length = 1028 := by
  rw [headerBytes, flatMap_le32_length]; simp

/-- The table of a list of 256 entries is read back from its list. -/
theorem tableOf_toList {α : Type} (d : α) (t : Vector α 256) (rest : List α) : tableOf 256 d (t.toList ++ rest) = t := by
  refine Vector.ext fun i hi => ?_
  rw [tableOf_getElem _ _ _ _ hi, List.getD_eq_getElem?_getD, List.getElem?_append_left (by simpa using hi)]
  simp [hi]

/-- The header parses back, whatever follows it (R183). -/
theorem headerLen_headerBytes (n : Word) (f : FreqTable) (rest : List Byte) : headerLen (headerBytes n f ++ rest) = n := by
  rw [headerLen, headerBytes, le32Words_flatMap, List.cons_append, List.getD_cons_zero]

theorem headerFreq_headerBytes (n : Word) (f : FreqTable) (rest : List Byte) : headerFreq (headerBytes n f ++ rest) = f := by
  rw [headerFreq, headerBytes, le32Words_flatMap, List.cons_append, List.drop_one, List.tail_cons, tableOf_toList]

end Sys2Proof.Machine
end

