-- ==== Sys2Proof/Laws/PerInstr.lean ====
section
/-! SUPPORT. Statements made for each command as syntax, one lemma a constructor. -/

/-- A command is well formed, its word has RSVD 0, and the decoder reads the command back from it (30_encoding.md R91 to R94). -/
def Sys2Proof.Laws.WordOfCommand.Statement (i : Sys2Proof.Instr) : Prop :=
  i.wf = true ∧ Sys2Proof.rsvdField (Sys2Proof.encode i) = 0 ∧
    Sys2Proof.opcodeField (Sys2Proof.encode i) = Sys2Proof.opcodeOf i ∧ Sys2Proof.decode (Sys2Proof.encode i) = .ok i

namespace Sys2Proof.Laws.WordOfCommand

theorem nop : Statement .nop := ⟨rfl, rfl, rfl, rfl⟩
theorem clear : Statement .clear := ⟨rfl, rfl, rfl, rfl⟩
theorem count : Statement .count := ⟨rfl, rfl, rfl, rfl⟩
theorem build : Statement .build := ⟨rfl, rfl, rfl, rfl⟩
theorem gencode : Statement .gencode := ⟨rfl, rfl, rfl, rfl⟩
theorem pack : Statement .pack := ⟨rfl, rfl, rfl, rfl⟩
theorem hdrWrite : Statement .hdrWrite := ⟨rfl, rfl, rfl, rfl⟩
theorem hdrParse : Statement .hdrParse := ⟨rfl, rfl, rfl, rfl⟩
theorem unpack : Statement .unpack := ⟨rfl, rfl, rfl, rfl⟩
theorem compress : Statement .compress := ⟨rfl, rfl, rfl, rfl⟩
theorem decompress : Statement .decompress := ⟨rfl, rfl, rfl, rfl⟩

end Sys2Proof.Laws.WordOfCommand
end

