-- ==== Sys2Proof/Laws/Steps.lean ====
section
/-! SUPPORT. What a step of the machine can do, said once: a register access, a host statement, the engine's command, and the step of
whichever agent is next. -/

namespace Sys2Proof.Machine

/-! ### The register window -/

theorem regAt_regOffset (r : Reg) : regAt (regOffset r) = some r := by cases r <;> rfl

theorem regWrite_busy (s : State) (off : BitVec 8) (v : Word) (h : s.busy = true) : regWrite s off v = { s with ovr := true } := by
  rw [regWrite, if_pos h]

theorem regWrite_idle (s : State) (off : BitVec 8) (v : Word) (r : Reg) (h : s.busy = false) (hr : regAt off = some r) :
    regWrite s off v = regWriteIdle s v r := by
  rw [regWrite, if_neg (by simp [h]), hr]

/-- A register write drops and sets OVR, does nothing, or has the effect of its register. -/
theorem regWrite_cases (s : State) (off : BitVec 8) (v : Word) :
    (s.busy = true ∧ regWrite s off v = { s with ovr := true }) ∨ regWrite s off v = s ∨
      ∃ r, s.busy = false ∧ regAt off = some r ∧ regWrite s off v = regWriteIdle s v r := by
  by_cases hb : s.busy = true
  · exact .inl ⟨hb, regWrite_busy s off v hb⟩
  · rw [Bool.not_eq_true] at hb
    cases hr : regAt off with
    | none => exact .inr (.inl (by rw [regWrite, if_neg (by simp [hb]), hr]))
    | some r => exact .inr (.inr ⟨r, hb, rfl, regWrite_idle s off v r hb hr⟩)

/-- A register read changes at most the number of the next draw. -/
theorem regRead_state (s : State) (off : BitVec 8) : ∃ n, (regRead s off).2 = { s with draws := n } := by
  unfold regRead
  split
  · exact ⟨s.draws, rfl⟩
  · split
    · exact ⟨_, rfl⟩
    · exact ⟨s.draws, rfl⟩

/-! ### The host -/

theorem hostWrite_eq_next (s t : State) (off : BitVec 8) (n : Nat) (v : Word) (h : hostWrite s off n v = .next t) :
    t = regWrite s off v := by
  unfold hostWrite at h
  split at h
  · cases h; rfl
  · cases h

theorem hostRead_eq_next (s t : State) (off : BitVec 8) (n k : Nat) (h : hostRead s off n k = .next t) :
    t = setTemp (regRead s off).2 k (regRead s off).1 := by
  unfold hostRead at h
  split at h
  · cases h; rfl
  · cases h

/-- What a host statement can do. -/
theorem hostStatement_eq_next (s t : State) (st : HostStmt) (h : hostStatement s st = .next t) :
    (∃ off v, t = regWrite s off v) ∨ (∃ off k, t = setTemp (regRead s off).2 k (regRead s off).1) ∨
      (∃ a bs, t = { s with mem := Memory.writeList s.mem a bs }) ∨ (∃ name bs, t = setBuf s name bs) ∨
      ∃ p, t = { s with host := p } := by
  cases st with
  | wr r v => exact .inl ⟨_, _, hostWrite_eq_next _ _ _ _ _ h⟩
  | rd r k => exact .inr (.inl ⟨_, _, hostRead_eq_next _ _ _ _ _ h⟩)
  | cmd i => exact .inl ⟨_, _, hostWrite_eq_next _ _ _ _ _ h⟩
  | wait =>
    simp only [hostStatement] at h
    split at h
    · cases h; exact .inr (.inr (.inr (.inr ⟨_, rfl⟩)))
    · cases h; exact .inr (.inr (.inr (.inr ⟨s.host, rfl⟩)))
  | memw a bs =>
    simp only [hostStatement, hostMemWrite] at h
    split at h
    · cases h
    · split at h
      · cases h; exact .inr (.inr (.inl ⟨_, _, rfl⟩))
      · cases h
  | memr a n name =>
    simp only [hostStatement, hostMemRead] at h
    split at h
    · cases h
    · split at h
      · cases h; exact .inr (.inr (.inr (.inl ⟨_, _, rfl⟩)))
      · cases h
  | busWrite off n v => exact .inl ⟨_, _, hostWrite_eq_next _ _ _ _ _ h⟩
  | busRead off n k => exact .inr (.inl ⟨_, _, hostRead_eq_next _ _ _ _ _ h⟩)

/-- What a host statement can be refused for: the register window's access size, the end of data memory, the host's duty. -/
theorem hostStatement_eq_refused (s : State) (st : HostStmt) (q : Refusal) (h : hostStatement s st = .refused q) :
    (q = .hostAccessNotWord ∧ ((∃ off n v, st = .busWrite off n v ∧ (BusTxn.w off n v).wf = false) ∨
        ∃ off n k, st = .busRead off n k ∧ (BusTxn.r off n).wf = false)) ∨
      (q = .hostOutsideMemory ∧ ((∃ a bs, st = .memw a bs ∧ memRangeWf a bs.length = false) ∨
        ∃ a n name, st = .memr a n name ∧ memRangeWf a n = false)) ∨
      (q = .hostBreaksDuty ∧ ((∃ a bs, st = .memw a bs ∧ hostMayWrite s a.toNat bs.length = false) ∨
        ∃ a n name, st = .memr a n name ∧ hostMayRead s a.toNat n = false)) := by
  cases st with
  | wr r v => cases r <;> cases h
  | rd r k => cases r <;> cases h
  | cmd i => cases h
  | wait =>
    simp only [hostStatement] at h
    split at h <;> cases h
  | busWrite off n v =>
    simp only [hostStatement, hostWrite] at h
    split at h
    · cases h
    · rename_i hw
      cases h; exact .inl ⟨rfl, .inl ⟨off, n, v, rfl, by simpa using hw⟩⟩
  | busRead off n k =>
    simp only [hostStatement, hostRead] at h
    split at h
    · cases h
    · rename_i hw
      cases h; exact .inl ⟨rfl, .inr ⟨off, n, k, rfl, by simpa using hw⟩⟩
  | memw a bs =>
    simp only [hostStatement, hostMemWrite] at h
    split at h
    · rename_i hr
      cases h; exact .inr (.inl ⟨rfl, .inl ⟨a, bs, rfl, by simpa using hr⟩⟩)
    · split at h
      · cases h
      · rename_i hd
        cases h; exact .inr (.inr ⟨rfl, .inl ⟨a, bs, rfl, by simpa using hd⟩⟩)
  | memr a n name =>
    simp only [hostStatement, hostMemRead] at h
    split at h
    · rename_i hr
      cases h; exact .inr (.inl ⟨rfl, .inr ⟨a, n, name, rfl, by simpa using hr⟩⟩)
    · split at h
      · cases h
      · rename_i hd
        cases h; exact .inr (.inr ⟨rfl, .inr ⟨a, n, name, rfl, by simpa using hd⟩⟩)

/-! ### The step -/

/-- The engine's step runs the decoded command, or records ILLEGAL_CMD. -/
theorem engineStep_eq_next (s t : State) (h : engineStep s = .next t) :
    (∃ i, decode s.cmd = .ok i ∧ exec i s = .next t) ∨
      ((∃ e, decode s.cmd = .error e) ∧ t = recordError s .illegalCmd 0) := by
  unfold engineStep at h
  split at h
  · exact .inl ⟨_, ‹_›, h⟩
  · cases h; exact .inr ⟨⟨_, ‹_›⟩, rfl⟩

/-- What a step can do, over the state whose schedule has moved on and, for the host, whose statement is taken: the engine's command, the
reset, a register write, a register read, bytes stored, a buffer filled, or nothing but the model's own fields. -/
theorem step_eq_next (s t : State) (h : step s = .next t) :
    ∃ rest, (s.busy = true ∧ engineStep { s with schedule := rest } = .next t) ∨ t = resetEvent { s with schedule := rest } ∨
      ∃ p, (∃ off v, t = regWrite { s with schedule := rest, host := p } off v) ∨
        (∃ off k, t = setTemp (regRead { s with schedule := rest, host := p } off).2 k
          (regRead { s with schedule := rest, host := p } off).1) ∨
        (∃ a bs, t = { s with schedule := rest, host := p, mem := Memory.writeList s.mem a bs }) ∨
        (∃ name bs, t = setBuf { s with schedule := rest, host := p } name bs) ∨
        t = { s with schedule := rest, host := p } := by
  have agent : ∀ (rest : List Agent) (a : Agent), agentStep { s with schedule := rest } a = .next t →
      (s.busy = true ∧ engineStep { s with schedule := rest } = .next t) ∨ t = resetEvent { s with schedule := rest } ∨
      ∃ p, (∃ off v, t = regWrite { s with schedule := rest, host := p } off v) ∨
        (∃ off k, t = setTemp (regRead { s with schedule := rest, host := p } off).2 k
          (regRead { s with schedule := rest, host := p } off).1) ∨
        (∃ a bs, t = { s with schedule := rest, host := p, mem := Memory.writeList s.mem a bs }) ∨
        (∃ name bs, t = setBuf { s with schedule := rest, host := p } name bs) ∨
        t = { s with schedule := rest, host := p } := by
    intro rest a ha
    cases a with
    | reset => cases ha; exact .inr (.inl rfl)
    | engine =>
      simp only [agentStep] at ha
      split at ha
      · exact .inl ⟨‹_›, ha⟩
      · cases ha; exact .inr (.inr ⟨s.host, .inr (.inr (.inr (.inr rfl)))⟩)
    | host =>
      simp only [agentStep, hostStep] at ha
      split at ha
      · cases ha; exact .inr (.inr ⟨s.host, .inr (.inr (.inr (.inr rfl)))⟩)
      · rename_i st p _
        rcases hostStatement_eq_next _ _ _ ha with h | h | h | h | ⟨p', h⟩
        · exact .inr (.inr ⟨p, .inl h⟩)
        · exact .inr (.inr ⟨p, .inr (.inl h)⟩)
        · exact .inr (.inr ⟨p, .inr (.inr (.inl h))⟩)
        · exact .inr (.inr ⟨p, .inr (.inr (.inr (.inl h)))⟩)
        · exact .inr (.inr ⟨p', .inr (.inr (.inr (.inr h)))⟩)
  unfold step nextStep at h
  split at h
  · rename_i hs
    exact ⟨[], agent [] _ (by rw [← hs]; exact h)⟩
  · exact ⟨_, agent _ _ h⟩

end Sys2Proof.Machine
end

