-- ==== Sys2Proof/Laws/Stream.lean ====
section
/-! SUPPORT. The laws of the two bit streams: what the packer has done after any number of code bits (44_bit_packer.md R170 to R173), and
what the decoder does along a leaf's path (46_bit_unpacker.md R190 to R193). -/

namespace Sys2Proof.Machine

/-! ### Bits and bytes -/

theorem natOfBits_lt (f : Nat → Bool) (n : Nat) : natOfBits f n < 2 ^ n := by
  induction n with
  | zero => simp [natOfBits]
  | succ n ih =>
    rw [natOfBits, Nat.pow_succ]
    cases f n <;> simp <;> omega

theorem natOfBits_congr {f g : Nat → Bool} {n : Nat} (h : ∀ i < n, f i = g i) : natOfBits f n = natOfBits g n := by
  induction n with
  | zero => rfl
  | succ n ih => rw [natOfBits, natOfBits, ih fun i hi => h i (by omega), h n (by omega)]

theorem testBit_natOfBits (f : Nat → Bool) (n i : Nat) : (natOfBits f n).testBit i = (decide (i < n) && f i) := by
  induction n with
  | zero => simp [natOfBits]
  | succ n ih =>
    have hlt := natOfBits_lt f n
    cases hf : f n with
    | false =>
      rw [natOfBits, hf, Bool.toNat_false, Nat.zero_mul, Nat.add_zero, ih]
      by_cases hi : i < n
      · simp [hi, Nat.lt_succ_of_lt hi]
      · by_cases hin : i = n
        · subst hin; simp [hf]
        · rw [decide_eq_false (by omega), decide_eq_false (by omega)]
    | true =>
      rw [natOfBits, hf, Bool.toNat_true, Nat.one_mul, Nat.add_comm]
      by_cases hi : i < n
      · rw [Nat.testBit_two_pow_add_gt hi, ih]
        simp [hi, Nat.lt_succ_of_lt hi]
      · by_cases hin : i = n
        · subst hin
          rw [Nat.testBit_two_pow_add_eq, Nat.testBit_lt_two_pow hlt]; simp [hf]
        · rw [decide_eq_false (by omega), Nat.testBit_lt_two_pow, Bool.false_and]
          calc 2 ^ n + natOfBits f n < 2 ^ (n + 1) := by rw [Nat.pow_succ]; omega
            _ ≤ 2 ^ i := Nat.pow_le_pow_right (by omega) (by omega)

theorem getLsbD_ofNat_natOfBits (f : Nat → Bool) (w n i : Nat) :
    (BitVec.ofNat w (natOfBits f n)).getLsbD i = (decide (i < w) && (decide (i < n) && f i)) := by
  rw [BitVec.getLsbD_ofNat, testBit_natOfBits]

theorem bitsBytes_length (bits : List Bool) : (bitsBytes bits).length = ceilDiv bits.length 8 := by simp [bitsBytes]

/-- R98: bit `r` of payload byte `q` is code bit `8q + r`, 0 past the last. -/
theorem bitsBytes_bit (bits : List Bool) (j : Nat) :
    ((bitsBytes bits).getD (j / 8) 0).getLsbD (j % 8) = bits.getD j false := by
  by_cases h : j / 8 < ceilDiv bits.length 8
  · rw [List.getD_eq_getElem _ _ (by rw [bitsBytes_length]; exact h)]
    simp only [bitsBytes, List.getElem_map, List.getElem_range, getLsbD_ofNat_natOfBits]
    have : j % 8 < 8 := Nat.mod_lt _ (by omega)
    simp only [this, decide_true, Bool.true_and]
    rw [show 8 * (j / 8) + j % 8 = j by omega]
  · rw [List.getD_eq_default _ _ (by rw [bitsBytes_length]; omega), List.getD_eq_default]
    · simp
    · simp only [ceilDiv] at h; omega

/-! ### The packer -/

/-- The byte the packer is filling after the bits `bits`. -/
def pendingByte (bits : List Bool) : Byte :=
  BitVec.ofNat 8 (natOfBits (fun r => bits.getD (8 * (bits.length / 8) + r) false) (bits.length % 8))

/-- The packer after it has taken the bits `bits`, writing from `da`. -/
def packerAfter (m : Memory) (da : Nat) (bits : List Bool) : Packer :=
  { acc := pendingByte bits
    k := bits.length % 8
    o := bits.length / 8
    nb := bits.length
    mem := Memory.writeList m da ((bitsBytes bits).take (bits.length / 8)) }

/-- `Emit` where the byte fits and responds (R170). -/
theorem emitByte_ok (mm : List Region) (da dc : Nat) (p : Packer) (hfit : p.o < dc) (hok : memOK mm (da + p.o) = true) :
    emitByte mm da dc p = .ok { p with acc := 0, k := 0, o := p.o + 1, mem := Memory.write p.mem (da + p.o) p.acc } := by
  rw [emitByte, decide_eq_false (by omega), raiseIf_false, run_bind_ok, dmaWrite_ok _ _ _ _ hok, run_bind_ok]

/-- `Emit` past the capacity (R170). -/
theorem emitByte_full (mm : List Region) (da dc : Nat) (p : Packer) (h : dc ≤ p.o) :
    emitByte mm da dc p = .error (.inflight .dstOverflow 0) := by
  rw [emitByte, decide_eq_true (by omega), raiseIf_true, run_bind_error]

theorem getLsbD_setBit (v : Byte) (k i : Nat) (b : Bool) (hk : k < 8) :
    (setBit v k b).getLsbD i = if i = k then b else v.getLsbD i := by
  unfold setBit
  by_cases hi : i < 8
  · cases b <;> by_cases h : i = k <;>
      simp [hi, h, hk] <;> omega
  · have h₁ : i ≠ k := by omega
    rw [if_neg h₁, BitVec.getLsbD_of_ge _ _ (by omega), BitVec.getLsbD_of_ge _ _ (by omega)]

/-- The pending byte with one more bit. -/
theorem setBit_pendingByte (bits : List Bool) (b : Bool) :
    setBit (pendingByte bits) (bits.length % 8) b =
      BitVec.ofNat 8 (natOfBits (fun r => (bits ++ [b]).getD (8 * (bits.length / 8) + r) false) (bits.length % 8 + 1)) := by
  have hk : bits.length % 8 < 8 := Nat.mod_lt _ (by omega)
  refine BitVec.eq_of_getLsbD_eq fun i hi => ?_
  rw [getLsbD_setBit _ _ _ _ hk, pendingByte, getLsbD_ofNat_natOfBits, getLsbD_ofNat_natOfBits]
  simp only [hi, decide_true, Bool.true_and, List.getD_eq_getElem?_getD]
  by_cases h : i = bits.length % 8
  · rw [if_pos h, List.getElem?_append_right (by omega)]
    rw [show 8 * (bits.length / 8) + i - bits.length = 0 by omega]
    simp [h]
  · rw [if_neg h]
    by_cases hlt : i < bits.length % 8
    · rw [List.getElem?_append_left (by omega)]
      simp [hlt, Nat.lt_succ_of_lt hlt]
    · rw [decide_eq_false (by omega), decide_eq_false (by omega)]; simp

theorem take_bitsBytes_append (bits : List Bool) (b : Bool) (n : Nat) (h : 8 * n ≤ bits.length) :
    (bitsBytes (bits ++ [b])).take n = (bitsBytes bits).take n := by
  refine List.ext_getElem ?_ fun i h₁ h₂ => ?_
  · simp only [List.length_take, bitsBytes_length, ceilDiv, List.length_append, List.length_singleton]; omega
  · simp only [List.getElem_take, bitsBytes, List.getElem_map, List.getElem_range]
    have hi : i < n := by simp only [List.length_take] at h₁; omega
    congr 1
    refine natOfBits_congr fun r hr => ?_
    simp only [List.getD_eq_getElem?_getD]
    rw [List.getElem?_append_left (by omega)]

/-- One bit: where it completes a byte, that byte must fit and respond. -/
theorem pushBit_packerAfter (mm : List Region) (m : Memory) (da dc : Nat) (bits : List Bool) (b : Bool)
    (hfit : (bits.length + 1) / 8 ≤ dc) (hok : ∀ i < (bits.length + 1) / 8, memOK mm (da + i) = true) :
    pushBit mm da dc (packerAfter m da bits) b = .ok (packerAfter m da (bits ++ [b])) := by
  have hk : bits.length % 8 < 8 := Nat.mod_lt _ (by omega)
  simp only [pushBit, packerAfter, setBit_pendingByte]
  by_cases h8 : bits.length % 8 + 1 = 8
  · have hq : (bits.length + 1) / 8 = bits.length / 8 + 1 := by omega
    rw [if_pos h8, emitByte_ok _ _ _ _ (by dsimp only; omega) (hok _ (by dsimp only; omega))]
    simp only [List.length_append, List.length_singleton, hq, h8]
    rw [show (bits.length + 1) % 8 = 0 by omega]
    congr 2
    · rw [pendingByte]
      simp only [List.length_append, List.length_singleton]
      rw [show (bits.length + 1) % 8 = 0 by omega]; rfl
    · rw [List.take_add_one, take_bitsBytes_append _ _ _ (by omega), Memory.writeList_append]
      have hl : bits.length / 8 < (bitsBytes (bits ++ [b])).length := by
        simp only [bitsBytes_length, ceilDiv, List.length_append, List.length_singleton]; omega
      rw [List.getElem?_eq_getElem hl]
      have hlen : ((bitsBytes bits).take (bits.length / 8)).length = bits.length / 8 := by
        simp only [List.length_take, bitsBytes_length, ceilDiv]; omega
      rw [hlen]
      simp only [Option.toList_some, Memory.writeList, bitsBytes, List.getElem_map, List.getElem_range]
  · rw [if_neg h8]
    have hq : (bits.length + 1) / 8 = bits.length / 8 := by omega
    have hm : (bits.length + 1) % 8 = bits.length % 8 + 1 := by omega
    simp only [pendingByte, List.length_append, List.length_singleton, hq, hm]
    rw [take_bitsBytes_append _ _ _ (by omega)]

/-- The bits of a code, one after the other. -/
theorem pushBits_packerAfter (mm : List Region) (m : Memory) (da dc : Nat) (new bits : List Bool)
    (hfit : (bits.length + new.length) / 8 ≤ dc)
    (hok : ∀ i < (bits.length + new.length) / 8, memOK mm (da + i) = true) :
    pushBits mm da dc (packerAfter m da bits) new = .ok (packerAfter m da (bits ++ new)) := by
  induction new generalizing bits with
  | nil => simp [pushBits]
  | cons b new ih =>
    simp only [List.length_cons] at hfit hok
    rw [pushBits, pushBit_packerAfter mm m da dc bits b (by omega) fun i hi => hok i (by omega)]
    dsimp only
    rw [ih (bits ++ [b]) (by simp only [List.length_append, List.length_singleton]; omega)
      fun i hi => hok i (by simp only [List.length_append, List.length_singleton] at hi; omega)]
    simp

/-- The stream loop, over source bytes that respond, have codes and lie outside the bytes written. -/
theorem packLoop_packerAfter (mm : List Region) (code : CodeTable) (m : Memory) (da dc n a : Nat) (bits : List Bool)
    (hsrc : ∀ i < n, memOK mm (a + i) = true)
    (hcode : ∀ b ∈ Memory.readList m a n, (symGet code b).isSome = true)
    (hfit : (bits.length + (codeBits code (Memory.readList m a n)).length) / 8 ≤ dc)
    (hok : ∀ i < (bits.length + (codeBits code (Memory.readList m a n)).length) / 8, memOK mm (da + i) = true)
    (hdis : ∀ i < n, ¬(da ≤ a + i ∧ a + i < da + dc)) :
    packLoop mm code da dc n a (packerAfter m da bits) =
      .ok (packerAfter m da (bits ++ codeBits code (Memory.readList m a n))) := by
  induction n generalizing a bits with
  | zero => simp [packLoop, codeBits, readList_zero]
  | succ n ih =>
    rw [readList_succ] at hcode hfit hok ⊢
    simp only [codeBits, List.flatMap_cons, List.length_append] at hfit hok ⊢
    have hread : Memory.read (packerAfter m da bits).mem a = Memory.read m a := by
      refine Memory.read_writeList_outside _ _ _ _ fun h => hdis 0 (by omega) ⟨by omega, ?_⟩
      simp only [List.length_take, bitsBytes_length] at h
      omega
    obtain ⟨c, hc⟩ := Option.isSome_iff_exists.mp (hcode _ (List.mem_cons_self ..))
    rw [packLoop, dmaRead_ok _ _ a (hsrc 0 (by omega)), hread]
    dsimp only
    rw [hc]
    dsimp only
    simp only [hc, Option.getD_some] at hfit hok ⊢
    rw [pushBits_packerAfter mm m da dc c bits (by omega) fun i hi => hok i (by omega)]
    dsimp only
    rw [ih (a + 1) (bits ++ c) (fun i hi => by rw [show a + 1 + i = a + (i + 1) by omega]; exact hsrc _ (by omega))
      (fun b hb => hcode b (List.mem_cons_of_mem _ hb))
      (by simp only [codeBits, List.length_append]; omega)
      (fun i hi => hok i (by simp only [codeBits, List.length_append] at hi; omega))
      (fun i hi => by rw [show a + 1 + i = a + (i + 1) by omega]; exact hdis _ (by omega))]
    rw [List.append_assoc]; rfl

theorem packerAfter_nil (m : Memory) (da : Nat) :
    packerAfter m da [] = { acc := 0, k := 0, o := 0, nb := 0, mem := m } := by
  simp [packerAfter, pendingByte, natOfBits, Memory.writeList]

/-- R170 to R173: `PackBits` over source bytes that respond and have codes, into a range they lie outside of that holds the payload. -/
theorem packBits_ok (mm : List Region) (code : CodeTable) (m : Memory) (sa sl da dc : Nat)
    (hsrc : ∀ i < sl, memOK mm (sa + i) = true)
    (hcode : ∀ b ∈ Memory.readList m sa sl, (symGet code b).isSome = true)
    (hfit : ceilDiv (codeBits code (Memory.readList m sa sl)).length 8 ≤ dc)
    (hok : ∀ i < ceilDiv (codeBits code (Memory.readList m sa sl)).length 8, memOK mm (da + i) = true)
    (hdis : ∀ i < sl, ¬(da ≤ sa + i ∧ sa + i < da + dc)) :
    ∃ p, packBits mm code m sa sl da dc = .ok p ∧
      p.o = ceilDiv (codeBits code (Memory.readList m sa sl)).length 8 ∧
      p.nb = (codeBits code (Memory.readList m sa sl)).length ∧
      p.mem = Memory.writeList m da (bitsBytes (codeBits code (Memory.readList m sa sl))) := by
  generalize hB : codeBits code (Memory.readList m sa sl) = B at *
  simp only [ceilDiv] at hfit hok
  have hloop := packLoop_packerAfter mm code m da dc sl sa [] hsrc hcode (by rw [hB]; simp; omega)
    (fun i hi => hok i (by rw [hB] at hi; simp at hi; omega)) hdis
  rw [hB, List.nil_append, packerAfter_nil] at hloop
  rw [packBits, hloop, run_bind_ok, flushByte]
  by_cases hk : B.length % 8 = 0
  · rw [if_neg (by simp [packerAfter, hk])]
    refine ⟨_, rfl, ?_, rfl, ?_⟩
    · simp only [packerAfter, ceilDiv]; omega
    · simp only [packerAfter]
      rw [List.take_of_length_le]
      rw [bitsBytes_length, ceilDiv]; omega
  · rw [if_pos (by simp only [packerAfter]; omega)]
    rw [emitByte_ok _ _ _ _ (by simp only [packerAfter]; omega) (hok _ (by simp only [packerAfter]; omega))]
    refine ⟨_, rfl, by simp only [packerAfter, ceilDiv]; omega, rfl, ?_⟩
    have hl : B.length / 8 < (bitsBytes B).length := by rw [bitsBytes_length, ceilDiv]; omega
    have hbs : bitsBytes B = (bitsBytes B).take (B.length / 8) ++ [(bitsBytes B)[B.length / 8]] := by
      rw [List.take_append_getElem, List.take_of_length_le]
      rw [bitsBytes_length, ceilDiv]; omega
    have hlen : ((bitsBytes B).take (B.length / 8)).length = B.length / 8 := by
      rw [List.length_take]; omega
    have hlast : (bitsBytes B)[B.length / 8] = pendingByte B := by
      refine BitVec.eq_of_getLsbD_eq fun i hi => ?_
      simp only [bitsBytes, List.getElem_map, List.getElem_range, pendingByte, getLsbD_ofNat_natOfBits]
      by_cases hir : i < B.length % 8
      · simp [hi, hir]
      · simp only [hi, hir, decide_true, decide_false, Bool.true_and, Bool.false_and]
        exact List.getD_eq_default _ _ (by omega)
    conv_rhs => rw [hbs, Memory.writeList_append, hlen, hlast]
    rfl

/-! ### Where the packer stops -/

/-- `Emit` of output byte `o` raises `e` (R170). -/
def emitStops (mm : List Region) (da dc o : Nat) (e : Stop) : Prop := ∀ p : Packer, p.o = o → emitByte mm da dc p = .error e

theorem emitStops_full (mm : List Region) (da dc : Nat) : emitStops mm da dc dc (.inflight .dstOverflow 0) :=
  fun p h => emitByte_full mm da dc p (by omega)

theorem emitStops_bad (mm : List Region) (da dc o : Nat) (hfit : o < dc) (hbad : memOK mm (da + o) = false) :
    emitStops mm da dc o (.inflight .busError (da + o)) := by
  intro p h
  rw [emitByte, decide_eq_false (by omega), raiseIf_false, run_bind_ok, h, dmaWrite_error _ _ _ _ hbad, run_bind_error]

/-- The bits of a code, where the byte they complete cannot be emitted. -/
theorem pushBits_stops (mm : List Region) (m : Memory) (da dc o : Nat) (e : Stop) (new bits : List Bool)
    (hstop : emitStops mm da dc o e) (hlo : bits.length / 8 ≤ o) (hhi : o < (bits.length + new.length) / 8) (hdc : o ≤ dc)
    (hok : ∀ i < o, memOK mm (da + i) = true) : pushBits mm da dc (packerAfter m da bits) new = .error e := by
  induction new generalizing bits with
  | nil => rw [List.length_nil] at hhi; omega
  | cons b new ih =>
    rw [List.length_cons] at hhi
    by_cases h : (bits.length + 1) / 8 ≤ o
    · rw [pushBits, pushBit_packerAfter mm m da dc bits b (by omega) fun i hi => hok i (by omega)]
      exact ih (bits ++ [b]) (by simpa using h) (by simp only [List.length_append, List.length_singleton]; omega)
    · rw [pushBits, pushBit]
      dsimp only
      rw [if_pos (by simp only [packerAfter]; omega), hstop _ (by simp only [packerAfter]; omega)]

/-- The stream loop over the first bytes, then over the others. -/
theorem packLoop_add (mm : List Region) (code : CodeTable) (da dc i n a : Nat) (p : Packer) :
    packLoop mm code da dc (i + n) a p =
      match packLoop mm code da dc i a p with
      | .error e => .error e
      | .ok q => packLoop mm code da dc n (a + i) q := by
  induction i generalizing a p with
  | zero => simp [packLoop]
  | succ i ih =>
    rw [show i + 1 + n = i + n + 1 by omega, packLoop, packLoop]
    split
    · rfl
    · split
      · rfl
      · split
        · rfl
        · rw [ih, show a + 1 + i = a + (i + 1) by omega]

/-- The stream loop, where a byte its first `n` source bytes complete cannot be emitted, whatever source bytes follow. -/
theorem packLoop_stops (mm : List Region) (code : CodeTable) (m : Memory) (da dc o n k a : Nat) (e : Stop) (bits : List Bool)
    (hsrc : ∀ i < n, memOK mm (a + i) = true)
    (hcode : ∀ b ∈ Memory.readList m a n, (symGet code b).isSome = true) (hstop : emitStops mm da dc o e)
    (hlo : bits.length / 8 ≤ o) (hhi : o < (bits.length + (codeBits code (Memory.readList m a n)).length) / 8) (hdc : o ≤ dc)
    (hok : ∀ i < o, memOK mm (da + i) = true) (hdis : ∀ i < n, ¬(da ≤ a + i ∧ a + i < da + dc)) :
    packLoop mm code da dc (n + k) a (packerAfter m da bits) = .error e := by
  induction n generalizing a bits with
  | zero => simp only [readList_zero, codeBits, List.flatMap_nil, List.length_nil] at hhi; omega
  | succ n ih =>
    rw [readList_succ] at hcode hhi
    simp only [codeBits, List.flatMap_cons, List.length_append] at hhi
    have hread : Memory.read (packerAfter m da bits).mem a = Memory.read m a := by
      refine Memory.read_writeList_outside _ _ _ _ fun h => hdis 0 (by omega) ⟨by omega, ?_⟩
      simp only [List.length_take, bitsBytes_length] at h
      omega
    obtain ⟨c, hc⟩ := Option.isSome_iff_exists.mp (hcode _ (List.mem_cons_self ..))
    rw [show n + 1 + k = n + k + 1 by omega, packLoop, dmaRead_ok _ _ a (hsrc 0 (by omega)), hread]
    dsimp only
    rw [hc]
    dsimp only
    simp only [hc, Option.getD_some] at hhi
    by_cases h : (bits.length + c.length) / 8 ≤ o
    · rw [pushBits_packerAfter mm m da dc c bits (by omega) fun i hi => hok i (by omega)]
      exact ih (a + 1) (bits ++ c) (fun i hi => by rw [show a + 1 + i = a + (i + 1) by omega]; exact hsrc _ (by omega))
        (fun b hb => hcode b (List.mem_cons_of_mem _ hb)) (by simpa using h)
        (by simp only [codeBits, List.length_append]; omega)
        (fun i hi => by rw [show a + 1 + i = a + (i + 1) by omega]; exact hdis _ (by omega))
    · rw [pushBits_stops mm m da dc o e c bits hstop hlo (by omega) hdc hok]

/-- R170: `PackBits`, where output byte `o`, which the first `n` source bytes complete or the flush emits, cannot be emitted. -/
theorem packBits_stops (mm : List Region) (code : CodeTable) (m : Memory) (sa sl da dc o n : Nat) (e : Stop) (hn : n ≤ sl)
    (hsrc : ∀ i < n, memOK mm (sa + i) = true)
    (hcode : ∀ b ∈ Memory.readList m sa n, (symGet code b).isSome = true) (hstop : emitStops mm da dc o e)
    (hhi : o < (codeBits code (Memory.readList m sa n)).length / 8 ∨
      (n = sl ∧ o < ceilDiv (codeBits code (Memory.readList m sa n)).length 8)) (hdc : o ≤ dc)
    (hok : ∀ i < o, memOK mm (da + i) = true) (hdis : ∀ i < n, ¬(da ≤ sa + i ∧ sa + i < da + dc)) :
    packBits mm code m sa sl da dc = .error e := by
  rw [packBits, ← packerAfter_nil m da]
  by_cases h : o < (codeBits code (Memory.readList m sa n)).length / 8
  · rw [show sl = n + (sl - n) by omega, packLoop_stops mm code m da dc o n (sl - n) sa e [] hsrc hcode hstop (by simp)
      (by simpa using h) hdc hok hdis, run_bind_error]
  · obtain ⟨rfl, hlt⟩ := hhi.resolve_left h
    rw [ceilDiv] at hlt
    rw [packLoop_packerAfter mm code m da dc n sa [] hsrc hcode (by rw [List.length_nil]; omega)
      (fun i hi => hok i (by rw [List.length_nil] at hi; omega)) hdis, List.nil_append, run_bind_ok, flushByte,
      if_pos (by simp only [packerAfter]; omega)]
    exact hstop _ (by simp only [packerAfter]; omega)

/-- R170: `PackBits` up to source byte `i`, the bytes before it packed: there the loop takes that byte. -/
theorem packBits_at (mm : List Region) (code : CodeTable) (m : Memory) (sa sl da dc i : Nat) (hi : i < sl)
    (hsrc : ∀ k < i, memOK mm (sa + k) = true)
    (hcode : ∀ b ∈ Memory.readList m sa i, (symGet code b).isSome = true)
    (hfit : (codeBits code (Memory.readList m sa i)).length / 8 ≤ dc)
    (hok : ∀ k < (codeBits code (Memory.readList m sa i)).length / 8, memOK mm (da + k) = true)
    (hdis : ∀ k < sl, ¬(da ≤ sa + k ∧ sa + k < da + dc)) :
    packBits mm code m sa sl da dc =
      (packLoop mm code da dc (sl - i - 1 + 1) (sa + i) (packerAfter m da (codeBits code (Memory.readList m sa i))) >>=
        flushByte mm da dc) ∧
      Memory.read (packerAfter m da (codeBits code (Memory.readList m sa i))).mem (sa + i) = Memory.read m (sa + i) := by
  constructor
  · rw [packBits, ← packerAfter_nil m da, show sl = i + (sl - i - 1 + 1) by omega, packLoop_add,
      packLoop_packerAfter mm code m da dc i sa [] hsrc hcode (by simpa using hfit) (by simpa using hok)
        (fun k hk => hdis k (by omega)), List.nil_append, show i + (sl - i - 1 + 1) - i - 1 + 1 = sl - i - 1 + 1 by omega]
  · refine Memory.read_writeList_outside _ _ _ _ fun h => hdis i hi ⟨h.1, ?_⟩
    simp only [List.length_take, bitsBytes_length] at h
    omega

/-- R74, R170: `PackBits`, where source byte `i` does not respond and the bytes before it are packed. -/
theorem packBits_srcBad (mm : List Region) (code : CodeTable) (m : Memory) (sa sl da dc i : Nat) (hi : i < sl)
    (hsrc : ∀ k < i, memOK mm (sa + k) = true) (hbad : memOK mm (sa + i) = false)
    (hcode : ∀ b ∈ Memory.readList m sa i, (symGet code b).isSome = true)
    (hfit : (codeBits code (Memory.readList m sa i)).length / 8 ≤ dc)
    (hok : ∀ k < (codeBits code (Memory.readList m sa i)).length / 8, memOK mm (da + k) = true)
    (hdis : ∀ k < sl, ¬(da ≤ sa + k ∧ sa + k < da + dc)) :
    packBits mm code m sa sl da dc = .error (.inflight .busError (sa + i)) := by
  rw [(packBits_at mm code m sa sl da dc i hi hsrc hcode hfit hok hdis).1, packLoop, dmaRead_error _ _ _ hbad]
  rfl

/-- R170: `PackBits`, where source byte `i` has no code and the bytes before it are packed. -/
theorem packBits_noCode (mm : List Region) (code : CodeTable) (m : Memory) (sa sl da dc i : Nat) (hi : i < sl)
    (hsrc : ∀ k < i + 1, memOK mm (sa + k) = true) (hnone : symGet code (Memory.read m (sa + i)) = none)
    (hcode : ∀ b ∈ Memory.readList m sa i, (symGet code b).isSome = true)
    (hfit : (codeBits code (Memory.readList m sa i)).length / 8 ≤ dc)
    (hok : ∀ k < (codeBits code (Memory.readList m sa i)).length / 8, memOK mm (da + k) = true)
    (hdis : ∀ k < sl, ¬(da ≤ sa + k ∧ sa + k < da + dc)) :
    packBits mm code m sa sl da dc = .error (.inflight .noCode (sa + i)) := by
  obtain ⟨h, hread⟩ := packBits_at mm code m sa sl da dc i hi (fun k hk => hsrc k (by omega)) hcode hfit hok hdis
  rw [h, packLoop, dmaRead_ok _ _ _ (hsrc i (by omega)), hread]
  dsimp only
  rw [hnone]
  rfl

/-! ### The decoder -/

/-- Payload bit `j` of the bytes from `sa` (R191). -/
def payloadBit (m : Memory) (sa j : Nat) : Bool := (Memory.read m (sa + j / 8)).getLsbD (j % 8)

/-- The bits of bytes read in order are the payload's bits. -/
theorem bytesBits_readList (m : Memory) (sa sl : Nat) :
    bytesBits (Memory.readList m sa sl) = (List.range (8 * sl)).map (payloadBit m sa) := by
  induction sl generalizing sa with
  | zero => rfl
  | succ sl ih =>
    rw [readList_succ, bytesBits, List.flatMap_cons, ← bytesBits, ih (sa + 1), show 8 * (sl + 1) = 8 + 8 * sl by omega,
      List.range_add, List.map_append]
    refine congrArg₂ (· ++ ·) ?_ ?_
    · refine List.map_congr_left fun k hk => ?_
      rw [List.mem_range] at hk
      rw [payloadBit, Nat.div_eq_of_lt hk, Nat.mod_eq_of_lt hk, Nat.add_zero]
    · rw [List.map_map]
      refine List.map_congr_left fun k _ => ?_
      simp only [Function.comp, payloadBit]
      rw [show (8 + k) / 8 = k / 8 + 1 by omega, show (8 + k) % 8 = k % 8 by omega, show sa + (k / 8 + 1) = sa + 1 + k / 8 by omega]

/-- Bit `k` of a payload whose bits begin with `B`. -/
theorem payloadBit_of_bytesBits (m : Memory) (sa n : Nat) (B tail : List Bool) (h : bytesBits (Memory.readList m sa n) = B ++ tail)
    (k : Nat) (hk : k < B.length) : payloadBit m sa k = B[k] := by
  rw [bytesBits_readList] at h
  have hlen : 8 * n = B.length + tail.length := by simpa using congrArg List.length h
  have := congrArg (fun l => l[k]?) h
  simp only [List.getElem?_append_left hk] at this
  rw [List.getElem?_map, List.getElem?_range (by omega), List.getElem?_eq_getElem hk] at this
  exact Option.some.inj this

/-- From index `i` the path goes through internal nodes to a leaf of the symbol. -/
def reaches (ar : Arena) : Nat → List Bool → Byte → Prop
  | _, [], _ => False
  | i, [b], sym => ∃ k w, childOf (nodeAt ar i) b = some k ∧ nodeAt ar k = .leaf sym w
  | i, b :: c :: path, sym =>
    ∃ k l r w, childOf (nodeAt ar i) b = some k ∧ nodeAt ar k = .internal l r w ∧ reaches ar k (c :: path) sym

/-- A cursor that has emitted `syms` over the memory `m`. -/
structure CursorAt (m : Memory) (sa da : Nat) (c : Cursor) (syms : List Byte) : Prop where
  mem : c.mem = Memory.writeList m da syms
  cnt : c.cnt = syms.length
  byte : c.j % 8 ≠ 0 → c.byte = Memory.read m (sa + c.j / 8)

/-- The byte of the next bit, where it responds and lies outside the bytes emitted. -/
theorem fetchByte_ok (mm : List Region) (m : Memory) (sa da : Nat) (c : Cursor) (syms : List Byte) (hc : CursorAt m sa da c syms)
    (hok : memOK mm (sa + c.j / 8) = true) (hdis : ¬(da ≤ sa + c.j / 8 ∧ sa + c.j / 8 < da + syms.length)) :
    fetchByte mm sa c = .ok (Memory.read m (sa + c.j / 8)) := by
  rw [fetchByte]
  split
  · rw [dmaRead_ok _ _ _ hok, hc.mem, Memory.read_writeList_outside _ _ _ _ hdis]
  · rw [hc.byte ‹_›]

/-- One path: its bits are consumed, its leaf's symbol is emitted, and the cursor is at the root again. -/
theorem decodeLoop_path (mm : List Region) (ar : Arena) (root : Nat) (m : Memory) (sa sl da n : Nat) (path : List Bool) (sym : Byte)
    (syms : List Byte) (fuel : Nat) (c : Cursor) (hr : reaches ar c.cur path sym) (hc : CursorAt m sa da c syms)
    (hn : syms.length < n) (hbits : ∀ k (h : k < path.length), payloadBit m sa (c.j + k) = path[k])
    (hcap : c.j + path.length ≤ 8 * sl) (hsrc : ∀ q, q * 8 < c.j + path.length → memOK mm (sa + q) = true)
    (hdst : memOK mm (da + syms.length) = true) (hdis : ∀ q < sl, ¬(da ≤ sa + q ∧ sa + q < da + n)) :
    ∃ d, decodeLoop mm ar root sa sl da n (fuel + path.length) c = decodeLoop mm ar root sa sl da n fuel d ∧ d.cur = root ∧
      d.j = c.j + path.length ∧ CursorAt m sa da d (syms ++ [sym]) := by
  induction path generalizing c with
  | nil => exact hr.elim
  | cons b path ih =>
    simp only [List.length_cons] at hcap hsrc ⊢
    have hj : c.j / 8 < sl := by omega
    have hf : fetchByte mm sa c = .ok (Memory.read m (sa + c.j / 8)) :=
      fetchByte_ok mm m sa da c syms hc (hsrc _ (by omega)) fun h => hdis _ hj ⟨h.1, by omega⟩
    have hb : (Memory.read m (sa + c.j / 8)).getLsbD (c.j % 8) = b := by
      have := hbits 0 (by simp)
      simpa [payloadBit] using this
    have hnext : (c.j + 1) % 8 ≠ 0 → Memory.read m (sa + c.j / 8) = Memory.read m (sa + (c.j + 1) / 8) := by
      intro h
      rw [show (c.j + 1) / 8 = c.j / 8 by omega]
    rw [show fuel + (path.length + 1) = fuel + path.length + 1 by omega, decodeLoop, if_neg (by rw [hc.cnt]; omega),
      if_neg (by omega), decodeBit, hf, run_bind_ok, hb]
    cases path with
    | nil =>
      obtain ⟨k, w, hk, hl⟩ := hr
      rw [hk]
      dsimp only
      rw [hl]
      dsimp only
      rw [dmaWrite_ok _ _ _ _ (by rw [hc.cnt]; exact hdst), run_bind_ok]
      refine ⟨_, rfl, rfl, rfl, ?_, ?_, hnext⟩
      · dsimp only
        rw [hc.mem, hc.cnt, Memory.writeList_append]; rfl
      · dsimp only
        rw [hc.cnt, List.length_append, List.length_singleton]
    | cons b' path =>
      obtain ⟨k, l, r, w, hk, hl, hr'⟩ := hr
      rw [hk]
      dsimp only
      rw [hl]
      dsimp only
      have hbits' : ∀ k (h : k < (b' :: path).length), payloadBit m sa (c.j + 1 + k) = (b' :: path)[k] := by
        intro k h
        have := hbits (k + 1) (by simpa using h)
        rw [show c.j + 1 + k = c.j + (k + 1) by omega, this, List.getElem_cons_succ]
      obtain ⟨d, hd, h₁, h₂, h₃⟩ := ih { c with cur := k, j := c.j + 1, byte := Memory.read m (sa + c.j / 8) } hr'
        ⟨hc.mem, hc.cnt, hnext⟩ hbits' (by dsimp only; simp only [List.length_cons] at hcap ⊢; omega)
        (fun q hq => hsrc q (by dsimp only at hq; simp only [List.length_cons] at hq ⊢; omega))
      refine ⟨d, hd, h₁, ?_, h₃⟩
      rw [h₂]
      dsimp only
      omega

/-- Paths one after the other. -/
theorem decodeLoop_paths (mm : List Region) (ar : Arena) (root : Nat) (m : Memory) (sa sl da n : Nat) (xs : List LeafPath)
    (syms : List Byte) (fuel : Nat) (c : Cursor) (hcur : c.cur = root) (hr : ∀ x ∈ xs, reaches ar root x.path x.sym)
    (hc : CursorAt m sa da c syms) (hn : syms.length + xs.length ≤ n)
    (hbits : ∀ k (h : k < (xs.flatMap fun x => x.path).length), payloadBit m sa (c.j + k) = (xs.flatMap fun x => x.path)[k])
    (hcap : c.j + (xs.flatMap fun x => x.path).length ≤ 8 * sl)
    (hsrc : ∀ q, q * 8 < c.j + (xs.flatMap fun x => x.path).length → memOK mm (sa + q) = true)
    (hdst : ∀ i < syms.length + xs.length, memOK mm (da + i) = true) (hdis : ∀ q < sl, ¬(da ≤ sa + q ∧ sa + q < da + n)) :
    ∃ d, decodeLoop mm ar root sa sl da n (fuel + (xs.flatMap fun x => x.path).length) c = decodeLoop mm ar root sa sl da n fuel d ∧
      d.cur = root ∧ d.j = c.j + (xs.flatMap fun x => x.path).length ∧ CursorAt m sa da d (syms ++ xs.map fun x => x.sym) := by
  induction xs generalizing c syms with
  | nil => exact ⟨c, by simp, hcur, by simp, by simpa using hc⟩
  | cons x xs ih =>
    simp only [List.flatMap_cons, List.length_append, List.length_cons] at hbits hcap hsrc hdst hn ⊢
    rw [show fuel + (x.path.length + (xs.flatMap fun x => x.path).length) =
      fuel + (xs.flatMap fun x => x.path).length + x.path.length by omega]
    obtain ⟨d, hd, h₁, h₂, h₃⟩ := decodeLoop_path mm ar root m sa sl da n x.path x.sym syms
      (fuel + (xs.flatMap fun x => x.path).length) c (by rw [hcur]; exact hr x (List.mem_cons_self ..)) hc (by omega)
      (fun k h => by rw [hbits k (by omega), List.getElem_append_left h]) (by omega) (fun q hq => hsrc q (by omega))
      (hdst _ (by omega)) hdis
    obtain ⟨e, he, g₁, g₂, g₃⟩ := ih (syms ++ [x.sym]) d h₁ (fun y hy => hr y (List.mem_cons_of_mem _ hy)) h₃
      (by simp only [List.length_append, List.length_singleton]; omega)
      (fun k h => by
        rw [h₂, show c.j + x.path.length + k = c.j + (x.path.length + k) by omega, hbits (x.path.length + k) (by omega),
          List.getElem_append_right (by omega)]
        congr 1; omega)
      (by omega) (fun q hq => hsrc q (by omega))
      (fun i hi => hdst i (by simp only [List.length_append, List.length_singleton] at hi; omega))
    exact ⟨e, by rw [hd, he], g₁, by rw [g₂, h₂]; omega, by simpa using g₃⟩

/-- R190 to R193: `Decode` of a payload that goes along the paths of `n` leaves, whatever follows them. -/
theorem decodePayload_ok (mm : List Region) (ar : Arena) (root : Nat) (m : Memory) (sa sl da : Nat) (xs : List LeafPath)
    (tail : List Bool) (hr : ∀ x ∈ xs, reaches ar root x.path x.sym)
    (hbits : bytesBits (Memory.readList m sa sl) = (xs.flatMap fun x => x.path) ++ tail)
    (hsrc : ∀ q < ceilDiv (xs.flatMap fun x => x.path).length 8, memOK mm (sa + q) = true)
    (hdst : ∀ i < xs.length, memOK mm (da + i) = true) (hdis : ∀ q < sl, ¬(da ≤ sa + q ∧ sa + q < da + xs.length)) :
    ∃ c, decodePayload mm ar root m sa sl da xs.length = .ok c ∧ c.cnt = xs.length ∧
      c.j = (xs.flatMap fun x => x.path).length ∧ c.mem = Memory.writeList m da (xs.map fun x => x.sym) := by
  generalize hB : (xs.flatMap fun x => x.path) = B at *
  have hlen : 8 * sl = B.length + tail.length := by
    have := congrArg List.length hbits
    rw [bytesBits_readList] at this
    simpa using this
  obtain ⟨d, hd, -, h₂, h₃⟩ := decodeLoop_paths mm ar root m sa sl da xs.length xs [] (8 * sl - B.length)
    { cur := root, cnt := 0, j := 0, byte := 0, mem := m } rfl hr ⟨rfl, rfl, fun h => absurd rfl h⟩ (by simp)
    (fun k h => by
      simp only [hB, Nat.zero_add]
      exact payloadBit_of_bytesBits m sa sl B tail hbits k (by rw [hB] at h; exact h))
    (by rw [hB]; dsimp only; omega) (fun q hq => hsrc q (by rw [hB] at hq; dsimp only at hq; simp only [ceilDiv]; omega))
    (fun i hi => hdst i (by simpa using hi)) hdis
  rw [hB, show 8 * sl - B.length + B.length = 8 * sl by omega] at hd
  rw [decodePayload, hd]
  have hcnt : d.cnt = xs.length := by rw [h₃.cnt]; simp
  refine ⟨d, ?_, hcnt, by rw [h₂, hB]; simp, by rw [h₃.mem]; simp⟩
  cases 8 * sl - B.length with
  | zero => rw [decodeLoop, if_pos (by omega)]
  | succ k => rw [decodeLoop, if_pos (by omega)]

/-- A part of a path, short of its leaf: its bits are consumed, nothing is emitted, and what is left of the path lies ahead. -/
theorem decodeLoop_partial (mm : List Region) (ar : Arena) (root : Nat) (m : Memory) (sa sl da n : Nat) (front rest : List Bool)
    (sym : Byte) (syms : List Byte) (fuel : Nat) (c : Cursor) (hrest : rest ≠ []) (hr : reaches ar c.cur (front ++ rest) sym)
    (hc : CursorAt m sa da c syms) (hn : syms.length < n)
    (hbits : ∀ k (h : k < front.length), payloadBit m sa (c.j + k) = front[k])
    (hcap : c.j + front.length ≤ 8 * sl) (hsrc : ∀ q, q * 8 < c.j + front.length → memOK mm (sa + q) = true)
    (hdis : ∀ q < sl, ¬(da ≤ sa + q ∧ sa + q < da + n)) :
    ∃ d, decodeLoop mm ar root sa sl da n (fuel + front.length) c = decodeLoop mm ar root sa sl da n fuel d ∧
      reaches ar d.cur rest sym ∧ d.j = c.j + front.length ∧ CursorAt m sa da d syms := by
  induction front generalizing c with
  | nil => exact ⟨c, rfl, hr, rfl, hc⟩
  | cons b front ih =>
    simp only [List.length_cons] at hcap hsrc ⊢
    have hj : c.j / 8 < sl := by omega
    have hf : fetchByte mm sa c = .ok (Memory.read m (sa + c.j / 8)) :=
      fetchByte_ok mm m sa da c syms hc (hsrc _ (by omega)) fun h => hdis _ hj ⟨h.1, by omega⟩
    have hb : (Memory.read m (sa + c.j / 8)).getLsbD (c.j % 8) = b := by
      have := hbits 0 (by simp)
      simpa [payloadBit] using this
    obtain ⟨b', path, hpath⟩ : ∃ b' path, front ++ rest = b' :: path :=
      List.exists_cons_of_ne_nil (by simp [hrest])
    rw [List.cons_append, hpath] at hr
    obtain ⟨k, l, r, w, hk, hl, hr'⟩ := hr
    rw [show fuel + (front.length + 1) = fuel + front.length + 1 by omega, decodeLoop, if_neg (by rw [hc.cnt]; omega),
      if_neg (by omega), decodeBit, hf, run_bind_ok, hb, hk]
    dsimp only
    rw [hl]
    dsimp only
    obtain ⟨d, hd, h₁, h₂, h₃⟩ := ih { c with cur := k, j := c.j + 1, byte := Memory.read m (sa + c.j / 8) }
      (by rw [hpath]; exact hr')
      ⟨hc.mem, hc.cnt, fun h => by dsimp only at h ⊢; rw [show (c.j + 1) / 8 = c.j / 8 by omega]⟩
      (fun k h => by
        have := hbits (k + 1) (by simpa using h)
        rw [show c.j + 1 + k = c.j + (k + 1) by omega, this, List.getElem_cons_succ])
      (by dsimp only; omega) (fun q hq => hsrc q (by dsimp only at hq; omega))
    refine ⟨d, hd, h₁, ?_, h₃⟩
    rw [h₂]
    dsimp only
    omega

/-- R190 to R193: `Decode` up to a place where whole paths have been taken and a part of one more: the loop stands there, with at
least one bit left of the bound where the payload has a bit left. -/
theorem decodePayload_at (mm : List Region) (ar : Arena) (root : Nat) (m : Memory) (sa sl da n k : Nat) (xs : List LeafPath)
    (sym : Byte) (front rest tail : List Bool) (hr : ∀ x ∈ xs, reaches ar root x.path x.sym) (hrest : rest ≠ [])
    (hl : reaches ar root (front ++ rest) sym) (hk : k ≤ sl)
    (hbits : bytesBits (Memory.readList m sa k) = (xs.flatMap fun x => x.path) ++ (front ++ tail)) (hn : xs.length < n)
    (hsrc : ∀ q, q * 8 < ((xs.flatMap fun x => x.path) ++ front).length → memOK mm (sa + q) = true)
    (hdst : ∀ i < xs.length, memOK mm (da + i) = true) (hdis : ∀ q < sl, ¬(da ≤ sa + q ∧ sa + q < da + n)) :
    ∃ d, decodePayload mm ar root m sa sl da n =
        decodeLoop mm ar root sa sl da n (8 * sl - ((xs.flatMap fun x => x.path) ++ front).length) d ∧
      reaches ar d.cur rest sym ∧ d.j = ((xs.flatMap fun x => x.path) ++ front).length ∧
      CursorAt m sa da d (xs.map fun x => x.sym) := by
  generalize hB : (xs.flatMap fun x => x.path) = B at *
  have hlen : 8 * k = B.length + (front.length + tail.length) := by
    rw [bytesBits_readList] at hbits
    simpa using congrArg List.length hbits
  have hbit := fun j hj => payloadBit_of_bytesBits m sa k (B ++ front) tail (by rw [List.append_assoc]; exact hbits) j hj
  simp only [List.length_append] at hbit hsrc ⊢
  obtain ⟨c, hc, h₁, h₂, h₃⟩ := decodeLoop_paths mm ar root m sa sl da n xs [] (8 * sl - B.length)
    { cur := root, cnt := 0, j := 0, byte := 0, mem := m } rfl hr ⟨rfl, rfl, fun h => absurd rfl h⟩ (by simp; omega)
    (fun j h => by
      rw [hB] at h
      dsimp only
      rw [Nat.zero_add, hbit j (by omega), List.getElem_append_left h]
      simp only [hB])
    (by rw [hB]; dsimp only; omega) (fun q hq => hsrc q (by rw [hB] at hq; dsimp only at hq; omega))
    (fun i hi => hdst i (by simpa using hi)) hdis
  rw [hB, show 8 * sl - B.length + B.length = 8 * sl by omega] at hc
  rw [hB] at h₂
  dsimp only at h₂
  rw [Nat.zero_add] at h₂
  rw [List.nil_append] at h₃
  obtain ⟨d, hd, g₁, g₂, g₃⟩ := decodeLoop_partial mm ar root m sa sl da n front rest sym (xs.map fun x => x.sym)
    (8 * sl - (B.length + front.length)) c hrest (by rw [h₁]; exact hl) h₃ (by simpa using hn)
    (fun j h => by rw [h₂, hbit (B.length + j) (by omega), List.getElem_append_right (by omega)]; congr 1; omega)
    (by omega) (fun q hq => hsrc q (by omega)) hdis
  rw [show 8 * sl - (B.length + front.length) + front.length = 8 * sl - B.length by omega] at hd
  exact ⟨d, by rw [decodePayload, hc, hd], g₁, by rw [g₂, h₂], g₃⟩

/-- R74, R190: `Decode`, where payload byte `k` is needed and does not respond. -/
theorem decodePayload_srcBad (mm : List Region) (ar : Arena) (root : Nat) (m : Memory) (sa sl da n k : Nat) (xs : List LeafPath)
    (sym : Byte) (front rest : List Bool) (hr : ∀ x ∈ xs, reaches ar root x.path x.sym) (hrest : rest ≠ [])
    (hl : reaches ar root (front ++ rest) sym) (hk : k < sl)
    (hbits : bytesBits (Memory.readList m sa k) = (xs.flatMap fun x => x.path) ++ front) (hn : xs.length < n)
    (hsrc : ∀ q < k, memOK mm (sa + q) = true) (hbad : memOK mm (sa + k) = false)
    (hdst : ∀ i < xs.length, memOK mm (da + i) = true) (hdis : ∀ q < sl, ¬(da ≤ sa + q ∧ sa + q < da + n)) :
    decodePayload mm ar root m sa sl da n = .error (.inflight .busError (sa + k)) := by
  have hlen : 8 * k = ((xs.flatMap fun x => x.path) ++ front).length := by
    rw [← hbits, bytesBits_readList]; simp
  obtain ⟨d, hd, -, h₂, h₃⟩ := decodePayload_at mm ar root m sa sl da n k xs sym front rest [] hr hrest hl (by omega)
    (by simpa using hbits) hn (fun q hq => hsrc q (by omega)) hdst hdis
  rw [hd, ← hlen, show 8 * sl - 8 * k = 8 * (sl - k) - 1 + 1 by omega, decodeLoop,
    if_neg (by rw [h₃.cnt, List.length_map]; omega), if_neg (by omega), decodeBit, fetchByte, if_pos (by omega), h₂, ← hlen,
    show 8 * k / 8 = k by omega, dmaRead_error _ _ _ hbad, run_bind_error]

/-- R193: `Decode`, where the payload ends inside a path. -/
theorem decodePayload_truncated (mm : List Region) (ar : Arena) (root : Nat) (m : Memory) (sa sl da n : Nat) (xs : List LeafPath)
    (sym : Byte) (front rest : List Bool) (hr : ∀ x ∈ xs, reaches ar root x.path x.sym) (hrest : rest ≠ [])
    (hl : reaches ar root (front ++ rest) sym)
    (hbits : bytesBits (Memory.readList m sa sl) = (xs.flatMap fun x => x.path) ++ front) (hn : xs.length < n)
    (hsrc : ∀ q < sl, memOK mm (sa + q) = true)
    (hdst : ∀ i < xs.length, memOK mm (da + i) = true) (hdis : ∀ q < sl, ¬(da ≤ sa + q ∧ sa + q < da + n)) :
    decodePayload mm ar root m sa sl da n = .error (.inflight .truncatedPayload 0) := by
  have hlen : 8 * sl = ((xs.flatMap fun x => x.path) ++ front).length := by
    rw [← hbits, bytesBits_readList]; simp
  obtain ⟨d, hd, -, -, h₃⟩ := decodePayload_at mm ar root m sa sl da n sl xs sym front rest [] hr hrest hl (le_refl _)
    (by simpa using hbits) hn (fun q hq => hsrc q (by omega)) hdst hdis
  rw [hd, ← hlen, Nat.sub_self, decodeLoop, if_neg (by rw [h₃.cnt, List.length_map]; omega)]

/-- R74, R190: `Decode`, where the symbol of path `x`, after the paths `xs`, is emitted to a byte that does not respond. -/
theorem decodePayload_dstBad (mm : List Region) (ar : Arena) (root : Nat) (m : Memory) (sa sl da n : Nat) (xs : List LeafPath)
    (x : LeafPath) (tail : List Bool) (hr : ∀ y ∈ xs ++ [x], reaches ar root y.path y.sym)
    (hbits : bytesBits (Memory.readList m sa sl) = ((xs ++ [x]).flatMap fun y => y.path) ++ tail) (hn : xs.length < n)
    (hsrc : ∀ q < ceilDiv ((xs ++ [x]).flatMap fun y => y.path).length 8, memOK mm (sa + q) = true)
    (hdst : ∀ i < xs.length, memOK mm (da + i) = true) (hbad : memOK mm (da + xs.length) = false)
    (hdis : ∀ q < sl, ¬(da ≤ sa + q ∧ sa + q < da + n)) :
    decodePayload mm ar root m sa sl da n = .error (.inflight .busError (da + xs.length)) := by
  have hx := hr x (by simp)
  obtain ⟨front, b, hfb⟩ : ∃ front b, x.path = front ++ [b] := by
    rcases List.eq_nil_or_concat x.path with h | ⟨front, b, h⟩
    · rw [h] at hx; exact hx.elim
    · exact ⟨front, b, by simpa using h⟩
  have hbits' : bytesBits (Memory.readList m sa sl) = (xs.flatMap fun y => y.path) ++ (front ++ (b :: tail)) := by
    rw [hbits]; simp [hfb]
  simp only [List.flatMap_append, List.flatMap_cons, List.flatMap_nil, List.append_nil, hfb, List.length_append,
    List.length_singleton, ceilDiv] at hsrc
  have hlen : 8 * sl = ((xs.flatMap fun y => y.path) ++ front).length + (tail.length + 1) := by
    have h := congrArg List.length hbits'
    rw [bytesBits_readList] at h
    simp only [List.length_map, List.length_range, List.length_append, List.length_cons] at h ⊢
    omega
  obtain ⟨d, hd, h₁, h₂, h₃⟩ := decodePayload_at mm ar root m sa sl da n sl xs x.sym front [b] (b :: tail)
    (fun y hy => hr y (by simp [hy])) (by simp) (by rw [← hfb]; exact hx) (le_refl _) hbits' hn
    (fun q hq => hsrc q (by rw [List.length_append] at hq; omega)) hdst hdis
  have hbit : payloadBit m sa d.j = b := by
    rw [h₂, payloadBit_of_bytesBits m sa sl ((xs.flatMap fun y => y.path) ++ front ++ [b]) tail (by rw [hbits']; simp) _ (by simp)]
    simp
  obtain ⟨k, w, hk, hleaf⟩ := h₁
  rw [hd, show 8 * sl - ((xs.flatMap fun y => y.path) ++ front).length = tail.length + 1 by omega, decodeLoop,
    if_neg (by rw [h₃.cnt, List.length_map]; omega), if_neg (by omega), decodeBit,
    fetchByte_ok mm m sa da d _ h₃ (hsrc _ (by rw [h₂, List.length_append]; omega))
      fun h => hdis (d.j / 8) (by omega) ⟨h.1, by simp only [List.length_map] at h; omega⟩, run_bind_ok,
    ← payloadBit, hbit, hk]
  dsimp only
  rw [hleaf]
  dsimp only
  rw [h₃.cnt, List.length_map, dmaWrite_error _ _ _ _ hbad, run_bind_error]

/-- What the walk lists below a stack: each leaf continues the path of a stack entry, along internal nodes. -/
theorem walkTree_reaches (ar : Arena) (n : Nat) (stack : List (Nat × List Bool)) (ls : List LeafPath)
    (h : walkTree ar n stack = .ok ls) (l : LeafPath) (hl : l ∈ ls) :
    ∃ e ∈ stack, (l.path = e.2 ∧ nodeAt ar e.1 = .leaf l.sym l.w) ∨
      ∃ q, l.path = e.2 ++ q ∧ reaches ar e.1 q l.sym := by
  induction n generalizing stack ls with
  | zero =>
    cases stack with
    | nil => rw [walkTree] at h; cases h; cases hl
    | cons e stack => cases h
  | succ n ih =>
    cases stack with
    | nil => rw [walkTree] at h; cases h; cases hl
    | cons e stack =>
      obtain ⟨i, p⟩ := e
      rw [walkTree] at h
      cases hi : nodeAt ar i with
      | absent => rw [hi] at h; cases h
      | leaf sym w =>
        rw [hi] at h
        cases hw : walkTree ar n stack with
        | error e => rw [hw] at h; cases h
        | ok ls' =>
          rw [hw] at h
          cases h
          rcases List.mem_cons.mp hl with rfl | hl
          · exact ⟨(i, p), List.mem_cons_self .., .inl ⟨rfl, hi⟩⟩
          · obtain ⟨e, he, hrest⟩ := ih stack ls' hw hl
            exact ⟨e, List.mem_cons_of_mem _ he, hrest⟩
      | internal left right w =>
        rw [hi] at h
        obtain ⟨e, he, hrest⟩ := ih _ _ h hl
        have child : ∀ b : Bool, e = ((if b then right.toNat else left.toNat), p ++ [b]) →
            ∃ q, l.path = p ++ q ∧ reaches ar i q l.sym := by
          rintro b rfl
          have hch : childOf (nodeAt ar i) b = some (if b then right.toNat else left.toNat) := by rw [hi]; rfl
          rcases hrest with ⟨hp, hleaf⟩ | ⟨q, hp, hreach⟩
          · exact ⟨[b], hp, _, _, hch, hleaf⟩
          · refine ⟨b :: q, by rw [hp]; simp, ?_⟩
            cases q with
            | nil => exact hreach.elim
            | cons b' q =>
              have hint : ∃ l' r' w', nodeAt ar (if b then right.toNat else left.toNat) = .internal l' r' w' := by
                generalize hk : (if b then right.toNat else left.toNat) = k at *
                have hsome : ∃ x, childOf (nodeAt ar k) b' = some x := by
                  cases q with
                  | nil => obtain ⟨x, _, hx, _⟩ := hreach; exact ⟨x, hx⟩
                  | cons b'' q => obtain ⟨x, _, _, _, hx, _⟩ := hreach; exact ⟨x, hx⟩
                obtain ⟨x, hx⟩ := hsome
                cases hnode : nodeAt ar k with
                | absent => rw [hnode] at hx; cases hx
                | leaf s w => rw [hnode] at hx; cases hx
                | internal l' r' w' => exact ⟨l', r', w', rfl⟩
              obtain ⟨l', r', w', hint⟩ := hint
              exact ⟨_, l', r', w', hch, hint, hreach⟩
        rcases List.mem_cons.mp he with rfl | he
        · exact ⟨(i, p), List.mem_cons_self .., .inr (child false rfl)⟩
        · rcases List.mem_cons.mp he with rfl | he
          · exact ⟨(i, p), List.mem_cons_self .., .inr (child true rfl)⟩
          · exact ⟨e, List.mem_cons_of_mem _ he, hrest⟩

/-- Every listed leaf of an arena whose root is no leaf is reached from the root along its path. -/
theorem leafPaths_reaches (ar : Arena) (root : NodeIdx) (ls : List LeafPath) (h : leafPaths ar root = .ok ls)
    (hroot : ∀ sym w, nodeAt ar root.toNat ≠ .leaf sym w) (l : LeafPath) (hl : l ∈ ls) : reaches ar root.toNat l.path l.sym := by
  obtain ⟨e, he, h₁⟩ := walkTree_reaches ar _ _ ls h l hl
  rw [List.mem_singleton] at he
  subst he
  rcases h₁ with ⟨-, hleaf⟩ | ⟨q, hq, hr⟩
  · exact absurd hleaf (hroot _ _)
  · rw [hq, List.nil_append]; exact hr

end Sys2Proof.Machine
end

