-- ==== Sys2Proof/Laws/Tree.lean ====
section
/-! SUPPORT. The forest the merge loop keeps (42_tree_builder.md R143 to R147), and what the depth-first walk lists over a tree
(43_code_generator.md R160, R161). -/

namespace Sys2Proof.Machine

/-! ### The queue -/

theorem argminFrom_mem (ar : List Node) (pq : List Nat) (i : Nat) : argminFrom ar i pq ∈ i :: pq := by
  induction pq generalizing i with
  | nil => exact List.mem_cons_self ..
  | cons j pq ih =>
    rw [argminFrom]
    have h := ih (if keyBelow ar j i then j else i)
    rcases List.mem_cons.mp h with h | h
    · rw [h]; split <;> simp
    · exact List.mem_cons_of_mem _ (List.mem_cons_of_mem _ h)

/-- A queue that is not empty gives up one of its indices. -/
theorem takeMin_mem (ar : List Node) (pq : List Nat) (h : pq ≠ []) : ∃ a ∈ pq, takeMin ar pq = some (a, pq.erase a) := by
  cases pq with
  | nil => exact absurd rfl h
  | cons i pq => exact ⟨_, argminFrom_mem ar pq i, rfl⟩

/-- A queue of two or more gives up two different indices, which become one node. -/
theorem mergeOnce_mem (ar : List Node) (pq : List Nat) (h : 2 ≤ pq.length) (hn : pq.Nodup) : ∃ a ∈ pq, ∃ b ∈ pq, a ≠ b ∧
    mergeOnce ar pq = some (ar ++ [mergedNode ar a b], (pq.erase a).erase b ++ [ar.length]) := by
  obtain ⟨a, ha, h₁⟩ := takeMin_mem ar pq (by intro h'; simp [h'] at h)
  have hl : (pq.erase a).length = pq.length - 1 := List.length_erase_of_mem ha
  obtain ⟨b, hb, h₂⟩ := takeMin_mem ar (pq.erase a) (by intro h'; rw [h', List.length_nil] at hl; omega)
  have hba : b ∈ pq ∧ b ≠ a := by
    have := (hn.mem_erase_iff).mp hb
    exact ⟨this.2, this.1⟩
  exact ⟨a, ha, b, hba.1, fun h => hba.2 h.symm, by rw [mergeOnce, h₁]; simp only [h₂]⟩

/-! ### The forest -/

/-- The arena while it is filled, with `L` leaves: below each queued index hangs a tree, and the leaves of index `i`'s tree are `U i`. -/
structure Forest (ar : List Node) (pq : List Nat) (L W : Nat) (U : Nat → List Nat) : Prop where
  leaves : ∀ i < L, ∃ sym w, ar.getD i .absent = .leaf sym w
  internals : ∀ i, L ≤ i → i < ar.length → ∃ l r w, ar.getD i .absent = .internal l r w ∧ l.toNat < i ∧ r.toNat < i ∧
    w.toNat = weightAt ar l.toNat + weightAt ar r.toNat ∧ U i = U l.toNat ++ U r.toNat
  under_leaf : ∀ i < L, U i = [i]
  size : ar.length + pq.length = 2 * L
  enough : L ≤ ar.length
  nodup : pq.Nodup
  bound : ∀ i ∈ pq, i < ar.length
  cover : (pq.flatMap U).Perm (List.range L)
  one_parent : ∀ i < ar.length, i ∉ pq → ∃! p : Nat × Bool, childOf (ar.getD p.1 .absent) p.2 = some i
  no_parent : ∀ i ∈ pq, ∀ p : Nat × Bool, childOf (ar.getD p.1 .absent) p.2 ≠ some i
  weight : (pq.map (weightAt ar)).sum = W

theorem getD_append_lt {α : Type} (l : List α) (x d : α) (i : Nat) (h : i < l.length) : (l ++ [x]).getD i d = l.getD i d := by
  rw [List.getD_eq_getElem?_getD, List.getElem?_append_left h, List.getD_eq_getElem?_getD]

theorem getD_append_eq {α : Type} (l : List α) (x d : α) : (l ++ [x]).getD l.length d = x := by
  rw [List.getD_eq_getElem?_getD, List.getElem?_append_right (Nat.le_refl _), Nat.sub_self]; rfl

theorem weightAt_append (ar : List Node) (x : Node) (i : Nat) (h : i < ar.length) : weightAt (ar ++ [x]) i = weightAt ar i := by
  rw [weightAt, weightAt, getD_append_lt _ _ _ _ h]

theorem childOf_getD_lt (ar : List Node) (p : Nat × Bool) (i : Nat) (h : childOf (ar.getD p.1 .absent) p.2 = some i) :
    p.1 < ar.length := by
  by_contra hp
  rw [List.getD_eq_default _ _ (by omega)] at h
  cases h

/-- One merge keeps the forest, with the second index removed on the left and the first on the right. -/
theorem Forest.merge {ar : List Node} {pq : List Nat} {L W : Nat} {U : Nat → List Nat} (F : Forest ar pq L W U)
    (hL : L ≤ 256) (hW : W < 2 ^ 40) {a b : Nat} (ha : a ∈ pq) (hb : b ∈ pq) (hab : a ≠ b) :
    Forest (ar ++ [mergedNode ar a b]) ((pq.erase a).erase b ++ [ar.length]) L W
      (fun i => if i = ar.length then U b ++ U a else U i) := by
  have hla := F.bound a ha
  have hlb := F.bound b hb
  have hb' : b ∈ pq.erase a := F.nodup.mem_erase_iff.mpr ⟨fun h => hab h.symm, hb⟩
  have hlen : ((pq.erase a).erase b).length = pq.length - 2 := by
    rw [List.length_erase_of_mem hb', List.length_erase_of_mem ha]; omega
  have h2 : 2 ≤ pq.length := by
    have h₁ := List.length_erase_of_mem ha
    have h₂ := List.length_pos_of_mem hb'
    omega
  have hsize := F.size
  have hn : ar.length < 512 := by omega
  have hperm : pq.Perm (b :: a :: (pq.erase a).erase b) :=
    ((List.perm_cons_erase ha).trans ((List.perm_cons_erase hb').cons a)).trans (List.Perm.swap b a _)
  have hmem : ∀ i, i ∈ (pq.erase a).erase b ↔ i ∈ pq ∧ i ≠ a ∧ i ≠ b := by
    intro i
    rw [(F.nodup.erase a).mem_erase_iff, F.nodup.mem_erase_iff]; tauto
  have hsum : weightAt ar b + (weightAt ar a + (((pq.erase a).erase b).map (weightAt ar)).sum) = W := by
    rw [← F.weight, (hperm.map (weightAt ar)).sum_eq]; simp
  have hwt : weightAt (ar ++ [mergedNode ar a b]) ar.length = weightAt ar a + weightAt ar b := by
    rw [weightAt, getD_append_eq, mergedNode, nodeWeight, BitVec.toNat_ofNat, Nat.mod_eq_of_lt (by omega)]
  have hta : (BitVec.ofNat 9 a).toNat = a := by rw [BitVec.toNat_ofNat, Nat.mod_eq_of_lt (by omega)]
  have htb : (BitVec.ofNat 9 b).toNat = b := by rw [BitVec.toNat_ofNat, Nat.mod_eq_of_lt (by omega)]
  have hold : ∀ p : Nat × Bool, p.1 ≠ ar.length →
      childOf ((ar ++ [mergedNode ar a b]).getD p.1 .absent) p.2 = childOf (ar.getD p.1 .absent) p.2 := by
    intro p hp
    by_cases h : p.1 < ar.length
    · rw [getD_append_lt _ _ _ _ h]
    · rw [List.getD_eq_default _ _ (by simp only [List.length_append, List.length_singleton]; omega),
        List.getD_eq_default _ _ (by omega)]
  have hnew : ∀ c : Bool, childOf ((ar ++ [mergedNode ar a b]).getD ar.length .absent) c = some (if c then a else b) := by
    intro c
    rw [getD_append_eq, mergedNode, childOf, hta, htb]
  have hchild : ∀ (p : Nat × Bool) (i : Nat), childOf ((ar ++ [mergedNode ar a b]).getD p.1 .absent) p.2 = some i ↔
      (p = (ar.length, true) ∧ i = a) ∨ (p = (ar.length, false) ∧ i = b) ∨
        (p.1 ≠ ar.length ∧ childOf (ar.getD p.1 .absent) p.2 = some i) := by
    rintro ⟨k, c⟩ i
    by_cases hk : k = ar.length
    · subst hk
      rw [hnew]
      cases c <;> simp [eq_comm]
    · rw [hold _ hk]
      simp [hk]
  constructor
  · intro i hi
    rw [getD_append_lt _ _ _ _ (Nat.lt_of_lt_of_le hi F.enough)]
    exact F.leaves i hi
  · intro i hi hi'
    by_cases hin : i = ar.length
    · subst hin
      rw [getD_append_eq]
      refine ⟨_, _, _, rfl, by rw [htb]; exact hlb, by rw [hta]; exact hla, ?_, ?_⟩
      · rw [htb, hta, weightAt_append _ _ _ hlb, weightAt_append _ _ _ hla, BitVec.toNat_ofNat, Nat.mod_eq_of_lt (by omega)]
        omega
      · simp only [hta, htb, if_pos trivial, if_neg (show ¬a = ar.length by omega), if_neg (show ¬b = ar.length by omega)]
    · simp only [List.length_append, List.length_singleton] at hi'
      obtain ⟨l, r, w, h₁, h₂, h₃, h₄, h₅⟩ := F.internals i hi (by omega)
      rw [getD_append_lt _ _ _ _ (by omega)]
      refine ⟨l, r, w, h₁, h₂, h₃, ?_, ?_⟩
      · rw [weightAt_append _ _ _ (by omega), weightAt_append _ _ _ (by omega)]; exact h₄
      · simp only [if_neg hin, if_neg (show ¬l.toNat = ar.length by omega), if_neg (show ¬r.toNat = ar.length by omega), h₅]
  · intro i hi
    have := F.enough
    simp only [if_neg (show ¬i = ar.length by omega), F.under_leaf i hi]
  · simp only [List.length_append, List.length_singleton, hlen]; omega
  · have := F.enough
    simp only [List.length_append]; omega
  · refine List.nodup_append.mpr ⟨(F.nodup.erase a).erase b, by simp, ?_⟩
    intro x hx y hy
    have := F.bound x ((hmem x).mp hx).1
    rw [List.mem_singleton] at hy; omega
  · intro i hi
    simp only [List.length_append, List.length_singleton]
    rcases List.mem_append.mp hi with hi | hi
    · have := F.bound i ((hmem i).mp hi).1; omega
    · rw [List.mem_singleton] at hi; omega
  · rw [List.flatMap_append]
    have h₁ : ((pq.erase a).erase b).flatMap (fun i => if i = ar.length then U b ++ U a else U i) =
        ((pq.erase a).erase b).flatMap U := by
      refine List.flatMap_congr fun i hi => ?_
      have := F.bound i ((hmem i).mp hi).1
      rw [if_neg (by omega)]
    rw [h₁]
    simp only [List.flatMap_cons, List.flatMap_nil, List.append_nil, if_true]
    refine List.Perm.trans List.perm_append_comm (List.Perm.trans ?_ F.cover)
    have h₂ := (hperm.flatMap_right U).symm
    simpa [List.append_assoc] using h₂
  · intro i hi hiq
    simp only [List.length_append, List.length_singleton] at hi
    have hiq' : ¬(i ∈ pq ∧ i ≠ a ∧ i ≠ b) ∧ i ≠ ar.length := by
      constructor
      · intro h; exact hiq (List.mem_append_left _ ((hmem i).mpr h))
      · intro h; exact hiq (List.mem_append_right _ (by rw [h]; exact List.mem_singleton_self _))
    have hlt : i < ar.length := by omega
    by_cases hip : i ∈ pq
    · have hab' : i = a ∨ i = b := by tauto
      rcases hab' with rfl | rfl
      · refine ⟨(ar.length, true), (hchild _ _).mpr (.inl ⟨rfl, rfl⟩), fun p hp => ?_⟩
        rcases (hchild p i).mp hp with ⟨h, -⟩ | ⟨-, h⟩ | ⟨-, h⟩
        · exact h
        · exact absurd h hab
        · exact absurd h (F.no_parent i ha p)
      · refine ⟨(ar.length, false), (hchild _ _).mpr (.inr (.inl ⟨rfl, rfl⟩)), fun p hp => ?_⟩
        rcases (hchild p i).mp hp with ⟨-, h⟩ | ⟨h, -⟩ | ⟨-, h⟩
        · exact absurd h.symm hab
        · exact h
        · exact absurd h (F.no_parent i hb p)
    · obtain ⟨p, hp, hu⟩ := F.one_parent i hlt hip
      have hne : p.1 ≠ ar.length := by have := childOf_getD_lt ar p i hp; omega
      refine ⟨p, (hchild p i).mpr (.inr (.inr ⟨hne, hp⟩)), fun p' hp' => ?_⟩
      rcases (hchild p' i).mp hp' with ⟨-, h⟩ | ⟨-, h⟩ | ⟨-, h⟩
      · exact absurd (h ▸ ha) hip
      · exact absurd (h ▸ hb) hip
      · exact hu p' h
  · intro i hi p hp
    rcases List.mem_append.mp hi with hi | hi
    · obtain ⟨h₁, h₂, h₃⟩ := (hmem i).mp hi
      rcases (hchild p i).mp hp with ⟨-, h⟩ | ⟨-, h⟩ | ⟨-, h⟩
      · exact h₂ h
      · exact h₃ h
      · exact F.no_parent i h₁ p h
    · rw [List.mem_singleton] at hi
      rcases (hchild p i).mp hp with ⟨-, h⟩ | ⟨-, h⟩ | ⟨-, h⟩
      · omega
      · omega
      · have hlt := childOf_getD_lt ar p i h
        have hinn : L ≤ p.1 := by
          by_contra hp'
          obtain ⟨sym, w, hl⟩ := F.leaves p.1 (by omega)
          rw [hl] at h; cases h
        obtain ⟨l, r, w, h₁, h₂, h₃, -⟩ := F.internals p.1 hinn hlt
        rw [h₁, childOf, Option.some.injEq] at h
        split at h <;> omega
  · rw [List.map_append, List.sum_append]
    have h₁ : ((pq.erase a).erase b).map (weightAt (ar ++ [mergedNode ar a b])) = ((pq.erase a).erase b).map (weightAt ar) :=
      List.map_congr_left fun i hi => weightAt_append _ _ _ (F.bound i ((hmem i).mp hi).1)
    rw [h₁]
    simp only [List.map_cons, List.map_nil, List.sum_cons, List.sum_nil, hwt]
    omega

/-- The merge loop ends with one tree over all the leaves. -/
theorem mergeLoop_forest (n : Nat) (ar : List Node) (pq : List Nat) (L W : Nat) (U : Nat → List Nat) (F : Forest ar pq L W U)
    (hL : L ≤ 256) (hW : W < 2 ^ 40) (hn : pq.length = n + 1) :
    ∃ root U', Forest (mergeLoop n ar pq) [root] L W U' := by
  induction n generalizing ar pq U with
  | zero =>
    obtain ⟨root, rfl⟩ := List.length_eq_one_iff.mp hn
    exact ⟨root, U, F⟩
  | succ n ih =>
    obtain ⟨a, ha, b, hb, hab, hm⟩ := mergeOnce_mem ar pq (by omega) F.nodup
    rw [mergeLoop, hm]
    refine ih _ _ _ (F.merge hL hW ha hb hab) ?_
    have hb' : b ∈ pq.erase a := F.nodup.mem_erase_iff.mpr ⟨fun h => hab h.symm, hb⟩
    rw [List.length_append, List.length_erase_of_mem hb', List.length_erase_of_mem ha, List.length_singleton]
    omega

/-- The leaves alone are a forest. -/
theorem forest_leaves (ls : List Node) (h : ∀ x ∈ ls, ∃ sym w, x = .leaf sym w) :
    Forest ls (List.range ls.length) ls.length (((List.range ls.length).map (weightAt ls)).sum) (fun i => [i]) := by
  have hleaf : ∀ i < ls.length, ∃ sym w, ls.getD i .absent = .leaf sym w := by
    intro i hi
    rw [List.getD_eq_getElem _ _ hi]
    exact h _ (List.getElem_mem hi)
  have hno : ∀ (p : Nat × Bool) (i : Nat), childOf (ls.getD p.1 .absent) p.2 ≠ some i := by
    intro p i hp
    obtain ⟨sym, w, hl⟩ := hleaf p.1 (childOf_getD_lt ls p i hp)
    rw [hl] at hp; cases hp
  constructor
  · exact hleaf
  · intro i hi hi'; omega
  · intro i _; rfl
  · simp; omega
  · exact Nat.le_refl _
  · exact List.nodup_range
  · intro i hi; exact List.mem_range.mp hi
  · rw [List.flatMap_singleton']
  · intro i hi hiq; exact absurd (List.mem_range.mpr hi) hiq
  · intro i _ p; exact hno p i
  · rfl

/-! ### The walk -/

/-- What the walk lists for a leaf of index `k` below index `i` with path `p`. -/
structure WalkedLeaf (ar : Arena) (i : Nat) (p : List Bool) (d : Nat) (l : LeafPath) (k : Nat) : Prop where
  node : nodeAt ar k = .leaf l.sym l.w
  path : ∃ q, l.path = p ++ q ∧ followPath ar i q = some k ∧ q.length < d

/-- The walk over one index of a forest lists the leaves below it, each with its path, and goes on with the rest of the stack. -/
theorem walkTree_forest {ar : List Node} {pq : List Nat} {L W : Nat} {U : Nat → List Nat} (F : Forest ar pq L W U)
    (har : ar.length ≤ 511) (i : Nat) (hi : i < ar.length) (p : List Bool) :
    1 ≤ (U i).length ∧ ∃ ls : List LeafPath,
      List.Forall₂ (WalkedLeaf (arenaOf ar) i p (U i).length) ls (U i) ∧
      ∀ n stack rest, walkTree (arenaOf ar) n stack = .ok rest →
        walkTree (arenaOf ar) (n + (2 * (U i).length - 1)) ((i, p) :: stack) = .ok (ls ++ rest) := by
  induction i using Nat.strong_induction_on generalizing p with
  | _ i ih =>
    by_cases hiL : i < L
    · obtain ⟨sym, w, hl⟩ := F.leaves i hiL
      have hnode : nodeAt (arenaOf ar) i = .leaf sym w := by rw [nodeAt_arenaOf ar har, hl]
      rw [F.under_leaf i hiL]
      refine ⟨by simp, [⟨sym, w, p⟩], ?_, ?_⟩
      · refine List.Forall₂.cons ⟨hnode, [], by simp, rfl, by simp⟩ List.Forall₂.nil
      · intro n stack rest hrest
        show walkTree (arenaOf ar) (n + 1) _ = _
        rw [walkTree, hnode]
        simp only [hrest]
        rfl
    · obtain ⟨l, r, w, hn, hlt, hrt, -, hU⟩ := F.internals i (by omega) hi
      have hnode : nodeAt (arenaOf ar) i = .internal l r w := by rw [nodeAt_arenaOf ar har, hn]
      obtain ⟨hl1, lsl, hfl, hwl⟩ := ih l.toNat hlt (by omega) (p ++ [false])
      obtain ⟨hr1, lsr, hfr, hwr⟩ := ih r.toNat hrt (by omega) (p ++ [true])
      rw [hU]
      have ext : ∀ (c : Bool) (j : Nat) (d : Nat), childOf (nodeAt (arenaOf ar) i) c = some j →
          d + 1 ≤ (U l.toNat ++ U r.toNat).length → ∀ (x : LeafPath) (k : Nat), WalkedLeaf (arenaOf ar) j (p ++ [c]) d x k →
          WalkedLeaf (arenaOf ar) i p (U l.toNat ++ U r.toNat).length x k := by
        rintro c j d hj hd x k ⟨h₁, q, h₂, h₃, h₄⟩
        refine ⟨h₁, c :: q, by rw [h₂]; simp, ?_, by simp only [List.length_cons]; omega⟩
        rw [followPath, hj]
        exact h₃
      refine ⟨by rw [List.length_append]; omega, lsl ++ lsr, ?_, ?_⟩
      · refine List.rel_append ?_ ?_
        · exact hfl.imp fun x k h => ext false l.toNat _ (by rw [hnode]; rfl) (by rw [List.length_append]; omega) x k h
        · exact hfr.imp fun x k h => ext true r.toNat _ (by rw [hnode]; rfl) (by rw [List.length_append]; omega) x k h
      · intro n stack rest hrest
        have h₁ := hwr n stack rest hrest
        have h₂ := hwl _ _ _ h₁
        rw [List.length_append]
        rw [show n + (2 * ((U l.toNat).length + (U r.toNat).length) - 1) =
          n + (2 * (U r.toNat).length - 1) + (2 * (U l.toNat).length - 1) + 1 by omega, walkTree, hnode]
        simp only [h₂, List.append_assoc]

/-- The walk of a whole tree lists every leaf once, each with its path from the root. -/
theorem leafPaths_forest {ar : List Node} {root L W : Nat} {U : Nat → List Nat} (F : Forest ar [root] L W U) (hL : L ≤ 256)
    (r : NodeIdx) (hr : r.toNat = root) :
    (U root).Perm (List.range L) ∧ ∃ ls, leafPaths (arenaOf ar) r = .ok ls ∧
      List.Forall₂ (WalkedLeaf (arenaOf ar) root [] L) ls (U root) := by
  have hcover : (U root).Perm (List.range L) := by simpa using F.cover
  have hlen : (U root).length = L := by rw [hcover.length_eq, List.length_range]
  have hsize := F.size
  simp only [List.length_singleton] at hsize
  obtain ⟨h1, ls, hf, hw⟩ := walkTree_forest F (by omega) root (F.bound root (List.mem_singleton_self _)) []
  refine ⟨hcover, ls, ?_, by rw [← hlen]; exact hf⟩
  have := hw (511 - (2 * (U root).length - 1)) [] [] (by cases 511 - (2 * (U root).length - 1) <;> rfl)
  rw [List.append_nil, Nat.sub_add_cancel (by omega)] at this
  rw [leafPaths, hr]
  exact this

/-! ### The tree of a frequency table -/

/-- The merge loop leaves the entries it starts from alone. -/
theorem mergeLoop_getD (n : Nat) (ar : List Node) (pq : List Nat) (i : Nat) (hi : i < ar.length) :
    (mergeLoop n ar pq).getD i .absent = ar.getD i .absent := by
  induction n generalizing ar pq with
  | zero => rfl
  | succ n ih =>
    rw [mergeLoop]
    cases hm : mergeOnce ar pq with
    | none => rfl
    | some x =>
      obtain ⟨ar', pq'⟩ := x
      have : ∃ x, ar' = ar ++ [x] := by
        rw [mergeOnce] at hm
        split at hm
        · cases hm
        · split at hm
          · cases hm
          · cases hm; exact ⟨_, rfl⟩
      obtain ⟨x, rfl⟩ := this
      dsimp only
      rw [ih _ _ (by rw [List.length_append]; omega), getD_append_lt _ _ _ _ hi]

/-- The last tree's root is the last entry made. -/
theorem Forest.root_eq {ar : List Node} {root L W : Nat} {U : Nat → List Nat} (F : Forest ar [root] L W U) (hL : 1 ≤ L) :
    root = 2 * L - 2 := by
  have hsize := F.size
  simp only [List.length_singleton] at hsize
  by_contra hne
  obtain ⟨p, hp, -⟩ := F.one_parent (2 * L - 2) (by omega) (by rw [List.mem_singleton]; exact fun h => hne h.symm)
  have hlt := childOf_getD_lt ar p _ hp
  by_cases hpL : p.1 < L
  · obtain ⟨sym, w, hl⟩ := F.leaves p.1 hpL
    rw [hl] at hp; cases hp
  · obtain ⟨l, r, w, h₁, h₂, h₃, -⟩ := F.internals p.1 (by omega) hlt
    rw [h₁, childOf, Option.some.injEq] at hp
    split at hp <;> omega

theorem allSymbols_length : allSymbols.length = 256 := by simp [allSymbols]

theorem presentSymbols_length_le (f : FreqTable) : (presentSymbols f).length ≤ 256 := by
  rw [← allSymbols_length]; exact List.length_filter_le _ _

theorem mem_presentSymbols (f : FreqTable) (s : Byte) : s ∈ presentSymbols f ↔ symGet f s ≠ 0 := by
  simp [presentSymbols, mem_allSymbols]

/-- The alphabet is empty exactly when no symbol is present. -/
theorem allZero_iff (f : FreqTable) : allZero f = true ↔ presentSymbols f = [] := by
  rw [allZero, toList_eq_map_symGet, List.all_eq_true]
  constructor
  · intro h
    refine List.eq_nil_iff_forall_not_mem.mpr fun s hs => (mem_presentSymbols f s).mp hs ?_
    simpa using h _ (List.mem_map_of_mem (mem_allSymbols s))
  · intro h x hx
    obtain ⟨s, -, rfl⟩ := List.mem_map.mp hx
    by_contra hne
    have : s ∈ presentSymbols f := (mem_presentSymbols f s).mpr (by simpa using hne)
    rw [h] at this; cases this

/-- The leaves BUILD makes, the dummy included (R141, R142). -/
theorem withDummy_realLeaves_length (f : FreqTable) : (withDummy (realLeaves f)).length = leafCount f := by
  rw [withDummy, leafCount, realLeaves_eq, List.length_map]
  split
  · rename_i h; rw [List.length_append, List.length_map, List.length_singleton, h]
  · rw [List.length_map]

theorem withDummy_realLeaves_leaf (f : FreqTable) : ∀ x ∈ withDummy (realLeaves f), ∃ sym w, x = .leaf sym w := by
  intro x hx
  have hr : x ∈ realLeaves f → ∃ sym w, x = .leaf sym w := by
    rw [realLeaves_eq]
    intro h
    obtain ⟨s, -, rfl⟩ := List.mem_map.mp h
    exact ⟨_, _, rfl⟩
  rw [withDummy] at hx
  split at hx
  · rcases List.mem_append.mp hx with h | h
    · exact hr h
    · rw [List.mem_singleton] at h; exact ⟨_, _, h⟩
  · exact hr hx

/-- The weights of the leaves sum to the sum of the counts (R147). -/
theorem sum_leaf_weights (f : FreqTable) :
    ((List.range (withDummy (realLeaves f)).length).map (weightAt (withDummy (realLeaves f)))).sum = freqSum f := by
  have hidx : ∀ l : List Node, (List.range l.length).map (weightAt l) = l.map fun x => (nodeWeight x).toNat := by
    intro l
    refine List.ext_getElem (by simp) fun i h₁ h₂ => ?_
    simp only [List.getElem_map, List.getElem_range, weightAt]
    rw [List.getD_eq_getElem _ _ (by simpa using h₂)]
  rw [hidx]
  have hreal : ((realLeaves f).map fun x => (nodeWeight x).toNat).sum = freqSum f := by
    rw [realLeaves_eq, List.map_map, freqSum_eq, presentSymbols]
    have key : ∀ l : List Byte, ((l.filter fun s => symGet f s != 0).map
        ((fun x => (nodeWeight x).toNat) ∘ fun s => Node.leaf s ((symGet f s).setWidth 40))).sum =
        (l.map fun s => (symGet f s).toNat).sum := by
      intro l
      induction l with
      | nil => rfl
      | cons s l ih =>
        have hw : (BitVec.setWidth 40 (symGet f s)).toNat = (symGet f s).toNat := by
          rw [BitVec.toNat_setWidth, Nat.mod_eq_of_lt (by have := (symGet f s).isLt; omega)]
        by_cases h : symGet f s = 0
        · rw [List.filter_cons_of_neg (by simp [h]), ih, List.map_cons, List.sum_cons, h]; simp
        · rw [List.filter_cons_of_pos (by simpa using h), List.map_cons, List.map_cons, List.sum_cons, List.sum_cons, ih]
          simp only [Function.comp, nodeWeight, hw]
    exact key _
  rw [withDummy]
  split
  · rw [List.map_append, List.sum_append, hreal]; rfl
  · exact hreal

theorem freqSum_lt (f : FreqTable) : freqSum f < 2 ^ 40 := by
  have key : ∀ l : List Word, (l.map fun c => c.toNat).sum ≤ l.length * (2 ^ 32 - 1) := by
    intro l
    induction l with
    | nil => simp
    | cons c l ih =>
      have := c.isLt
      simp only [List.map_cons, List.sum_cons, List.length_cons, Nat.add_mul]; omega
  have := key f.toList
  rw [Vector.length_toList] at this
  rw [freqSum]; omega

/-- The tree of a frequency table is the last tree of the merge loop over its leaves. -/
theorem treeOf_forest (f : FreqTable) (T : Tree) (h : treeOf f = some T) :
    ∃ ar U, T.node = arenaOf ar ∧ (2 ≤ leafCount f ∧ leafCount f ≤ 256) ∧ ar.length = 2 * leafCount f - 1 ∧
      T.numLeaves.toNat = leafCount f ∧ T.root.toNat = 2 * leafCount f - 2 ∧ T.nodeCount.toNat = 2 * leafCount f - 1 ∧
      Forest ar [2 * leafCount f - 2] (leafCount f) (freqSum f) U ∧
      ∀ i < leafCount f, ar.getD i .absent = (withDummy (realLeaves f)).getD i .absent := by
  have hz : allZero f = false := by
    cases hz : allZero f with
    | false => rfl
    | true => rw [treeOf, hz] at h; cases h
  have hpos : 1 ≤ (presentSymbols f).length := by
    by_contra hp
    have : presentSymbols f = [] := List.length_eq_zero_iff.mp (by omega)
    rw [(allZero_iff f).mpr this] at hz; cases hz
  have hle := presentSymbols_length_le f
  have hL : 2 ≤ leafCount f ∧ leafCount f ≤ 256 := by
    rw [leafCount]; split <;> omega
  rw [treeOf, hz] at h
  simp only [Bool.false_eq_true, if_false, Option.some.injEq] at h
  have hlen := withDummy_realLeaves_length f
  have F₀ := forest_leaves (withDummy (realLeaves f)) (withDummy_realLeaves_leaf f)
  rw [sum_leaf_weights f, hlen] at F₀
  obtain ⟨root, U, F⟩ := mergeLoop_forest (leafCount f - 1) _ _ _ _ _ F₀ hL.2 (freqSum_lt f) (by rw [List.length_range]; omega)
  have hroot := F.root_eq (by omega)
  subst hroot
  have hsize := F.size
  rw [List.length_singleton] at hsize
  have har : arenaList (withDummy (realLeaves f)) =
      mergeLoop (leafCount f - 1) (withDummy (realLeaves f)) (List.range (leafCount f)) := by rw [arenaList, hlen]
  have hal : (arenaList (withDummy (realLeaves f))).length = 2 * leafCount f - 1 := by rw [har]; omega
  subst h
  refine ⟨arenaList (withDummy (realLeaves f)), U, rfl, hL, hal, ?_, ?_, ?_, by rw [har]; exact F, fun i hi => ?_⟩
  · simp only [hlen, BitVec.toNat_ofNat]; rw [Nat.mod_eq_of_lt (by omega)]
  · simp only [hal, BitVec.toNat_ofNat]; rw [Nat.mod_eq_of_lt (by omega)]; omega
  · simp only [hal, BitVec.toNat_ofNat]; rw [Nat.mod_eq_of_lt (by omega)]
  · rw [har, mergeLoop_getD _ _ _ _ (by omega)]

end Sys2Proof.Machine
end

