-- ==== Sys2Proof/Tests/Slice0.lean ====
section
/-! SUPPORT. Small tests whose expected values are spec/95_test_vectors.md's (named in each comment) or worked by hand from the rule
named, and, for each statement with hypotheses, a concrete state that meets all of them together. -/

namespace Sys2Proof.Machine.Test

set_option Elab.async false

/-! ### Helpers -/

/-- The outcome is a next state with the property. -/
def nextWith (o : Host.Outcome State Fault Refusal) (p : State → Bool) : Bool :=
  match o with
  | .next t => p t
  | .fault _ => false
  | .refused _ => false

/-- Reset, with bytes in memory and the two windows. -/
def at_ (a : Nat) (bs : List Byte) (sa sl da dc : Word) : State :=
  { State.reset with mem := Memory.writeList [] a bs, srcAddr := sa, srcLen := sl, dstAddr := da, dstCap := dc }

/-- A frequency table with the listed counts. -/
def freqs (l : List (Byte × Word)) : FreqTable := l.foldl (fun f p => symSet f p.1 p.2) zeroFreq

/-- A state over a frequency table whose tree is built. -/
def built (f : FreqTable) (s : State) : State :=
  match treeOf f with
  | some T => { installTree s T with freq := f }
  | none => s

/-- A state over a built tree whose codes are generated. -/
def coded (f : FreqTable) (s : State) : State :=
  let t := built f s
  match codesFor t.node t.root with
  | some c => { t with code := c, codesValid := true }
  | none => t

def abraBytes : List Byte := [0x61, 0x62, 0x72, 0x61, 0x63, 0x61, 0x64, 0x61, 0x62, 0x72, 0x61]

def abraFreq : FreqTable := freqs [(0x61, 5), (0x62, 2), (0x63, 1), (0x64, 1), (0x72, 2)]

def aaab : State := at_ 0x1000 [0x41, 0x41, 0x41, 0x42] 0x1000 4 0x2000 0x1000

/-! ### Decoding: the words of 30_encoding.md R91 and R93, bit 31 first as the table writes them -/

theorem test_decode_nop : decode 0b00000000000000000000000000000000#32 = .ok .nop := by rfl
theorem test_decode_clear : decode 0b00000000000000000000000000000001#32 = .ok .clear := by rfl
theorem test_decode_count : decode 0b00000000000000000000000000000010#32 = .ok .count := by rfl
theorem test_decode_build : decode 0b00000000000000000000000000000011#32 = .ok .build := by rfl
theorem test_decode_gencode : decode 0b00000000000000000000000000000100#32 = .ok .gencode := by rfl
theorem test_decode_pack : decode 0b00000000000000000000000000000101#32 = .ok .pack := by rfl
theorem test_decode_hdrWrite : decode 0b00000000000000000000000000000110#32 = .ok .hdrWrite := by rfl
theorem test_decode_hdrParse : decode 0b00000000000000000000000000000111#32 = .ok .hdrParse := by rfl
theorem test_decode_unpack : decode 0b00000000000000000000000000001000#32 = .ok .unpack := by rfl
theorem test_decode_compress : decode 0b00000000000000000000000000001001#32 = .ok .compress := by rfl
theorem test_decode_decompress : decode 0b00000000000000000000000000001010#32 = .ok .decompress := by rfl

/-- L2-A3, L2-A4: a reserved opcode, and a reserved bit over a good opcode. -/
theorem test_decode_illegal : decode 0x0000000B = .error .reservedOpcode ∧ decode 0x00000109 = .error .reservedBits := by
  exact ⟨rfl, rfl⟩

theorem test_tableWord : decodeTableWord 32 9 = some .compress ∧ decodeTableWord 32 0x109 = none := by decide

/-! ### WellFormed: an ill-formed term for each check -/

/-- 20_memory.md R78: a byte access, and a word access at offset 0x06. -/
theorem test_wf_bus : (BusTxn.w 0x10 1 5).wf = false ∧ (BusTxn.r 0x06 4).wf = false ∧ (BusTxn.r 0x08 4).wf = true := by decide

/-- 20_memory.md R70: two bytes at the last address. -/
theorem test_wf_statements : (HostStmt.memw 0xFFFFFFFF [1, 2]).wf = false ∧ (HostStmt.memr 0xFFFFFFFF 2 "x").wf = false ∧
    (HostStmt.busWrite 0x11 4 0).wf = false ∧ (HostStmt.busRead 0x10 2 0).wf = false ∧
    (HostStmt.memr 0xFFFFFFFF 1 "x").wf = true := by decide

theorem test_wf_region : (Region.mk 0xFFFFFFFF 2).wf = false ∧ (Region.mk 0xFFFFFFFF 1).wf = true := by decide

theorem test_wf_memory : Memory.wf [(2, 1), (1, 1)] = false ∧ Memory.wf [(1, 0)] = false ∧ Memory.wf [(1, 1), (2, 1)] = true := by
  decide

/-! ### Memory -/

/-- The canonical form: a write of what an unlisted byte reads as takes the entry away. -/
theorem test_memory_canonical : Memory.write (Memory.write [] 5 7) 5 0 = [] ∧
    Memory.write (Memory.write [] 9 1) 4 2 = [(4, 2), (9, 1)] := by decide

/-! ### Commands -/

/-- L2-A1. -/
theorem test_nop : nextWith (exec .nop (issue State.reset 0)) (fun t => statusWord t == 2 && t.outLen == 0) = true := by decide

/-- L2-A2: every table and table-derived register is cleared, OVR stays (R121). -/
theorem test_clear :
    nextWith (exec .clear { issue (coded abraFreq State.reset) 1 with ovr := true, bitCnt := 23 })
      (fun t => statusWord t == 0xA && symGet t.freq 0x61 == 0 && symGet t.code 0x61 == none && nodeAt t.node 8 == .absent
        && t.bitCnt == 0 && t.root == 0) = true := by
  decide +kernel

/-- L2-B1. -/
theorem test_count :
    nextWith (exec .count (issue aaab 2)) (fun t => statusWord t == 2 && symGet t.freq 0x41 == 3 && symGet t.freq 0x42 == 1
      && symGet t.freq 0x43 == 0 && t.origLen == 4) = true := by
  decide +kernel

/-- L2-H4: BUS_ERROR at the byte that does not respond. -/
theorem test_count_busError :
    nextWith (exec .count (issue { aaab with memMap := [⟨0, 0x1002⟩] } 2))
      (fun t => statusWord t == 0x404 && t.errAddr == 0x1002 && t.outLen == 0) = true := by
  decide +kernel

/-- L2-B4: the arena of "abracadabra". -/
theorem test_build :
    nextWith (exec .build (issue { State.reset with freq := abraFreq } 3))
      (fun t => nodeAt t.node 4 == .leaf 0x72 2 && nodeAt t.node 5 == .internal 3 2 2 && nodeAt t.node 6 == .internal 4 1 4
        && nodeAt t.node 7 == .internal 6 5 6 && nodeAt t.node 8 == .internal 7 0 11 && nodeAt t.node 9 == .absent
        && t.root == 8 && t.numLeaves == 5 && t.nodeCount == 9 && statusWord t == 0x10002) = true := by
  decide +kernel

/-- L2-B8: a weight wider than 32 bits; and L2-B7: the dummy beside real symbol 0. -/
theorem test_build_wide :
    nextWith (exec .build (issue { State.reset with freq := freqs [(0, 0xFFFFFFFF), (1, 0xFFFFFFFF)] } 3))
      (fun t => nodeAt t.node 2 == .internal 1 0 0x1FFFFFFFE) = true ∧
    nextWith (exec .build (issue { State.reset with freq := freqs [(0, 3)] } 3))
      (fun t => nodeAt t.node 0 == .leaf 0 3 && nodeAt t.node 1 == .leaf 0 0 && nodeAt t.node 2 == .internal 0 1 3) = true := by
  decide +kernel

/-- L2-C2: the codes of "abracadabra", and its encoded size. -/
theorem test_gencode :
    nextWith (exec .gencode (issue (built abraFreq State.reset) 4))
      (fun t => symGet t.code 0x61 == some [true] && symGet t.code 0x62 == some [false, false, true]
        && symGet t.code 0x63 == some [false, true, true] && symGet t.code 0x64 == some [false, true, false]
        && symGet t.code 0x72 == some [false, false, false] && symGet t.code 0 == none && t.bitCnt == 23
        && statusWord t == 0x30002) = true := by
  decide +kernel

/-- L2-C5: the real leaf's code stands, not the dummy's. -/
theorem test_gencode_dummy :
    nextWith (exec .gencode (issue (built (freqs [(0, 3)]) State.reset) 4))
      (fun t => symGet t.code 0 == some [false] && t.bitCnt == 3) = true := by
  decide +kernel

/-- L2-D1. -/
theorem test_pack :
    nextWith (exec .pack (issue (coded abraFreq (at_ 0x1000 abraBytes 0x1000 11 0x5000 3)) 5))
      (fun t => Memory.readList t.mem 0x5000 4 == [0x89, 0xAE, 0x44, 0] && t.outLen == 3 && t.bitCnt == 23) = true := by
  decide +kernel

/-- L2-D3: NO_CODE at the second byte. -/
theorem test_pack_noCode :
    nextWith (exec .pack (issue (coded (freqs [(0x41, 3), (0x42, 1)]) (at_ 0x1000 [0x41, 0x43] 0x1000 2 0x5000 9)) 5))
      (fun t => statusWord t == 0x30804 && t.errAddr == 0x1001) = true := by
  decide +kernel

/-- L2-E1: the header of L1-1. -/
theorem test_hdrWrite :
    nextWith (exec .hdrWrite (issue { at_ 0 [] 0 0 0x6000 1028 with freq := freqs [(0x41, 3), (0x42, 1)], origLen := 4 } 6))
      (fun t => t.mem == [(0x6000, 4), (0x6108, 3), (0x610C, 1)] && t.outLen == 1028) = true := by
  decide +kernel

/-- L2-E2. -/
theorem test_hdrWrite_small :
    nextWith (exec .hdrWrite (issue (at_ 0 [] 0 0 0x6000 1027) 6)) (fun t => statusWord t == 0x904 && t.mem == []) = true := by
  decide

/-- L2-E3. -/
theorem test_hdrParse :
    nextWith (exec .hdrParse (issue { at_ 0 [] 0x2000 1028 0 0 with mem := [(0x2000, 4), (0x2108, 3), (0x210C, 1)] } 7))
      (fun t => t.origLen == 4 && symGet t.freq 0x41 == 3 && symGet t.freq 0x42 == 1 && symGet t.freq 0 == 0
        && statusWord t == 2) = true := by
  decide +kernel

/-- L2-E7: a sum that would match only if it wrapped at 32 bits. -/
theorem test_hdrParse_wrappingSum :
    nextWith (exec .hdrParse (issue { at_ 0x2000 ([0xFE, 0xFF, 0xFF, 0xFF] ++ List.replicate 8 0xFF) 0x2000 1028 0 0 with
      treeValid := true } 7)) (fun t => statusWord t == 0xA04) = true := by
  decide +kernel

/-- L2-F: padding bits are ignored. -/
theorem test_unpack :
    nextWith (exec .unpack (issue { coded abraFreq (at_ 0x100 [0x89, 0xAE, 0xC4] 0x100 3 0x200 16) with origLen := 11 } 8))
      (fun t => Memory.readList t.mem 0x200 11 == abraBytes && t.bitCnt == 23 && t.outLen == 11 && statusWord t == 0x30002)
      = true := by
  decide +kernel

/-- L2-F1: the dummy leaf emits 0. -/
theorem test_unpack_dummy :
    nextWith (exec .unpack (issue { built (freqs [(0x41, 10)]) (at_ 0x100 [0x05] 0x100 1 0x200 16) with origLen := 3 } 8))
      (fun t => t.mem == [(0x100, 5), (0x201, 0x41)] && t.bitCnt == 3) = true := by
  decide +kernel

/-- P1 and L1-1: the archive of 41 41 41 42. -/
theorem test_compress :
    nextWith (exec .compress (issue aaab 9))
      (fun t => t.mem == aaab.mem ++ [(0x2000, 4), (0x2108, 3), (0x210C, 1), (0x2404, 8)] && t.outLen == 1029
        && t.bitCnt == 4 && statusWord t == 0x30002 && t.origLen == 4 && t.nodeCount == 3) = true := by
  decide +kernel

/-- L2-G2, of the shorter source: a buffer one byte too small. -/
theorem test_compress_small :
    nextWith (exec .compress (issue { aaab with dstCap := 1028 } 9)) (fun t => statusWord t == 0x904 && t.outLen == 0)
      = true := by
  decide +kernel

/-- P2: the archive of P1 decoded. -/
theorem test_decompress :
    nextWith (exec .decompress (issue { at_ 0 [] 0x2000 1029 0x3000 0x100 with
        mem := [(0x2000, 4), (0x2108, 3), (0x210C, 1), (0x2404, 8)] } 10))
      (fun t => Memory.readList t.mem 0x3000 5 == [0x41, 0x41, 0x41, 0x42, 0] && t.outLen == 4 && t.bitCnt == 4
        && statusWord t == 0x10002) = true := by
  decide +kernel

/-! ### Registers, steps, agents -/

/-- L2-C2, L2-B4: the readback of a code and of a node. -/
theorem test_readback :
    regValue { coded abraFreq State.reset with codeIdx := 0x63 } .codeBits = 6 ∧
    regValue { coded abraFreq State.reset with codeIdx := 0x62 } .codeInfo = 0x80000003 ∧
    regValue { coded abraFreq State.reset with nodeIdx := 7 } .nodeInfo = 0x80050006 ∧
    regValue { coded abraFreq State.reset with nodeIdx := 2 } .nodeInfo = 0xC0000063 ∧
    regValue { coded abraFreq State.reset with nodeIdx := 511 } .nodeInfo = 0 := by
  decide +kernel

/-- P5, both orders: the write lands, or it is dropped and OVR is set. -/
theorem test_writeWhileBusy :
    nextWith (step { issue State.reset 0 with host := [.wr .srcAddr 0x55], schedule := [.engine] })
      (fun t => nextWith (step t) fun u => u.srcAddr == 0x55 && statusWord u == 2) = true ∧
    nextWith (step { issue State.reset 0 with host := [.wr .srcAddr 0x55], schedule := [.host] })
      (fun t => t.srcAddr == 0 && t.ovr && nextWith (step t) fun u => statusWord u == 0xA) = true := by
  decide

/-- 70_reset_and_hazards.md R251: a reset over a running command. -/
theorem test_reset_busy :
    nextWith (step { issue aaab 2 with schedule := [.reset], irqEn := 7 })
      (fun t => statusWord t == 0 && t.srcLen == 0 && t.irqEn == 0 && t.mem == aaab.mem) = true := by
  decide

/-- 20_memory.md R84: a host write into the source window of a running command is refused. -/
theorem test_hostDuty :
    step { issue aaab 2 with schedule := [.host], host := [.memw 0x1003 [7]] } = .refused .hostBreaksDuty := by
  rfl

/-- The written form: P4's last statements. -/
theorem test_assemble :
    assemble "WR FREQ_IDX, 0x41 ; one symbol
WR FREQ_DATA, 2
RUN BUILD
RD NODE_COUNT -> t2
MEMW 0x1000, 41 4B
MEMR 0x3000, 4 -> out
ACK" = some [.wr .freqIdx 0x41, .wr .freqData 2, .cmd .build, .wait, .rd .nodeCount 2, .memw 0x1000 [0x41, 0x4B],
      .memr 0x3000 4 "out", .wr .status 0xE] := by
  decide +kernel

/-- R102: HUFF.DECOMPRESS, as P2 writes its bus transactions. -/
theorem test_assemble_pseudo :
    (assemble "HUFF.DECOMPRESS 0x2000, 1029, 0x3000, 0x100").map (fun p => p.flatMap busTransactions) =
      some [.w 0x10 4 0x2000, .w 0x14 4 0x405, .w 0x18 4 0x3000, .w 0x1C 4 0x100, .w 0x04 4 0xA, .r 0x08 4] := by
  decide +kernel


/-! ### Witnesses: for each statement of Obligations.lean with hypotheses, states and operands that meet them -/

/-- A part of a command answers a value with the property. -/
def okWith {α : Type} (r : Run α) (p : α → Bool) : Bool :=
  match r with
  | .ok a => p a
  | .error _ => false

theorem okWith_spec {α : Type} {r : Run α} {p : α → Prop} [DecidablePred p] (h : okWith r (fun a => decide (p a)) = true) :
    ∃ a, r = .ok a ∧ p a := by
  cases r with
  | error e => cases h
  | ok a => exact ⟨a, rfl, of_decide_eq_true h⟩

theorem nextWith_spec {o : Host.Outcome State Fault Refusal} {p : State → Prop} [DecidablePred p]
    (h : nextWith o (fun t => decide (p t)) = true) : ∃ t, o = .next t ∧ p t := by
  cases o with
  | next t => exact ⟨t, rfl, of_decide_eq_true h⟩
  | fault f => cases h
  | refused q => cases h

/-- An option holds a value with the property. -/
def someWith {α : Type} (r : Option α) (p : α → Bool) : Bool :=
  match r with
  | some a => p a
  | none => false

theorem someWith_spec {α : Type} {r : Option α} {p : α → Prop} [DecidablePred p]
    (h : someWith r (fun a => decide (p a)) = true) : ∃ a, r = some a ∧ p a := by
  cases r with
  | none => cases h
  | some a => exact ⟨a, rfl, of_decide_eq_true h⟩

theorem built_current {f : FreqTable} {s : State} (h : (treeOf f).isSome = true) :
    (built f s).treeValid = true ∧ treeCurrent (built f s) := by
  cases e : treeOf f with
  | none => simp [e] at h
  | some T => simp [built, e, installTree, treeCurrent, treeRegs]

theorem built_regs {f : FreqTable} {s t : State} (h : (treeOf f).isSome = true) :
    (built f s).node = (built f t).node ∧ (built f s).root = (built f t).root := by
  cases e : treeOf f with
  | none => simp [e] at h
  | some T => simp [built, e, installTree]

theorem coded_current {f : FreqTable} {s : State} (h : (coded f s).codesValid = true) (ht : (treeOf f).isSome = true) :
    (coded f s).treeValid = true ∧ treeCurrent (coded f s) ∧ codesCurrent (coded f s) := by
  cases e : treeOf f with
  | none => simp [e] at ht
  | some T =>
    cases e' : codesFor T.node T.root <;>
      simp_all [coded, built, installTree, treeCurrent, treeRegs, codesCurrent]

theorem abraFreq_isSome : (treeOf abraFreq).isSome = true := by decide +kernel

theorem codesFit_of {s : State} (h : ∀ n < 256, ((symGet s.code (BitVec.ofNat 8 n)).getD []).length ≤ 255) : codesFit s := by
  intro x bits e
  have h' := h x.toNat x.isLt
  rw [BitVec.ofNat_toNat, BitVec.setWidth_eq, e] at h'
  exact h'

/-- The leaves an abracadabra payload goes along. -/
def abraLeaves (s : State) (bs : List Byte) : List LeafPath :=
  bs.map fun b => ⟨b, (symGet s.freq b).setWidth 40, (symGet s.code b).getD []⟩

/-- P1's header. -/
def aaabHeader : Memory := [(0x2000, 4), (0x2108, 3), (0x210C, 1), (0x2404, 8)]

def unpackState : State := { coded abraFreq (at_ 0x100 [0x89, 0xAE, 0xC4] 0x100 3 0x200 11) with origLen := 11 }

theorem unpackState_current : unpackState.treeValid = true ∧ treeCurrent unpackState := by
  have c : (coded abraFreq (at_ 0x100 [0x89, 0xAE, 0xC4] 0x100 3 0x200 11)).codesValid = true := by decide +kernel
  exact ⟨(coded_current c abraFreq_isSome).1, (coded_current c abraFreq_isSome).2.1⟩

def packState (dc : Word) : State := coded abraFreq (at_ 0x1000 abraBytes 0x1000 11 0x5000 dc)

def aaabLeaves : List LeafPath := [⟨0x41, 3, [false]⟩, ⟨0x41, 3, [false]⟩, ⟨0x41, 3, [false]⟩, ⟨0x42, 1, [true]⟩]

def archiveState (sl dc : Word) : State := { at_ 0 [] 0x2000 sl 0x3000 dc with mem := aaabHeader }

/-- Each clause at its boundary: bit 8 set, opcode 0x0B, the word 0, and the last opcode of the table. -/
theorem witness_IllegalWordCompletesWithIllegalCmd :
    ((issueNow State.reset 0x100).busy = true ∧ (issueNow State.reset 0x100).schedule = .engine :: [] ∧
      (issueNow State.reset 0x100).cmd.extractLsb' 8 24 ≠ 0) ∧
    0x0A < ((issueNow State.reset 0x0B).cmd.extractLsb' 0 8).toNat ∧ (issueNow State.reset 0).cmd = 0 ∧
    ¬((issueNow State.reset 0x0A).cmd.extractLsb' 8 24 ≠ 0 ∨ 0x0A < ((issueNow State.reset 0x0A).cmd.extractLsb' 0 8).toNat) := by
  decide

theorem witness_StepRunsTheDecodedCommand :
    (issue aaab 2).busy = true ∧ decode (issue aaab 2).cmd = .ok .count ∧ (issue aaab 2).schedule = [] ∧
    (issueNow aaab 10).schedule = .engine :: [] ∧ decode (issueNow aaab 10).cmd = .ok .decompress := ⟨rfl, rfl, rfl, rfl, rfl⟩

/-- STATUS over a running command, and over none; the last offset; a HOST named by the schedule and one that steps because none is, each
with a statement and without. -/
theorem witness_StatementsRunAsTheirBusTransactions :
    ((regRead (issue aaab 2) 0x08).1.getLsbD 0 = true ∧ (regRead aaab 0x08).1.getLsbD 0 = false ∧ (0xFC#8).toNat % 4 = 0) ∧
    { issue aaab 2 with host := [.wait], schedule := [.host] }.host = .wait :: [] ∧
    { issue aaab 2 with host := [.wait], schedule := [.host] }.schedule = .host :: [] ∧
    { aaab with host := [.wait] }.host = .wait :: [] ∧ aaab.schedule = [] ∧ aaab.busy = false ∧ aaab.host = [] ∧
    { aaab with schedule := [.host] }.schedule = .host :: [] :=
  ⟨by decide, rfl, rfl, rfl, rfl, rfl, rfl, rfl⟩

/-- 30_encoding.md R100, 40_control.md R113: the HOST's step stores into a register, and reads it back into a temporary. -/
theorem test_hostStep :
    nextWith (step { State.reset with host := [.wr .srcLen 9, .rd .srcLen 3] })
      (fun t => t.srcLen == 9 && nextWith (step t) fun u => u.temps == [(3, 9)] && u.host == []) = true := by decide

/-- For every statement or clause whose only hypothesis is BUSY = 0: IdReadsItsConstant, WriteToCmdIssuesAnyWord, RegisterReadReturnsItsValue,
WrittenRegisterReadsBackItsDefinedBits, StatusLayoutAndWriteOneToClear, FreqDataReadsAndWritesTheSelectedCount, IrqFollowsTheEnabledStatusBits; and for the last one a state with
the line raised. -/
theorem witness_idle : aaab.busy = false ∧ irq { aaab with done := true, irqEn := 1 } = true := ⟨rfl, rfl⟩

theorem witness_WriteWhileBusyOnlySetsOvr :
    (∀ off ∈ [(0#8 : BitVec 8), 0x04, 0x08, 0x64, 0x68, 0xFC], off.toNat % 4 = 0) ∧
    { issue aaab 2 with host := [.busWrite 0xFC 4 7], schedule := [.host] }.busy = true ∧
    { issue aaab 2 with host := [.busWrite 0xFC 4 7], schedule := [.host] }.host = .busWrite 0xFC 4 7 :: [] ∧
    { issue aaab 2 with host := [.busWrite 0xFC 4 7], schedule := [.host] }.schedule = .host :: [] := ⟨by decide, rfl, rfl, rfl⟩

theorem witness_NarrowOrMisalignedAccessIsRefused :
    ¬((1 : Nat) = 4 ∧ (0x10#8).toNat % 4 = 0) ∧ ¬((4 : Nat) = 4 ∧ (0x06#8).toNat % 4 = 0) ∧
    { aaab with host := [.busWrite 0x06 4 7], schedule := [.host] }.schedule = .host :: [] ∧
    { aaab with host := [.busWrite 0x06 4 7], schedule := [.host] }.host = .busWrite 0x06 4 7 :: [] ∧
    { aaab with host := [.busRead 0x10 1 0], schedule := [.host] }.host = .busRead 0x10 1 0 :: [] :=
  ⟨by decide, by decide, rfl, rfl, rfl⟩

/-- The last byte of the source window, the first and last of the destination window, and their neighbours, while COUNT runs. -/
theorem witness_HostMemoryAccessKeepsTheDuty :
    (issue aaab 2).busy = true ∧ (0xFFFFFFFF#32).toNat + 1 ≤ Config.addrEnd ∧
    inSrc (issue aaab 2) 0x1003 = true ∧ inDst (issue aaab 2) 0x2000 = true ∧ inDst (issue aaab 2) 0x2FFF = true ∧
    (inSrc (issue aaab 2) 0x1004 = false ∧ inDst (issue aaab 2) 0x1004 = false ∧ inDst (issue aaab 2) 0x1FFF = false ∧
      inDst (issue aaab 2) 0x3000 = false) := by decide

theorem witness_TablesInv : TablesInv (coded abraFreq State.reset) ∧ (coded abraFreq State.reset).codesValid = true ∧
    (coded abraFreq State.reset).treeValid = true := by
  have c : (coded abraFreq State.reset).codesValid = true := by decide +kernel
  have h := coded_current c abraFreq_isSome
  exact ⟨⟨fun _ => h.1, fun _ => h.2.1, fun _ => h.2.2⟩, c, h.1⟩

/-- Also for EveryCommandCompletes and EveryStepKeepsTheTablesCurrent, over a running GENCODE. -/
theorem witness_WaitEndsWhenTheCommandCompletes :
    let s : State := { issue (coded abraFreq State.reset) 4 with host := [.wait] }
    TablesInv s ∧ s.busy = true ∧ s.schedule = [] ∧ s.host = .wait :: [] ∧ ∃ t, step s = .next t ∧ t.codesValid = true := by
  intro s
  have h := witness_TablesInv.1
  exact ⟨⟨h.coupled, h.tree, h.codes⟩, rfl, by decide +kernel, rfl, nextWith_spec (by decide +kernel)⟩

/-- The first reserved offset and the last, a register readable while BUSY = 1, and one that is not. -/
theorem witness_RegisterReadReturnsItsValue :
    (0x68#8).toNat % 4 = 0 ∧ 0x68 ≤ (0x68#8).toNat ∧ 0x68 ≤ (0xFC#8).toNat ∧ regOffset .nodeWhi = 0x64 ∧
    (regOffset .irqEn).toNat % 4 = 0 ∧ ((issue aaab 2).busy = false ∨ Reg.irqEn = .id ∨ Reg.irqEn = .cmd ∨ Reg.irqEn = .status ∨
      Reg.irqEn = .irqEn) ∧
    ¬((issue aaab 2).busy = false ∨ Reg.srcAddr = .id ∨ Reg.srcAddr = .cmd ∨ Reg.srcAddr = .status ∨ Reg.srcAddr = .irqEn) := by
  decide

/-- Also, with witness_TablesInv, for EveryStepKeepsCodesInTheirWidth. -/
theorem witness_CodeWindowReadsTheSelectedCode :
    (coded abraFreq State.reset).busy = false ∧ codesFit (coded abraFreq State.reset) ∧
    symGet (coded abraFreq State.reset).code 0x61 = some [true] := by
  exact ⟨by decide +kernel, codesFit_of (by decide +kernel), by decide +kernel⟩

/-- An absent entry, index 511, a leaf and an internal node. -/
theorem witness_NodeWindowReadsTheSelectedNode :
    (built abraFreq State.reset).busy = false ∧ nodeAt (built abraFreq State.reset).node 9 = .absent ∧
    { built abraFreq State.reset with nodeIdx := 511 }.nodeIdx = 511 ∧
    nodeAt (built abraFreq State.reset).node 4 = .leaf 0x72 2 ∧ nodeAt (built abraFreq State.reset).node 8 = .internal 7 0 11 := by
  decide +kernel

/-- A source window one byte too long, a destination window one byte too long behind a good source window (and behind a bad one, for
HDR_WRITE), and windows that share one byte. -/
theorem witness_WindowChecksEndTheCommand :
    2 ^ 32 < (at_ 0 [] 0xFFFFFFFF 2 0 0).srcAddr.toNat + (at_ 0 [] 0xFFFFFFFF 2 0 0).srcLen.toNat ∧
    ((at_ 0 [] 0xFFFFFFFF 1 0xFFFFFFFF 2).srcAddr.toNat + (at_ 0 [] 0xFFFFFFFF 1 0xFFFFFFFF 2).srcLen.toNat ≤ 2 ^ 32 ∧
      2 ^ 32 < (at_ 0 [] 0xFFFFFFFF 1 0xFFFFFFFF 2).dstAddr.toNat + (at_ 0 [] 0xFFFFFFFF 1 0xFFFFFFFF 2).dstCap.toNat) ∧
    (let s := at_ 0 [] 0x1000 4 0x1003 9;
      s.srcAddr.toNat + s.srcLen.toNat ≤ 2 ^ 32 ∧ s.dstAddr.toNat + s.dstCap.toNat ≤ 2 ^ 32 ∧ 0 < s.srcLen.toNat ∧
        0 < s.dstCap.toNat ∧ s.srcAddr.toNat < s.dstAddr.toNat + s.dstCap.toNat ∧
        s.dstAddr.toNat < s.srcAddr.toNat + s.srcLen.toNat) := by decide

/-- Each clause at its boundary: no tree, no codes, one byte of output too many, 1027 bytes. -/
theorem witness_PrerequisitesEndTheCommand :
    (windowsOk aaab ∧ aaab.treeValid = false ∧ aaab.codesValid = false) ∧
    (let s := { aaab with treeValid := true, origLen := 0x1001 };
      windowsOk s ∧ s.treeValid = true ∧ s.dstCap.toNat < s.origLen.toNat) ∧
    (let s := at_ 0 [] 0 0 0x2000 1027;
      dstInRange s ∧ s.dstCap.toNat < 1028) ∧
    (let s := at_ 0 [] 0x1000 1027 0x2000 9;
      srcInRange s ∧ windowsOk s ∧ 0 < s.srcLen.toNat ∧ s.srcLen.toNat < 1028) := by decide

/-- The last byte of a header, and of a source of four bytes, does not respond. -/
theorem witness_FirstUnresponsiveByteIsTheBusError :
    (let s := { aaab with memMap := [⟨0, 0x1003⟩] };
      srcInRange s ∧ windowsOk s ∧ 3 < s.srcLen.toNat ∧ firstBad s s.srcAddr.toNat 3) ∧
    (let s := { archiveState 1029 0x100 with memMap := [⟨0, 0x2403⟩] };
      srcInRange s ∧ windowsOk s ∧ 1028 ≤ s.srcLen.toNat ∧ firstBad s s.srcAddr.toNat 1027) ∧
    (let s := { at_ 0 [] 0 0 0x2000 1028 with memMap := [⟨0, 0x2000⟩] };
      dstInRange s ∧ 1028 ≤ s.dstCap.toNat ∧ firstBad s s.dstAddr.toNat 0) := by decide +kernel

/-- The archive's one payload byte; PACK's last source byte; the byte it flushes, and the last one a code completes. -/
theorem witness_FirstUnresponsiveByteIsTheBusError_written :
    (let s := { aaab with dstCap := 1029, memMap := [⟨0, 0x2404⟩] };
      windowsOk s ∧ s.srcLen ≠ 0 ∧ allOK s s.srcAddr.toNat s.srcLen.toNat ∧ (archive (srcBytes s)).length ≤ s.dstCap.toNat ∧
        1028 < (archive (srcBytes s)).length ∧ firstBad s s.dstAddr.toNat 1028) ∧
    (let s := { packState 3 with memMap := [⟨0, 0x100A⟩, ⟨0x5000, 3⟩] };
      windowsOk s ∧ s.codesValid = true ∧ 10 < s.srcLen.toNat ∧ firstBad s s.srcAddr.toNat 10 ∧
        (∀ b ∈ (srcBytes s).take 10, (symGet s.code b).isSome = true) ∧
        (codeBits s.code ((srcBytes s).take 10)).length / 8 ≤ s.dstCap.toNat ∧
        allOK s s.dstAddr.toNat ((codeBits s.code ((srcBytes s).take 10)).length / 8)) ∧
    (let s := { packState 3 with memMap := [⟨0, 0x5002⟩] };
      windowsOk s ∧ s.codesValid = true ∧ allOK s s.srcAddr.toNat 11 ∧ 11 = s.srcLen.toNat ∧
        (∀ b ∈ (srcBytes s).take 11, (symGet s.code b).isSome = true) ∧
        2 < ceilDiv (codeBits s.code (srcBytes s)).length 8 ∧ 2 < s.dstCap.toNat ∧ firstBad s s.dstAddr.toNat 2) ∧
    (let s := { packState 3 with memMap := [⟨0, 0x5001⟩] };
      1 < (codeBits s.code ((srcBytes s).take 8)).length / 8 ∧ firstBad s s.dstAddr.toNat 1) := by decide +kernel

/-- UNPACK's last payload byte, needed after eight symbols, and its last output byte. -/
theorem witness_FirstUnresponsiveByteIsTheBusError_unpack :
    (unpackState.treeValid = true ∧ treeCurrent unpackState) ∧
    (let s := { unpackState with memMap := [⟨0, 0x102⟩, ⟨0x200, 11⟩] };
      windowsOk s ∧ s.origLen.toNat ≤ s.dstCap.toNat ∧ 2 < s.srcLen.toNat ∧ firstBad s s.srcAddr.toNat 2 ∧
        allOK s s.dstAddr.toNat 8 ∧ ∃ ls, leafPaths s.node s.root = .ok ls ∧
          ((∀ x ∈ abraLeaves s (abraBytes.take 8), x ∈ ls) ∧ (abraLeaves s (abraBytes.take 8)).length < s.origLen.toNat ∧
            ⟨0x62, 2, [false, false, true]⟩ ∈ ls ∧
            bytesBits ((srcBytes s).take 2) = ((abraLeaves s (abraBytes.take 8)).flatMap fun x => x.path) ++ [])) ∧
    (startsWith [false, false, true] [] ∧ ([] : List Bool) ≠ [false, false, true]) ∧
    (let s := { unpackState with memMap := [⟨0, 0x20A⟩] };
      windowsOk s ∧ 10 < s.origLen.toNat ∧ firstBad s s.dstAddr.toNat 10 ∧ (abraLeaves s abraBytes).length = 10 + 1 ∧
        bytesBits (srcBytes s) = ((abraLeaves s abraBytes).flatMap fun x => x.path) ++ [true] ∧
        allOK s s.srcAddr.toNat (ceilDiv ((abraLeaves s abraBytes).flatMap fun x => x.path).length 8)) :=
  ⟨unpackState_current, ⟨by decide +kernel, by decide +kernel, by decide +kernel, by decide +kernel, by decide +kernel,
    okWith_spec (by decide +kernel)⟩, ⟨⟨_, rfl⟩, by decide⟩, by decide +kernel⟩

/-- P2 whose one payload byte, or last output byte, does not respond; the header's hypotheses are those of
witness_DecompressCompletesAlongTheLeafPaths. -/
theorem witness_FirstUnresponsiveByteIsTheBusError_decompress :
    (let s := { archiveState 1029 4 with memMap := [⟨0, 0x2404⟩, ⟨0x3000, 4⟩] };
      windowsOk s ∧ 1028 + 0 < s.srcLen.toNat ∧ firstBad s s.srcAddr.toNat (1028 + 0) ∧ allOK s s.dstAddr.toNat 0 ∧
        bytesBits (((srcBytes s).drop 1028).take 0) = [] ++ [] ∧ (aaabLeaves[0]).path ≠ [] ∧
        0 < (headerLen (Memory.readList s.mem s.srcAddr.toNat 1028)).toNat) ∧
    (let s := { archiveState 1029 4 with memMap := [⟨0, 0x3003⟩] };
      windowsOk s ∧ firstBad s s.dstAddr.toNat 3 ∧ aaabLeaves.length = 3 + 1 ∧
        3 < (headerLen (Memory.readList s.mem s.srcAddr.toNat 1028)).toNat ∧
        bytesBits ((srcBytes s).drop 1028) = (aaabLeaves.flatMap fun x => x.path) ++ List.replicate 4 false ∧
        allOK s s.srcAddr.toNat (1028 + ceilDiv (aaabLeaves.flatMap fun x => x.path).length 8)) := by decide +kernel

theorem witness_CountCompletesWithTheHistogram :
    srcInRange aaab ∧ allOK aaab aaab.srcAddr.toNat aaab.srcLen.toNat ∧ ∃ t, countFreq aaab = .ok t ∧ symGet t.freq 0x41 = 3 :=
  ⟨by decide, by decide, okWith_spec (by decide +kernel)⟩

/-- Also for BuildIsAFunctionOfFreqAlone, with two states that differ elsewhere. -/
theorem witness_BuildCompletesWithTheTreeSizes :
    symGet { State.reset with freq := abraFreq }.freq 0x61 ≠ 0 ∧
    { State.reset with freq := abraFreq }.freq = { coded (freqs [(0, 1)]) aaab with freq := abraFreq }.freq := by decide +kernel

theorem witness_BuildOfNoSymbolIsEmptyAlphabet : ∀ b, symGet State.reset.freq b = 0 := by
  have h : ∀ n < 256, symGet State.reset.freq (BitVec.ofNat 8 n) = 0 := by decide +kernel
  intro b
  simpa using h b.toNat b.isLt

/-- Also for RootWeightIsTheSumOfTheCounts: five symbols, and one. -/
theorem witness_LeavesStandInSymbolOrder :
    (∃ T, treeOf abraFreq = some T ∧ (presentSymbols abraFreq).length = 5) ∧
    ∃ T, treeOf (freqs [(0x41, 9)]) = some T ∧ (presentSymbols (freqs [(0x41, 9)])).length = 1 :=
  ⟨someWith_spec (by decide +kernel), someWith_spec (by decide +kernel)⟩

theorem witness_EveryBuiltArenaIsATree : ∃ t, buildTree { State.reset with freq := abraFreq } = .ok t ∧ t.numLeaves = 5 :=
  okWith_spec (by decide +kernel)

/-- Also for MergeMakesTheFirstRemovedTheRightChild. -/
theorem witness_QueueGivesTheSmallestKeyFirst :
    ([1, 0] : List Nat) ≠ [] ∧ [1, 0].Nodup ∧ 2 ≤ [1, 0].length ∧ ([.leaf 3 5, .leaf 4 5] : List Node).length < 511 ∧
    (∀ i ∈ [1, 0], i < ([.leaf 3 5, .leaf 4 5] : List Node).length) ∧
    weightAt [.leaf 3 5, .leaf 4 5] 1 + weightAt [.leaf 3 5, .leaf 4 5] 0 < 2 ^ 40 := by decide

theorem witness_GencodeCompletesWithTheTreePaths :
    (built abraFreq State.reset).treeValid = true ∧ treeCurrent (built abraFreq State.reset) :=
  built_current (by decide +kernel)

theorem witness_CodesArePrefixFreeAndFull :
    (∃ T, treeOf abraFreq = some T ∧ okWith (leafPaths T.node T.root) (fun ls => symGet (codesOf ls) 0x61 == some [true]) = true) ∧
    (built abraFreq State.reset).node = (built abraFreq aaab).node ∧ (built abraFreq State.reset).root = (built abraFreq aaab).root ∧
    (∃ t, genCodes (built abraFreq State.reset) = .ok t ∧ t.codesValid = true) ∧
    ∃ t, genCodes (built abraFreq aaab) = .ok t ∧ t.codesValid = true :=
  ⟨someWith_spec (by decide +kernel), (built_regs abraFreq_isSome).1, (built_regs abraFreq_isSome).2, okWith_spec (by decide +kernel),
    okWith_spec (by decide +kernel)⟩

/-- The payload of abracadabra fills its window of three bytes. -/
theorem witness_PackCompletesWithThePayload :
    (windowsOk (packState 3) ∧ (packState 3).codesValid = true ∧ allOK (packState 3) 0x1000 11 ∧
      (∀ b ∈ srcBytes (packState 3), (symGet (packState 3).code b).isSome = true) ∧
      (bitsBytes (codeBits (packState 3).code (srcBytes (packState 3)))).length = 3 ∧ allOK (packState 3) 0x5000 3) ∧
    codesFit (packState 3) ∧ Memory.wf (packState 3).mem = true := by
  exact ⟨⟨by decide +kernel, by decide +kernel, by decide +kernel, by decide +kernel, by decide +kernel, by decide +kernel⟩,
    codesFit_of (by decide +kernel), by decide +kernel⟩

/-- The second source byte has no code; a payload of three bytes in a window of two; and eight symbols that fill two bytes of a window of
one, before a byte without a code. -/
theorem witness_PackStopsAtNoCodeOrFullDestination :
    (let s := coded (freqs [(0x41, 3), (0x42, 1)]) (at_ 0x1000 [0x41, 0x43] 0x1000 2 0x5000 9);
      windowsOk s ∧ s.codesValid = true ∧ 1 < s.srcLen.toNat ∧ allOK s s.srcAddr.toNat 2 ∧
        (∀ b ∈ (srcBytes s).take 1, (symGet s.code b).isSome = true) ∧ symGet s.code ((srcBytes s).getD 1 0) = none ∧
        (codeBits s.code ((srcBytes s).take 1)).length / 8 ≤ s.dstCap.toNat ∧
        allOK s s.dstAddr.toNat ((codeBits s.code ((srcBytes s).take 1)).length / 8)) ∧
    (let s := packState 2;
      windowsOk s ∧ s.codesValid = true ∧ allOK s s.srcAddr.toNat s.srcLen.toNat ∧
        (∀ b ∈ srcBytes s, (symGet s.code b).isSome = true) ∧
        s.dstCap.toNat < ceilDiv (codeBits s.code (srcBytes s)).length 8 ∧ allOK s s.dstAddr.toNat s.dstCap.toNat) ∧
    (let s := coded abraFreq (at_ 0x1000 (abraBytes.take 8 ++ [0x7A]) 0x1000 9 0x5000 1);
      windowsOk s ∧ s.codesValid = true ∧ 8 ≤ s.srcLen.toNat ∧ allOK s s.srcAddr.toNat 8 ∧
        (∀ b ∈ (srcBytes s).take 8, (symGet s.code b).isSome = true) ∧ symGet s.code ((srcBytes s).getD 8 0) = none ∧
        s.dstCap.toNat < (codeBits s.code ((srcBytes s).take 8)).length / 8 ∧ allOK s s.dstAddr.toNat s.dstCap.toNat) := by
  decide +kernel

theorem witness_PayloadLengthIsTheEncodedSize : abraBytes.length < 2 ^ 32 ∧ ∃ T, treeOf (histogram abraBytes) = some T ∧
    okWith (leafPaths T.node T.root) (fun ls => encodedBits ls == 23) = true :=
  ⟨by decide, someWith_spec (by decide +kernel)⟩

/-- A window of exactly 1028 bytes. -/
theorem witness_HdrWriteCompletesWithTheHeader :
    dstInRange (at_ 0 [] 0 0 0xFFFFFBFC 1028) ∧ 1028 ≤ (at_ 0 [] 0 0 0xFFFFFBFC 1028).dstCap.toNat ∧
    allOK (at_ 0 [] 0 0 0xFFFFFBFC 1028) 0xFFFFFBFC 1028 ∧ Memory.wf (at_ 0 [] 0 0 0xFFFFFBFC 1028).mem = true := by
  decide +kernel

/-- P1's header, the header of zeros, and a window one byte short. -/
theorem witness_HdrParseCompletesOnAConsistentHeader :
    (srcInRange (archiveState 1027 0) ∧ (archiveState 1027 0).srcLen.toNat < 1028) ∧
    (srcInRange (archiveState 1028 0) ∧ 1028 ≤ (archiveState 1028 0).srcLen.toNat ∧ allOK (archiveState 1028 0) 0x2000 1028 ∧
      headerLen (Memory.readList aaabHeader 0x2000 1028) ≠ 0 ∧
      freqSum (headerFreq (Memory.readList aaabHeader 0x2000 1028)) = (headerLen (Memory.readList aaabHeader 0x2000 1028)).toNat) ∧
    headerLen (Memory.readList [] 0x2000 1028) = 0 := by decide +kernel

/-- A consistent header, and reset's inconsistent one; the parsing state is `archiveState`'s over the memory written. -/
theorem witness_ParsedHeaderIsTheWrittenHeader :
    (let s := { at_ 0 [] 0 0 0x2000 1028 with freq := freqs [(0x41, 3), (0x42, 1)], origLen := 4 };
      Memory.wf s.mem = true ∧ (∃ m, writeHeader s = .ok m ∧ m = [(0x2000, 4), (0x2108, 3), (0x210C, 1)]) ∧
        (archiveState 1028 0).srcAddr = s.dstAddr ∧ (archiveState 1028 0).memMap = s.memMap ∧ s.origLen ≠ 0 ∧
        freqSum s.freq = s.origLen.toNat) ∧
    ∃ m, writeHeader State.reset = .ok m ∧ ¬(State.reset.origLen ≠ 0 ∧ freqSum State.reset.freq = State.reset.origLen.toNat) :=
  ⟨⟨by decide, okWith_spec (by decide +kernel), by decide, by decide, by decide, by decide +kernel⟩,
    okWith_spec (by decide +kernel)⟩

/-- L2-F's payload, whose last bit is padding, into a window of eleven bytes. -/
theorem witness_UnpackCompletesAlongTheLeafPaths :
    (unpackState.treeValid = true ∧ treeCurrent unpackState) ∧
    (windowsOk unpackState ∧ unpackState.origLen.toNat ≤ 11 ∧ unpackState.dstCap.toNat = 11) ∧
    ∃ ls, leafPaths unpackState.node unpackState.root = .ok ls ∧
      ((∀ x ∈ abraLeaves unpackState abraBytes, x ∈ ls) ∧
        (abraLeaves unpackState abraBytes).length = unpackState.origLen.toNat ∧
        bytesBits (srcBytes unpackState) = ((abraLeaves unpackState abraBytes).flatMap fun x => x.path) ++ [true] ∧
        allOK unpackState unpackState.srcAddr.toNat
          (ceilDiv ((abraLeaves unpackState abraBytes).flatMap fun x => x.path).length 8) ∧
        allOK unpackState unpackState.dstAddr.toNat unpackState.origLen.toNat) :=
  ⟨unpackState_current, by decide +kernel, okWith_spec (by decide +kernel)⟩

/-- Two of the three payload bytes: eight symbols, and the next one's path begins with what is left, which is nothing. -/
theorem witness_UnpackOfAShortPayloadIsTruncated :
    let s := { unpackState with srcLen := 2 }
    (s.treeValid = true ∧ treeCurrent s) ∧ (windowsOk s ∧ s.origLen.toNat ≤ s.dstCap.toNat ∧
      allOK s s.srcAddr.toNat s.srcLen.toNat ∧ allOK s s.dstAddr.toNat 8) ∧
    (∃ ls, leafPaths s.node s.root = .ok ls ∧
      ((∀ x ∈ abraLeaves s (abraBytes.take 8), x ∈ ls) ∧ (abraLeaves s (abraBytes.take 8)).length < s.origLen.toNat ∧
        bytesBits (srcBytes s) = ((abraLeaves s (abraBytes.take 8)).flatMap fun x => x.path) ++ [] ∧
        ⟨0x62, 2, [false, false, true]⟩ ∈ ls)) ∧
    startsWith [false, false, true] [] ∧ ([] : List Bool) ≠ [false, false, true] :=
  ⟨⟨unpackState_current.1, unpackState_current.2⟩, by decide +kernel, okWith_spec (by decide +kernel), ⟨_, rfl⟩, by decide⟩

/-- DECOMPRESS: abracadabra's header over a payload of 24 zero bits, which is the path of 0x72 (three bits) eight times, one bit more than the
counts require and three symbols too few. -/
theorem witness_UnpackOfAShortPayloadIsTruncated_decompress :
    let s := { at_ 0 [] 0x2000 1031 0x3000 11 with
      mem := [(0x2000, 11), (0x2188, 5), (0x218C, 2), (0x2190, 1), (0x2194, 1), (0x21CC, 2)] }
    let hb := Memory.readList s.mem s.srcAddr.toNat 1028
    let xs : List LeafPath := List.replicate 8 ⟨0x72, 2, [false, false, false]⟩
    (windowsOk s ∧ 1028 ≤ s.srcLen.toNat ∧ headerLen hb ≠ 0 ∧ freqSum (headerFreq hb) = (headerLen hb).toNat ∧
      (headerLen hb).toNat ≤ s.dstCap.toNat ∧ xs.length < (headerLen hb).toNat ∧
      bytesBits ((srcBytes s).drop 1028) = (xs.flatMap fun x => x.path) ++ [] ∧
      allOK s s.srcAddr.toNat s.srcLen.toNat ∧ allOK s s.dstAddr.toNat xs.length) ∧
    (∃ T, treeOf (headerFreq hb) = some T ∧ okWith (leafPaths T.node T.root) (fun ls =>
      decide (encodedBits ls ≤ 8 * (s.srcLen.toNat - 1028)) && decide (∀ x ∈ xs, x ∈ ls)) = true) ∧
    startsWith [false, false, false] [] ∧ ([] : List Bool) ≠ [false, false, false] ∧
    nextWith (exec .decompress s) (fun t => statusWord t == 0xB04) = true :=
  ⟨by decide +kernel, someWith_spec (by decide +kernel), ⟨_, rfl⟩, by decide, by decide +kernel⟩

theorem witness_EmptyInputCompletesUnchanged :
    srcInRange (at_ 0 [] 0xFFFFFFFF 0 0x2000 0) ∧ dstInRange (at_ 0 [] 0xFFFFFFFF 0 0x2000 0) ∧
    (at_ 0 [] 0xFFFFFFFF 0 0x2000 0).srcLen = 0 := by decide

/-- P1 with a destination window of exactly the archive's 1029 bytes. -/
theorem witness_CompressCompletesWithTheArchive :
    let s := { aaab with dstCap := 1029 }
    windowsOk s ∧ s.srcLen ≠ 0 ∧ allOK s s.srcAddr.toNat s.srcLen.toNat ∧ (archive (srcBytes s)).length = s.dstCap.toNat ∧
      allOK s s.dstAddr.toNat 1029 ∧ Memory.wf s.mem = true := by decide +kernel

theorem witness_ArchiveLengthLaws : ([0x41, 0x41] : List Byte) ≠ [] ∧ ([0x41, 0x41] : List Byte).length < 2 ^ 32 ∧
    ∀ b ∈ ([0x41, 0x41] : List Byte), ∀ c ∈ ([0x41, 0x41] : List Byte), b = c := by decide

theorem witness_CompressIntoASmallBufferOverflows :
    let s := { aaab with dstCap := 1028 }
    windowsOk s ∧ s.srcLen ≠ 0 ∧ allOK s s.srcAddr.toNat s.srcLen.toNat ∧ s.dstCap.toNat < (archive (srcBytes s)).length := by
  decide +kernel

/-- P2 with a source window of exactly the archive and an output window of four bytes. -/
theorem witness_DecompressCompletesAlongTheLeafPaths :
    let s := archiveState 1029 4
    let hb := Memory.readList s.mem s.srcAddr.toNat 1028
    (windowsOk s ∧ 1028 ≤ s.srcLen.toNat ∧ headerLen hb ≠ 0 ∧ freqSum (headerFreq hb) = (headerLen hb).toNat ∧
      (headerLen hb).toNat ≤ s.dstCap.toNat ∧ aaabLeaves.length = (headerLen hb).toNat ∧
      bytesBits ((srcBytes s).drop 1028) = (aaabLeaves.flatMap fun x => x.path) ++ List.replicate 4 false ∧
      allOK s s.srcAddr.toNat (1028 + ceilDiv (aaabLeaves.flatMap fun x => x.path).length 8) ∧
      allOK s s.dstAddr.toNat aaabLeaves.length) ∧
    ∃ T, treeOf (headerFreq hb) = some T ∧ okWith (leafPaths T.node T.root)
      (fun ls => decide (encodedBits ls ≤ 8 * (s.srcLen.toNat - 1028)) && decide (∀ x ∈ aaabLeaves, x ∈ ls)) = true :=
  ⟨by decide +kernel, someWith_spec (by decide +kernel)⟩

/-- A header of zeros; P1's header with no payload; and P2 into a window of three bytes. -/
theorem witness_DecompressChecksBeforeDecoding :
    (let s := at_ 0 [] 0x2000 1028 0x3000 4;
      windowsOk s ∧ 1028 ≤ s.srcLen.toNat ∧ allOK s s.srcAddr.toNat 1028 ∧
        headerLen (Memory.readList s.mem s.srcAddr.toNat 1028) = 0) ∧
    (windowsOk (archiveState 1028 4) ∧ windowsOk (archiveState 1029 3) ∧ allOK (archiveState 1028 4) 0x2000 1028 ∧
      allOK (archiveState 1029 3) 0x2000 1028) ∧
    (let hb := Memory.readList aaabHeader 0x2000 1028;
      headerLen hb ≠ 0 ∧ freqSum (headerFreq hb) = (headerLen hb).toNat ∧ (archiveState 1029 3).dstCap.toNat < (headerLen hb).toNat ∧
        ∃ T, treeOf (headerFreq hb) = some T ∧ okWith (leafPaths T.node T.root) (fun ls =>
          decide (8 * ((archiveState 1028 4).srcLen.toNat - 1028) < encodedBits ls) &&
            decide (encodedBits ls ≤ 8 * ((archiveState 1029 3).srcLen.toNat - 1028))) = true) :=
  ⟨by decide +kernel, by decide +kernel, by decide +kernel, by decide +kernel, by decide +kernel,
    someWith_spec (by decide +kernel)⟩

/-- P1 and then P2, over the memory P1 leaves. -/
theorem witness_DecompressUndoesCompress :
    let s := { aaab with dstCap := 1029 }
    (Memory.wf s.mem = true ∧ windowsOk s ∧ allOK s s.srcAddr.toNat s.srcLen.toNat ∧
      (archive (srcBytes s)).length ≤ s.dstCap.toNat ∧ allOK s s.dstAddr.toNat 1029) ∧
    ∃ t, exec .compress s = .next t ∧ (t.outLen = 1029 ∧
      windowsOk { t with srcAddr := t.dstAddr, srcLen := t.outLen, dstAddr := 0x3000, dstCap := 4 } ∧
      allOK { t with srcAddr := t.dstAddr, srcLen := t.outLen, dstAddr := 0x3000, dstCap := 4 } 0x3000 4) :=
  ⟨by decide +kernel, nextWith_spec (by decide +kernel)⟩

/-- A command that completes and one that ends with an in-flight error. -/
theorem witness_CommandsChangeOnlyTheirWriteSet :
    (∃ t, exec .count (issue aaab 2) = .next t ∧ t.done = true) ∧ Memory.wf (issue aaab 2).mem = true ∧
    ∃ t, exec .count (issue { aaab with memMap := [⟨0, 0x1002⟩] } 2) = .next t ∧ t.err = true :=
  ⟨nextWith_spec (by decide +kernel), by decide, nextWith_spec (by decide +kernel)⟩

theorem witness_EveryOutcomeIsDoneOrARecordedError :
    (issue aaab 2).done = false ∧ (issue aaab 2).err = false ∧ (issue aaab 2).errCode = 0 ∧ (issue aaab 2).errAddr = 0 ∧
    ∃ t, exec .count (issue { aaab with memMap := [⟨0, 0x1002⟩] } 2) = .next t ∧ t.err = true :=
  ⟨rfl, rfl, rfl, rfl, nextWith_spec (by decide +kernel)⟩

/-- A reset over a running COMPRESS, over a running COUNT, over no command, and over an illegal word. -/
theorem witness_ResetGivesTheResetValues :
    { issue aaab 9 with schedule := [.reset] }.schedule = .reset :: [] ∧ { aaab with schedule := [.reset] }.busy = false ∧
    decode (issue aaab 2).cmd = .ok .count ∧ Instr.count ∉ [Instr.pack, .hdrWrite, .unpack, .compress, .decompress] ∧
    Memory.wf aaab.mem = true ∧ inDst (issue aaab 9) 0x1FFF = false ∧ inDst (issue aaab 9) 0x3000 = false ∧
    (issue aaab 0x109).busy = true ∧ decode (issue aaab 0x109).cmd = .error .reservedBits :=
  ⟨rfl, rfl, rfl, by decide, by decide, by decide, by decide, rfl, rfl⟩

/-- EveryStepKeepsTheStatusInvariant and EveryStepKeepsMemoryCanonical: a running command, whose step answers a next state. -/
theorem witness_Inv : Inv (issue aaab 0) ∧ ∃ t, step (issue aaab 0) = .next t ∧ t.done = true := by
  refine ⟨⟨⟨by decide, by decide, by decide, by decide, by decide, by decide⟩, ⟨by decide, ?_, ?_⟩, by decide⟩,
    nextWith_spec (by decide +kernel)⟩ <;> exact fun h => absurd h (by decide)

/-- Each of the three refusals: a half-word write, a MEMR past the last address, a MEMW into the source window of a running command. -/
theorem witness_NoStepFaultsUnderTheInvariant :
    (let s := { aaab with host := [.busWrite 0x10 2 7] };
      Inv s ∧ step s = .refused .hostAccessNotWord) ∧
    (let s := { aaab with host := [.memr 0xFFFFFFFF 2 "x"] };
      Inv s ∧ step s = .refused .hostOutsideMemory) ∧
    (let s := { issue aaab 2 with schedule := [.host], host := [.memw 0x1003 [7]] };
      Inv s ∧ step s = .refused .hostBreaksDuty) := by
  refine ⟨⟨⟨⟨?_, ?_, ?_, ?_, ?_, ?_⟩, ⟨?_, ?_, ?_⟩, ?_⟩, rfl⟩, ⟨⟨⟨?_, ?_, ?_, ?_, ?_, ?_⟩, ⟨?_, ?_, ?_⟩, ?_⟩, rfl⟩,
    ⟨⟨?_, ?_, ?_, ?_, ?_, ?_⟩, ⟨?_, ?_, ?_⟩, ?_⟩, rfl⟩ <;> decide

end Sys2Proof.Machine.Test
end

section
/-! PROOFS. Every tree BUILD makes is a tree (10_state.md R51): which leaves stand where, the arena from the forest of the merge loop, and
the depth of the leaves. -/

namespace Sys2Proof.Machine

/-! ### The leaves (42_tree_builder.md R141, R142) -/

theorem presentSymbols_nodup (f : FreqTable) : (presentSymbols f).Nodup := allSymbols_nodup.filter _

/-- A count and its weight are 0 together. -/
theorem setWidth_count_eq_zero (c : Word) : c.setWidth 40 = (0 : Weight) ↔ c = 0 := by
  constructor <;> intro h <;> bv_omega

/-- Leaf `i` is the one of the `i`-th present symbol. -/
theorem withDummy_realLeaves_getD_present (f : FreqTable) (i : Nat) (hi : i < (presentSymbols f).length) :
    (withDummy (realLeaves f)).getD i .absent =
      .leaf (presentSymbols f)[i] ((symGet f (presentSymbols f)[i]).setWidth 40) := by
  have hi' : i < (realLeaves f).length := by rw [realLeaves_eq, List.length_map]; exact hi
  have hreal : (withDummy (realLeaves f)).getD i .absent = (realLeaves f)[i] := by
    rw [withDummy]
    split
    · rw [List.getD_append _ _ _ _ hi', List.getD_eq_getElem _ _ hi']
    · rw [List.getD_eq_getElem _ _ hi']
  rw [hreal]
  simp only [realLeaves_eq, List.getElem_map]

/-- The leaf after a single one is the dummy. -/
theorem withDummy_realLeaves_getD_dummy (f : FreqTable) (h : (presentSymbols f).length = 1) :
    (withDummy (realLeaves f)).getD 1 .absent = .leaf 0 0 := by
  have hlen : (realLeaves f).length = 1 := by rw [realLeaves_eq, List.length_map, h]
  rw [withDummy, if_pos hlen, ← hlen, getD_append_eq]

/-- A leaf that holds `sym` and `w` is the one of a present symbol, or the dummy. -/
theorem withDummy_realLeaves_getD_eq_leaf (f : FreqTable) (i : Nat) (sym : Byte) (w : Weight)
    (h : (withDummy (realLeaves f)).getD i .absent = .leaf sym w) :
    (∃ hi : i < (presentSymbols f).length, (presentSymbols f)[i] = sym ∧ symGet f sym ≠ 0 ∧ w = (symGet f sym).setWidth 40) ∨
      ((presentSymbols f).length = 1 ∧ i = 1 ∧ sym = 0 ∧ w = 0) := by
  by_cases hi : i < (presentSymbols f).length
  · rw [withDummy_realLeaves_getD_present f i hi] at h
    obtain ⟨rfl, rfl⟩ := Node.leaf.inj h
    exact .inl ⟨hi, rfl, (mem_presentSymbols f _).mp (List.getElem_mem hi), rfl⟩
  · have hlt : i < leafCount f := by
      rw [← withDummy_realLeaves_length]
      by_contra hge
      rw [List.getD_eq_default _ _ (by omega)] at h
      cases h
    rw [leafCount] at hlt
    split at hlt
    · rename_i hone
      obtain rfl : i = 1 := by omega
      rw [withDummy_realLeaves_getD_dummy f hone] at h
      obtain ⟨rfl, rfl⟩ := Node.leaf.inj h
      exact .inr ⟨hone, rfl, rfl, rfl⟩
    · omega

/-! ### The arena of a forest -/

/-- In the arena of a forest, leaves stand below index `L` only. -/
theorem Forest.lt_of_leaf {ar : List Node} {pq : List Nat} {L W : Nat} {U : Nat → List Nat} (F : Forest ar pq L W U)
    (i : Nat) (sym : Byte) (w : Weight) (h : ar.getD i .absent = .leaf sym w) : i < L := by
  by_contra hi
  by_cases hlen : i < ar.length
  · obtain ⟨l, r, w', hn, -⟩ := F.internals i (by omega) hlen
    rw [hn] at h; cases h
  · rw [List.getD_eq_default _ _ (by omega)] at h; cases h

theorem weightAt_eq_nodeAt (ar : List Node) (har : ar.length ≤ 511) (i : Nat) :
    weightAt ar i = (nodeWeight (nodeAt (arenaOf ar) i)).toNat := by
  rw [nodeAt_arenaOf ar har, weightAt]

/-- R51, items 1 to 5, for the tree of a frequency table. -/
theorem arenaTree_of_treeOf (f : FreqTable) (T : Tree) (h : treeOf f = some T) : ArenaTree f T.node T.numLeaves.toNat := by
  obtain ⟨ar, U, hnode, hL, hlen, hnum, -, -, F, hleaf⟩ := treeOf_forest f T h
  have har : ar.length ≤ 511 := by omega
  have hat := nodeAt_arenaOf ar har
  have hw := weightAt_eq_nodeAt ar har
  rw [hnode, hnum]
  have hcases (i : Nat) (sym : Byte) (w : Weight) (h : ar.getD i .absent = .leaf sym w) :=
    withDummy_realLeaves_getD_eq_leaf f i sym w (by rw [← hleaf i (F.lt_of_leaf i sym w h), h])
  have hpl : (presentSymbols f).length ≤ leafCount f := by rw [leafCount]; split <;> omega
  constructor
  case leaves_bound => exact hL
  case leaves => simpa only [hat] using F.leaves
  case internals =>
    intro i hi hi'
    obtain ⟨l, r, w, hn, hl, hr, hsum, -⟩ := F.internals i hi (by omega)
    exact ⟨l, r, w, by rw [hat, hn], hl, hr, by rw [hsum, hw, hw]⟩
  case absents =>
    intro i hi
    rw [hat, List.getD_eq_default _ _ (by omega)]
  case one_parent =>
    intro i hi
    simpa only [hat] using F.one_parent i (by omega) (by rw [List.mem_singleton]; omega)
  case root_no_parent => simpa only [hat] using F.no_parent _ (List.mem_singleton_self _)
  case symbols =>
    intro s hs
    obtain ⟨i, hi, rfl⟩ := List.getElem_of_mem ((mem_presentSymbols f s).mpr hs)
    simp only [hat]
    refine ⟨i, ⟨_, by rw [hleaf i (by omega), withDummy_realLeaves_getD_present f i hi],
      fun h0 => hs ((setWidth_count_eq_zero _).mp h0)⟩, ?_⟩
    rintro j ⟨w, hj, hw0⟩
    rcases hcases j _ w hj with ⟨hj', hsym, -⟩ | ⟨-, -, -, rfl⟩
    · exact (presentSymbols_nodup f).getElem_inj_iff.mp hsym
    · exact absurd rfl hw0
  case weights =>
    intro i s w hi hw0
    rw [hat] at hi
    rcases hcases i s w hi with ⟨-, -, -, h⟩ | ⟨-, -, -, h⟩
    · exact h
    · exact absurd h hw0
  case dummy =>
    intro i s hi
    rw [hat] at hi
    rcases hcases i s 0 hi with ⟨-, -, hne, h0⟩ | ⟨hone, h1, hs, -⟩
    · exact absurd ((setWidth_count_eq_zero _).mp h0.symm) hne
    · exact ⟨hs, h1, hone⟩
  case dummy_present =>
    intro hone
    rw [hat, hleaf 1 (by omega), withDummy_realLeaves_getD_dummy f hone]

/-! ### The depth of the leaves -/

/-- R51, item 6: the walk lists as many leaves as the tree has, each along a path of 1 to `L − 1` edges that leads to it. -/
theorem leafPaths_of_treeOf (f : FreqTable) (T : Tree) (h : treeOf f = some T) :
    ∃ ls, leafPaths T.node T.root = .ok ls ∧ ls.length = T.numLeaves.toNat ∧
      ∀ l ∈ ls, 1 ≤ l.path.length ∧ l.path.length ≤ T.numLeaves.toNat - 1 ∧
        ∃ i < T.numLeaves.toNat, followPath T.node T.root.toNat l.path = some i ∧ nodeAt T.node i = .leaf l.sym l.w := by
  obtain ⟨ar, U, hnode, hL, -, hnum, hroot, -, F, -⟩ := treeOf_forest f T h
  obtain ⟨hperm, ls, hls, hwalked⟩ := leafPaths_forest F hL.2 T.root hroot
  rw [hnode, hnum]
  refine ⟨ls, hls, by rw [hwalked.length_eq, hperm.length_eq, List.length_range], fun l hl => ?_⟩
  obtain ⟨n, hn, rfl⟩ := List.getElem_of_mem hl
  have hn' : n < (U (2 * leafCount f - 2)).length := hwalked.length_eq ▸ hn
  obtain ⟨hat, q, hpath, hfollow, hdepth⟩ := hwalked.get hn hn'
  rw [List.get_eq_getElem] at hat hpath
  rw [List.nil_append] at hpath
  have hlt : (U (2 * leafCount f - 2))[n] < leafCount f := List.mem_range.mp (hperm.mem_iff.mp (List.getElem_mem hn'))
  have hne : q ≠ [] := by
    rintro rfl
    have : 2 * leafCount f - 2 = (U (2 * leafCount f - 2))[n] := Option.some.inj hfollow
    omega
  rw [hpath, hroot]
  exact ⟨List.length_pos_iff.mpr hne, by omega, _, hlt, hfollow, hat⟩

/-- A BUILD step that completes installs the tree of FREQ. -/
theorem buildTree_eq_ok (s t : State) (h : buildTree s = .ok t) : ∃ T, treeOf s.freq = some T ∧ t = installTree s T := by
  rw [buildTree] at h
  split at h
  · cases h
  · exact ⟨_, ‹_›, (Except.ok.inj h).symm⟩

/-- Settles O28: the tree installed is the one of FREQ, whose arena comes from the forest of the merge loop. -/
theorem everyBuiltArenaIsATree : Obligations.EveryBuiltArenaIsATree := by
  unfold Obligations.EveryBuiltArenaIsATree
  intro s t hst
  obtain ⟨T, hT, rfl⟩ := buildTree_eq_ok s t hst
  obtain ⟨-, -, -, -, -, hnum, hroot, -⟩ := treeOf_forest s.freq T hT
  simp only [installTree_node, installTree_numLeaves, installTree_root]
  exact ⟨arenaTree_of_treeOf s.freq T hT, by rw [hroot, hnum], leafPaths_of_treeOf s.freq T hT⟩

end Sys2Proof.Machine
end

section
/-! PROOFS. The register window (10_state.md R22 to R48): what a defined read returns, and the statements about ID, STATUS and the windows
onto FREQ, CODE and NODE. -/

namespace Sys2Proof.Machine

/-! ### Reads (40_control.md R111) -/

/-- R111: where the register is readable now, a read returns its value and changes nothing. -/
theorem regRead_readable (s : State) (off : BitVec 8) (r : Reg) (hr : regAt off = some r)
    (h : s.busy = false ∨ readableWhileBusy r = true) : regRead s off = (regValue s r, s) := by
  rw [regRead, hr]
  rcases h with h | h <;> simp [h]

/-! ### The fields of a packed word -/

/-- Two fields side by side, as a number. -/
theorem toNat_append_eq_add {m n : Nat} (x : BitVec m) (y : BitVec n) : (x ++ y).toNat = 2 ^ n * x.toNat + y.toNat := by
  rw [BitVec.toNat_append, ← Nat.shiftLeft_add_eq_or_of_lt y.isLt, Nat.shiftLeft_eq, Nat.mul_comm]

/-- A value cut in two is the sum of its parts. -/
theorem toNat_extract_low_high {m n : Nat} (w : BitVec (n + m)) :
    (w.extractLsb' 0 m).toNat + 2 ^ m * (w.extractLsb' m n).toNat = w.toNat := by
  have hhi : w.toNat / 2 ^ m < 2 ^ n := Nat.div_lt_of_lt_mul (by rw [← Nat.pow_add, Nat.add_comm m n]; exact w.isLt)
  rw [BitVec.extractLsb'_toNat, BitVec.extractLsb'_toNat, Nat.shiftRight_zero, Nat.shiftRight_eq_div_pow, Nat.mod_eq_of_lt hhi,
    Nat.mod_add_div]

@[simp] theorem getElem_bit_zero (b : Bool) : (bit b)[0] = b := by cases b <;> rfl

/-! ### ID (R24) -/

/-- Settles O11: ID is readable in every state and no write reaches it. -/
theorem idReadsItsConstant : Obligations.IdReadsItsConstant := by
  unfold Obligations.IdReadsItsConstant
  refine ⟨fun s => ?_, fun s v hb => ?_, by decide⟩
  · exact regRead_readable s 0x00 .id rfl (.inr rfl)
  · exact regWrite_idle s 0x00 v .id hb rfl

/-! ### STATUS (R26) -/

theorem statusWord_bits (s : State) :
    (statusWord s).getLsbD 0 = s.busy ∧ (statusWord s).getLsbD 1 = s.done ∧ (statusWord s).getLsbD 2 = s.err ∧
    (statusWord s).getLsbD 3 = s.ovr ∧ (statusWord s).getLsbD 16 = s.treeValid ∧ (statusWord s).getLsbD 17 = s.codesValid := by
  simp only [statusWord, BitVec.getLsbD_append]
  simp

theorem statusWord_fields (s : State) :
    (statusWord s).extractLsb' 4 4 = 0 ∧ (statusWord s).extractLsb' 8 4 = s.errCode ∧ (statusWord s).extractLsb' 12 4 = 0 ∧
    (statusWord s).extractLsb' 18 14 = 0 := by
  refine ⟨?_, ?_, ?_, ?_⟩ <;> rw [statusWord] <;> repeat rw [BitVec.extractLsb'_append_eq_of_le (by decide)]
  · exact BitVec.extractLsb'_append_eq_right
  · exact BitVec.extractLsb'_append_eq_right
  · exact BitVec.extractLsb'_append_eq_right
  · decide

/-- Settles O14, from the layout of the STATUS word. -/
theorem statusLayoutAndWriteOneToClear : Obligations.StatusLayoutAndWriteOneToClear := by
  unfold Obligations.StatusLayoutAndWriteOneToClear
  intro s v
  obtain ⟨hbusy, hdone, herr, hovr, htree, hcodes⟩ := statusWord_bits s
  obtain ⟨h4, hcode, h12, h18⟩ := statusWord_fields s
  exact ⟨hbusy, hdone, herr, hovr, h4, hcode, h12, htree, hcodes, h18, fun hb => regWrite_idle s 0x08 v .status hb rfl⟩

/-! ### The window onto FREQ (R44) -/

/-- Settles O15: each access is the idle one of its register, and a store in the table changes one entry. -/
theorem freqDataReadsAndWritesTheSelectedCount : Obligations.FreqDataReadsAndWritesTheSelectedCount := by
  unfold Obligations.FreqDataReadsAndWritesTheSelectedCount
  intro s v hb
  refine ⟨?_, ?_, ?_, fun b => ?_⟩
  · exact regRead_readable s 0x44 .freqData rfl (.inl hb)
  · exact regWrite_idle s 0x40 v .freqIdx hb rfl
  · exact regWrite_idle s 0x44 v .freqData hb rfl
  · rw [symGet_symSet]
    simp only [eq_comm]

/-! ### The window onto CODE (R45, R46) -/

/-- R45: the fields of CODE_INFO, for an entry of at most 255 bits. -/
theorem codeInfoWord_fields (c : Code) (hfit : (c.getD []).length ≤ 255) :
    (codeInfoWord c).getLsbD 31 = c.isSome ∧ ((codeInfoWord c).extractLsb' 0 8).toNat = (c.getD []).length ∧
      (codeInfoWord c).extractLsb' 8 23 = 0 := by
  cases c with
  | none => exact ⟨rfl, rfl, rfl⟩
  | some bits =>
    rw [Option.getD_some] at hfit ⊢
    have hlow : (codeInfoWord (some bits)).extractLsb' 0 8 = BitVec.ofNat 8 bits.length := BitVec.extractLsb'_append_eq_right
    refine ⟨?_, ?_, ?_⟩
    · simp only [codeInfoWord, BitVec.getLsbD_append]
      rfl
    · rw [hlow, BitVec.toNat_ofNat, Nat.mod_eq_of_lt (by omega)]
    · rw [codeInfoWord, BitVec.extractLsb'_append_eq_of_le (by decide)]
      decide

/-- R46: the bits of a slice of a code. -/
theorem codeBitsWord_getLsbD (c : Code) (sel : BitVec 3) (k : Nat) (hk : k < 32) :
    (codeBitsWord c sel).getLsbD k = (c.getD []).getD (32 * sel.toNat + k) false := by
  rw [codeBitsWord, getLsbD_ofNat_natOfBits, decide_eq_true hk, Bool.true_and, Bool.true_and]

theorem codesFit_length_le (s : State) (h : codesFit s) (x : Byte) : ((symGet s.code x).getD []).length ≤ 255 := by
  cases hx : symGet s.code x with
  | none => simp
  | some bits => exact h x bits hx

/-- Settles O16, from the fields of the two words the window reads. -/
theorem codeWindowReadsTheSelectedCode : Obligations.CodeWindowReadsTheSelectedCode := by
  unfold Obligations.CodeWindowReadsTheSelectedCode
  intro s hb hfit
  rw [regRead_readable s 0x4C .codeInfo rfl (.inl hb), regRead_readable s 0x54 .codeBits rfl (.inl hb)]
  exact ⟨codeInfoWord_fields _ (codesFit_length_le s hfit _), codeBitsWord_getLsbD _ _⟩

/-! ### The window onto NODE (R47, R48) -/

/-- R47: NODE_INFO of a leaf as a number. -/
theorem nodeInfoWord_leaf_toNat (sym : Byte) (w : Weight) :
    (nodeInfoWord (.leaf sym w)).toNat = 2 ^ 31 + 2 ^ 30 + sym.toNat := by
  simp only [nodeInfoWord, toNat_append_eq_add]
  simp

/-- R47: NODE_INFO of an internal node as a number. -/
theorem nodeInfoWord_internal_toNat (left right : NodeIdx) (w : Weight) :
    (nodeInfoWord (.internal left right w)).toNat = 2 ^ 31 + 2 ^ 16 * right.toNat + left.toNat := by
  simp only [nodeInfoWord, toNat_append_eq_add]
  simp
  omega

/-- R48: NODE_WLO and NODE_WHI are the two halves of the weight. -/
theorem weightWords_toNat (w : Weight) :
    (w.extractLsb' 0 32).toNat + 2 ^ 32 * ((w.extractLsb' 32 8).setWidth 32).toNat = w.toNat := by
  rw [BitVec.toNat_setWidth_of_le (by omega)]
  exact toNat_extract_low_high (m := 32) (n := 8) w

/-- R47: index 511 reads as an absent entry. -/
theorem nodeAt_of_le (ar : Arena) (i : Nat) (h : 511 ≤ i) : nodeAt ar i = .absent := dif_neg (by omega)

/-- Settles O17: each read is the value of its register, whose word depends on the kind of the entry. -/
theorem nodeWindowReadsTheSelectedNode : Obligations.NodeWindowReadsTheSelectedNode := by
  unfold Obligations.NodeWindowReadsTheSelectedNode
  intro s hb
  have hinfo := regRead_readable s 0x5C .nodeInfo rfl (.inl hb)
  have hwlo := regRead_readable s 0x60 .nodeWlo rfl (.inl hb)
  have hwhi := regRead_readable s 0x64 .nodeWhi rfl (.inl hb)
  refine ⟨fun x y z hx hy hz => ?_, _, _, _, hinfo, hwlo, hwhi⟩
  obtain rfl : regValue s .nodeInfo = x := congrArg Prod.fst (hinfo.symm.trans hx)
  obtain rfl : regValue s .nodeWlo = y := congrArg Prod.fst (hwlo.symm.trans hy)
  obtain rfl : regValue s .nodeWhi = z := congrArg Prod.fst (hwhi.symm.trans hz)
  have h511 : s.nodeIdx = 511 → nodeAt s.node s.nodeIdx.toNat = .absent := fun h => nodeAt_of_le _ _ (by rw [h]; decide)
  simp only [regValue]
  generalize nodeAt s.node s.nodeIdx.toNat = n at h511 ⊢
  refine ⟨?_, fun h => ?_, ?_, ?_⟩
  · rintro rfl
    exact ⟨rfl, rfl, rfl⟩
  · rw [h511 h]
    exact ⟨rfl, rfl, rfl⟩
  · rintro sym w rfl
    exact ⟨nodeInfoWord_leaf_toNat sym w, weightWords_toNat w⟩
  · rintro left right w rfl
    exact ⟨nodeInfoWord_internal_toNat left right w, weightWords_toNat w⟩

end Sys2Proof.Machine
end

section
/-! PROOFS. The window checks end a command before any access (20_memory.md R72, R73): what a pre-check error in a command's body does
(60_exceptions.md R223), the order of the checks (R221), and which commands begin with them (20_memory.md R71). -/

namespace Sys2Proof.Machine

/-! ### Pre-check errors -/

/-- R223: a command whose body ends with a pre-check error records it over the state it started from. -/
theorem exec_of_body_pre (i : Instr) (s : State) (e : ErrCode) (a : Nat) (h : bodyOf i s = .error (.pre e a)) :
    exec i s = .next (recordError s e a) := by
  rw [exec_eq_complete, h, complete]

/-- R222: an error address that comes from a register is recorded as it is. -/
theorem recordError_toNat (s : State) (e : ErrCode) (a : Word) :
    recordError s e a.toNat =
      { s with err := true, errCode := errNumber e, errAddr := a, outLen := 0, busy := false } := by
  rw [recordError, BitVec.ofNat_toNat, BitVec.setWidth_eq]

/-! ### The order of the window checks -/

theorem checkWindows_srcRange (s : State) (hsrc : ¬srcInRange s) :
    checkWindows s = .error (.pre .range s.srcAddr.toNat) := by
  rw [checkWindows, checkSrcRange_error s hsrc, run_bind_error]

theorem checkWindows_dstRange (s : State) (hsrc : srcInRange s) (hdst : ¬dstInRange s) :
    checkWindows s = .error (.pre .range s.dstAddr.toNat) := by
  rw [checkWindows, checkSrcRange_ok s hsrc, run_bind_ok, checkDstRange_error s hdst, run_bind_error]

theorem checkWindows_overlap (s : State) (hsrc : srcInRange s) (hdst : dstInRange s) (hmeet : windowsOverlap s = true) :
    checkWindows s = .error (.pre .overlap 0) := by
  rw [checkWindows, checkSrcRange_ok s hsrc, run_bind_ok, checkDstRange_ok s hdst, run_bind_ok, checkOverlap_error s hmeet]

/-- R73: nonempty windows, each of which begins before the other ends, overlap. -/
theorem windowsOverlap_eq_true (s : State) (hl : 0 < s.srcLen.toNat) (hc : 0 < s.dstCap.toNat)
    (hsd : s.srcAddr.toNat < s.dstAddr.toNat + s.dstCap.toNat) (hds : s.dstAddr.toNat < s.srcAddr.toNat + s.srcLen.toNat) :
    windowsOverlap s = true := by
  simp [windowsOverlap, rangesMeet, hl, hc, hsd, hds]

/-! ### The commands that begin with the checks -/

/-- The commands with both windows begin with all three checks. -/
theorem bodyOf_eq_checkWindows_bind (i : Instr) (s : State) (hi : i ∈ [Instr.pack, .unpack, .compress, .decompress]) :
    ∃ rest, bodyOf i s = checkWindows s >>= rest := by
  simp only [List.mem_cons, List.not_mem_nil, or_false] at hi
  obtain rfl | rfl | rfl | rfl := hi <;> exact ⟨_, rfl⟩

theorem bodyOf_of_checkWindows_error (i : Instr) (s : State) (e : Stop)
    (hi : i ∈ [Instr.pack, .unpack, .compress, .decompress]) (h : checkWindows s = .error e) : bodyOf i s = .error e := by
  obtain ⟨rest, hbody⟩ := bodyOf_eq_checkWindows_bind i s hi
  rw [hbody, h, run_bind_error]

/-- R72 of the source: COUNT and HDR_PARSE check that window alone, the others check it first. -/
theorem bodyOf_srcRange (i : Instr) (s : State) (hi : i ∈ [Instr.count, .pack, .hdrParse, .unpack, .compress, .decompress])
    (hsrc : ¬srcInRange s) : bodyOf i s = .error (.pre .range s.srcAddr.toNat) := by
  have hboth := (bodyOf_of_checkWindows_error i s _ · (checkWindows_srcRange s hsrc))
  cases i
  case count => rw [bodyOf, countBody, checkSrcRange_error s hsrc, run_bind_error]
  case hdrParse => rw [bodyOf, hdrParseBody, checkSrcRange_error s hsrc, run_bind_error]
  case pack | unpack | compress | decompress => exact hboth (by decide)
  all_goals exact absurd hi (by decide)

/-- R72 of the destination: HDR_WRITE checks that window alone, the others check it after the source. -/
theorem bodyOf_dstRange (i : Instr) (s : State) (hi : i ∈ [Instr.pack, .hdrWrite, .unpack, .compress, .decompress])
    (hsrc : i = .hdrWrite ∨ srcInRange s) (hdst : ¬dstInRange s) : bodyOf i s = .error (.pre .range s.dstAddr.toNat) := by
  by_cases hw : i = .hdrWrite
  · subst hw
    rw [bodyOf, hdrWriteBody, checkDstRange_error s hdst, run_bind_error]
  · refine bodyOf_of_checkWindows_error i s _ ?_ (checkWindows_dstRange s (hsrc.resolve_left hw) hdst)
    simpa [hw] using hi

/-- Settles O21: each clause is the first check of the body that fails, whose error is recorded and nothing else. -/
theorem windowChecksEndTheCommand : Obligations.WindowChecksEndTheCommand := by
  unfold Obligations.WindowChecksEndTheCommand
  intro i s
  refine ⟨fun hi hsrc => ?_, fun hi hsrc hdst => ?_, fun hi hsrc hdst hl hc hsd hds => ?_⟩
  · rw [exec_of_body_pre i s _ _ (bodyOf_srcRange i s hi (Nat.not_le_of_gt hsrc)), recordError_toNat]
    rfl
  · rw [exec_of_body_pre i s _ _ (bodyOf_dstRange i s hi hsrc (Nat.not_le_of_gt hdst)), recordError_toNat]
    rfl
  · have hmeet := windowsOverlap_eq_true s hl hc hsd hds
    rw [exec_of_body_pre i s _ _ (bodyOf_of_checkWindows_error i s _ hi (checkWindows_overlap s hsrc hdst hmeet))]
    rfl

end Sys2Proof.Machine
end

section
/-! PROOFS. The decoder of the command word (30_encoding.md R92 to R95): which words it rejects, that an accepted word is the encoding of
its command, and what the ENGINE's step does with either kind of word. -/

namespace Sys2Proof.Machine

/-! ### The opcode table (R93) -/

/-- R95: the opcodes above 0x0A, and no others, are reserved. -/
theorem instrOfOpcode_eq_none_iff (n : Nat) : instrOfOpcode n = none ↔ 0x0A < n := by
  constructor <;> intro h
  · by_contra hle
    interval_cases n <;> cases h
  · unfold instrOfOpcode
    split
    case h_12 => rfl
    all_goals omega

/-- R93 read back: the row of an opcode is its command's row. -/
theorem toNat_opcodeOf_of_instrOfOpcode (n : Nat) (i : Instr) (h : instrOfOpcode n = some i) : (opcodeOf i).toNat = n := by
  unfold instrOfOpcode at h
  split at h <;> cases h <;> rfl

/-! ### The decoder (R92) -/

/-- R92: RSVD is checked first. -/
theorem decode_of_rsvdField_ne_zero (w : Word) (h : rsvdField w ≠ 0) : decode w = .error .reservedBits := if_pos h

/-- R92: the opcode is checked second. -/
theorem decode_of_instrOfOpcode_none (w : Word) (h : rsvdField w = 0) (ho : instrOfOpcode (opcodeField w).toNat = none) :
    decode w = .error .reservedOpcode := by
  rw [decode, if_neg (not_not.mpr h), ho]

/-- R93: a word that passes both checks is its row's command. -/
theorem decode_of_instrOfOpcode_some (w : Word) (i : Instr) (h : rsvdField w = 0)
    (ho : instrOfOpcode (opcodeField w).toNat = some i) : decode w = .ok i := by
  rw [decode, if_neg (not_not.mpr h), ho]

/-- R92, R95: the illegal words are those with a reserved bit set or a reserved opcode. -/
theorem decode_eq_error_iff (w : Word) : (∃ e, decode w = .error e) ↔ rsvdField w ≠ 0 ∨ 0x0A < (opcodeField w).toNat := by
  rw [← instrOfOpcode_eq_none_iff]
  by_cases hr : rsvdField w = 0
  · cases ho : instrOfOpcode (opcodeField w).toNat with
    | none => simp [decode_of_instrOfOpcode_none w hr ho]
    | some i => simp [decode_of_instrOfOpcode_some w i hr ho, hr]
  · exact ⟨fun _ => .inl hr, fun _ => ⟨_, decode_of_rsvdField_ne_zero w hr⟩⟩

/-- An accepted word has RSVD 0 and the opcode of a table row. -/
theorem fields_of_decode_ok (w : Word) (i : Instr) (h : decode w = .ok i) :
    rsvdField w = 0 ∧ instrOfOpcode (opcodeField w).toNat = some i := by
  by_cases hr : rsvdField w = 0
  · cases ho : instrOfOpcode (opcodeField w).toNat with
    | none => cases (decode_of_instrOfOpcode_none w hr ho).symm.trans h
    | some j => cases (decode_of_instrOfOpcode_some w j hr ho).symm.trans h; exact ⟨hr, rfl⟩
  · cases (decode_of_rsvdField_ne_zero w hr).symm.trans h

/-- The two fields of R91 make the word. -/
theorem rsvdField_append_opcodeField (w : Word) : rsvdField w ++ opcodeField w = w :=
  BitVec.eq_of_toNat_eq (by
    rw [toNat_append_eq_add, Nat.add_comm]
    exact toNat_extract_low_high (m := 8) (n := 24) w)

/-- The decoder accepts no word but the encoding of the command it answers. -/
theorem eq_encode_of_decode_ok (w : Word) (i : Instr) (h : decode w = .ok i) : w = encode i := by
  obtain ⟨hrsvd, hop⟩ := fields_of_decode_ok w i h
  have hopcode : opcodeOf i = opcodeField w := BitVec.eq_of_toNat_eq (toNat_opcodeOf_of_instrOfOpcode _ i hop)
  calc w = rsvdField w ++ opcodeField w := (rsvdField_append_opcodeField w).symm
    _ = encode i := by rw [hrsvd, ← hopcode]; rfl

/-! ### The ENGINE's step (40_control.md R117) -/

theorem engineStep_of_decode_ok (s : State) (i : Instr) (h : decode s.cmd = .ok i) : engineStep s = exec i s := by
  rw [engineStep, h]

/-- R92: an illegal word completes as a pre-check error. -/
theorem engineStep_of_decode_error (s : State) (e : DecodeError) (h : decode s.cmd = .error e) :
    engineStep s = .next (recordError s .illegalCmd 0) := by
  rw [engineStep, h, complete]

/-- R110: the ENGINE's turn while BUSY = 1. -/
theorem step_of_schedule_engine (s : State) (rest : List Agent) (hb : s.busy = true) (hs : s.schedule = .engine :: rest) :
    step s = engineStep { s with schedule := rest } := by
  rw [step, nextStep, hs]
  exact if_pos hb

/-- Settles O3: an illegal word is one the decoder rejects, the word 0 is NOP's, and any other word encodes the command it decodes to. -/
theorem illegalWordCompletesWithIllegalCmd : Obligations.IllegalWordCompletesWithIllegalCmd := by
  unfold Obligations.IllegalWordCompletesWithIllegalCmd
  intro s rest hb hs
  rw [step_of_schedule_engine s rest hb hs]
  refine ⟨fun hillegal => ?_, fun hzero => ?_, fun hlegal => ?_⟩
  · obtain ⟨e, he⟩ := (decode_eq_error_iff s.cmd).mpr hillegal
    exact engineStep_of_decode_error _ e he
  · have hnop : decode s.cmd = .ok .nop := by rw [hzero]; rfl
    exact engineStep_of_decode_ok _ _ hnop
  · cases hd : decode s.cmd with
    | error e => exact absurd ((decode_eq_error_iff s.cmd).mp ⟨e, hd⟩) hlegal
    | ok i => exact ⟨i, eq_encode_of_decode_ok s.cmd i hd⟩

end Sys2Proof.Machine
end

section
/-! PROOFS. The host's register accesses (40_control.md R114 to R116): the issue of a command word, the write dropped while BUSY = 1, the
refused access sizes and offsets; and CLEAR (R121). -/

namespace Sys2Proof.Machine

/-! ### Writes to the register window (40_control.md R115, R116) -/

/-- Settles O5: 0x04 is the offset of CMD, whose idle write is the issue of the word. -/
theorem writeToCmdIssuesAnyWord : Obligations.WriteToCmdIssuesAnyWord := by
  unfold Obligations.WriteToCmdIssuesAnyWord
  intro s v hb
  exact regWrite_idle s 0x04 v .cmd hb rfl

/-! ### The HOST's step (30_encoding.md R100, 40_control.md R110) -/

/-- R110: the HOST's turn, with a statement left, takes that statement. -/
theorem step_of_schedule_host (s : State) (st : HostStmt) (stmts : List HostStmt) (rest : List Agent)
    (hs : s.schedule = .host :: rest) (hh : s.host = st :: stmts) :
    step s = hostStatement { s with host := stmts, schedule := rest } st := by
  rw [step, nextStep, hs]
  simp only [agentStep, hostStep, hh]

/-! ### The access size and offset (40_control.md R114) -/

/-- 20_memory.md R78: a write with a meaning has 4 bytes at a multiple of 4. -/
theorem wf_busTxn_w_iff (off : BitVec 8) (bytes : Nat) (v : Word) :
    (BusTxn.w off bytes v).wf = true ↔ bytes = 4 ∧ off.toNat % 4 = 0 := by
  simp [BusTxn.wf]

/-- 20_memory.md R78, of a read. -/
theorem wf_busTxn_r_iff (off : BitVec 8) (bytes : Nat) :
    (BusTxn.r off bytes).wf = true ↔ bytes = 4 ∧ off.toNat % 4 = 0 := by
  simp [BusTxn.wf]

theorem hostWrite_of_word (s : State) (off : BitVec 8) (bytes : Nat) (v : Word) (h : bytes = 4 ∧ off.toNat % 4 = 0) :
    hostWrite s off bytes v = .next (regWrite s off v) := if_pos ((wf_busTxn_w_iff off bytes v).mpr h)

theorem hostWrite_of_not_word (s : State) (off : BitVec 8) (bytes : Nat) (v : Word) (h : ¬(bytes = 4 ∧ off.toNat % 4 = 0)) :
    hostWrite s off bytes v = .refused .hostAccessNotWord := if_neg (mt (wf_busTxn_w_iff off bytes v).mp h)

theorem hostRead_of_not_word (s : State) (off : BitVec 8) (bytes t : Nat) (h : ¬(bytes = 4 ∧ off.toNat % 4 = 0)) :
    hostRead s off bytes t = .refused .hostAccessNotWord := if_neg (mt (wf_busTxn_r_iff off bytes).mp h)

/-- Settles O6: the access has a meaning, and the register write it makes is the dropped one. -/
theorem writeWhileBusyOnlySetsOvr : Obligations.WriteWhileBusyOnlySetsOvr := by
  unfold Obligations.WriteWhileBusyOnlySetsOvr
  intro s off v stmts rest hb hoff hh hs
  rw [step_of_schedule_host s _ stmts rest hs hh, hostStatement, hostWrite_of_word _ _ _ _ ⟨rfl, hoff⟩]
  exact congrArg Host.Outcome.next (regWrite_busy _ off v hb)

/-- Settles O7: the HOST's step takes the access, which is refused in every state. -/
theorem narrowOrMisalignedAccessIsRefused : Obligations.NarrowOrMisalignedAccessIsRefused := by
  unfold Obligations.NarrowOrMisalignedAccessIsRefused
  intro s off bytes t v stmts rest hbad hs
  refine ⟨fun hh => ?_, fun hh => ?_⟩
  · rw [step_of_schedule_host s _ stmts rest hs hh]
    exact hostWrite_of_not_word _ off bytes v hbad
  · rw [step_of_schedule_host s _ stmts rest hs hh]
    exact hostRead_of_not_word _ off bytes t hbad

/-! ### CLEAR (40_control.md R121) -/

/-- CLEAR completes over the cleared tables in every state. -/
theorem exec_clear (s : State) : exec .clear s = .next (recordDone (clearTables s) 0) := by
  rw [exec_eq_complete, bodyOf, complete]

/-- Settles O20: completion keeps the tables CLEAR leaves, each entry of which has its reset value. -/
theorem clearCompletes : Obligations.ClearCompletes := by
  unfold Obligations.ClearCompletes
  intro s
  refine ⟨recordDone (clearTables s) 0, exec_clear s, fun b => ⟨?_, ?_⟩, fun i => ?_, rfl⟩
  · rw [recordDone_freq, clearTables_freq, symGet_zeroFreq]
  · rw [recordDone_code, clearTables_code, symGet_emptyCodes]
  · rw [recordDone_node, clearTables_node, nodeAt_emptyArena]

end Sys2Proof.Machine
end

section
/-! PROOFS. COUNT (41_freq_count.md R130, R131): the state the counting part leaves, that it is reached wherever the source responds and
is the only one, and the sum law. -/

namespace Sys2Proof.Machine

/-! ### The bytes read (20_memory.md R74, R80) -/

/-- R74: a DMA read that completes answers the byte in memory. -/
theorem dmaRead_eq_ok (mm : List Region) (m : Memory) (a : Nat) (b : Byte) (h : dmaRead mm m a = .ok b) :
    b = Memory.read m a := by
  cases hok : memOK mm a with
  | true => rw [dmaRead_ok mm m a hok] at h; exact (Except.ok.inj h).symm
  | false => rw [dmaRead_error mm m a hok] at h; cases h

/-- R80: a run of reads that completes answers the bytes in memory. -/
theorem readBytes_eq_ok (mm : List Region) (m : Memory) (n a : Nat) (bs : List Byte) (h : readBytes mm m a n = .ok bs) :
    bs = Memory.readList m a n := by
  induction n generalizing a bs with
  | zero => exact (Except.ok.inj h).symm
  | succ n ih =>
    rw [readBytes] at h
    split at h
    · cases h
    · rename_i b hb
      split at h
      · cases h
      · rename_i rest hrest
        cases h
        rw [readList_succ, dmaRead_eq_ok mm m a b hb, ih (a + 1) rest hrest]

/-! ### The counting part of COUNT and COMPRESS (R130) -/

/-- The state `CountFreq(SRC_ADDR, SRC_LEN)` leaves (R130). -/
def counted (s : State) : State := { clearValid s with freq := histogram (srcBytes s), origLen := s.srcLen }

theorem countFreq_ok (s : State) (h : allOK s s.srcAddr.toNat s.srcLen.toNat) : countFreq s = .ok (counted s) := by
  rw [countFreq, readBytes_ok s.memMap s.mem _ _ h, run_bind_ok]
  rfl

theorem countFreq_eq_ok (s t : State) (h : countFreq s = .ok t) : t = counted s := by
  rw [countFreq, run_bind_eq_ok] at h
  obtain ⟨bs, hbs, ht⟩ := h
  rw [readBytes_eq_ok _ _ _ _ _ hbs] at ht
  exact (Except.ok.inj ht).symm

/-- COUNT completes over the counted state where the source window is in range and responds. -/
theorem exec_count (s : State) (hsrc : srcInRange s) (hok : allOK s s.srcAddr.toNat s.srcLen.toNat) :
    exec .count s = .next (recordDone (counted s) 0) := by
  rw [exec_eq_complete, bodyOf, countBody, checkSrcRange_ok s hsrc, run_bind_ok, countFreq_ok s hok, run_bind_ok, complete]

/-! ### The counts (R131) -/

theorem srcBytes_length (s : State) : (srcBytes s).length = s.srcLen.toNat := readList_length ..

/-- Every count of the source bytes fits 32 bits, since SRC_LEN does. -/
theorem symGet_counted_freq (s : State) (b : Byte) : (symGet (counted s).freq b).toNat = (srcBytes s).count b :=
  symGet_histogram (srcBytes s) (by rw [srcBytes_length]; exact s.srcLen.isLt) b

/-- R131: the counts sum to ORIG_LEN. -/
theorem freqSum_counted_freq (s : State) : freqSum (counted s).freq = (counted s).origLen.toNat :=
  (freqSum_histogram (srcBytes s) (by rw [srcBytes_length]; exact s.srcLen.isLt)).trans (srcBytes_length s)

/-- Settles O24: COUNT and the counting part of COMPRESS both leave the counted state, which has the law of R131. -/
theorem countCompletesWithTheHistogram : Obligations.CountCompletesWithTheHistogram := by
  unfold Obligations.CountCompletesWithTheHistogram
  intro s
  refine ⟨fun hsrc hok => ?_, fun t ht => ?_⟩
  · refine ⟨recordDone (counted s) 0, exec_count s hsrc hok, rfl, ?_⟩
    rw [recordDone_freq, recordDone_origLen]
    exact ⟨symGet_counted_freq s, freqSum_counted_freq s⟩
  · obtain rfl := countFreq_eq_ok s t ht
    exact ⟨symGet_counted_freq s, freqSum_counted_freq s, rfl⟩

end Sys2Proof.Machine
end

section
/-! PROOFS. BUILD (42_tree_builder.md R140, R148, R149): which frequency tables have a tree, and that the BUILD step installs the tree of
FREQ and does nothing else. -/

namespace Sys2Proof.Machine

/-- R140: a table with a symbol present is not the empty alphabet, and has a tree. -/
theorem exists_treeOf_of_present (f : FreqTable) (b : Byte) (hb : symGet f b ≠ 0) : ∃ T, treeOf f = some T := by
  have hpresent : presentSymbols f ≠ [] := List.ne_nil_of_mem ((mem_presentSymbols f b).mpr hb)
  rw [treeOf, if_neg (mt (allZero_iff f).mp hpresent)]
  exact ⟨_, rfl⟩

/-- R148: the BUILD step installs the tree of FREQ. -/
theorem buildTree_of_treeOf (s : State) (T : Tree) (h : treeOf s.freq = some T) : buildTree s = .ok (installTree s T) := by
  rw [buildTree, h]

/-- BUILD completes over what its step leaves, with no output byte. -/
theorem exec_build_of_buildTree (s t : State) (h : buildTree s = .ok t) : exec .build s = .next (recordDone t 0) := by
  rw [exec_eq_complete, bodyOf, buildBody, h, run_bind_ok, complete]

/-- Settles O25: the state that the step leaves is the one with the tree of FREQ installed, whose sizes are those of its forest. -/
theorem buildCompletesWithTheTreeSizes : Obligations.BuildCompletesWithTheTreeSizes := by
  unfold Obligations.BuildCompletesWithTheTreeSizes
  intro s b hb
  obtain ⟨T, hT⟩ := exists_treeOf_of_present s.freq b hb
  obtain ⟨-, -, -, -, -, hleaves, hroot, hcount, -⟩ := treeOf_forest s.freq T hT
  have hbuild := buildTree_of_treeOf s T hT
  exact ⟨installTree s T, hbuild, rfl, hleaves, hroot, hcount, exec_build_of_buildTree s _ hbuild⟩

/-- Settles O34: both steps install one and the same tree, that of the common FREQ. -/
theorem buildIsAFunctionOfFreqAlone : Obligations.BuildIsAFunctionOfFreqAlone := by
  unfold Obligations.BuildIsAFunctionOfFreqAlone
  intro s₁ s₂ b hfreq hb
  obtain ⟨T, hT⟩ := exists_treeOf_of_present s₁.freq b hb
  have hbuild₁ := buildTree_of_treeOf s₁ T hT
  have hbuild₂ := buildTree_of_treeOf s₂ T (hfreq ▸ hT)
  exact ⟨installTree s₁ T, installTree s₂ T, hbuild₁, hbuild₂, rfl, rfl, rfl, rfl, rfl, rfl,
    exec_build_of_buildTree s₁ _ hbuild₁, exec_build_of_buildTree s₂ _ hbuild₂⟩

end Sys2Proof.Machine
end

section
/-! PROOFS. GENCODE (43_code_generator.md R160 to R165): what the walk lists over the tree of a frequency table, the code table and the
size that come of it, and the laws of the codes. -/

namespace Sys2Proof.Machine

/-! ### The code table of a list of leaves (R162) -/

theorem codesOf_concat (ls : List LeafPath) (l : LeafPath) : codesOf (ls ++ [l]) = writeCode (codesOf ls) l := by
  rw [codesOf, codesOf, List.foldl_append, List.foldl_cons, List.foldl_nil]

theorem symGet_writeCode (t : CodeTable) (l : LeafPath) (b : Byte) :
    symGet (writeCode t l) b = if l.w ≠ 0 ∧ l.sym = b then some l.path else symGet t b := by
  by_cases hw : l.w = 0
  · rw [writeCode, if_pos hw, if_neg fun h => h.1 hw]
  · rw [writeCode, if_neg hw, symGet_symSet]
    exact if_congr (and_iff_right hw).symm rfl rfl

/-- Where no two leaves of nonzero weight share a symbol, the valid codes are the paths of those leaves. -/
theorem symGet_codesOf_eq_some_iff (ls : List LeafPath)
    (huniq : ∀ l ∈ ls, ∀ l' ∈ ls, l.w ≠ 0 → l'.w ≠ 0 → l.sym = l'.sym → l = l') (b : Byte) (p : List Bool) :
    symGet (codesOf ls) b = some p ↔ ∃ l ∈ ls, l.w ≠ 0 ∧ l.sym = b ∧ l.path = p := by
  induction ls using List.reverseRecOn with
  | nil => simp [codesOf]
  | append_singleton ls l ih =>
    have hlast : l ∈ ls ++ [l] := List.mem_append_right _ (List.mem_singleton_self l)
    rw [codesOf_concat, symGet_writeCode]
    by_cases hl : l.w ≠ 0 ∧ l.sym = b
    · rw [if_pos hl]
      obtain ⟨hw, rfl⟩ := hl
      constructor
      · intro h
        exact ⟨l, hlast, hw, rfl, Option.some.inj h⟩
      · rintro ⟨l', hl', hw', hsym, rfl⟩
        rw [huniq l' hl' l hlast hw' hw hsym]
    · rw [if_neg hl, ih fun x hx y hy => huniq x (List.mem_append_left _ hx) y (List.mem_append_left _ hy)]
      constructor
      · rintro ⟨l', hl', h⟩
        exact ⟨l', List.mem_append_left _ hl', h⟩
      · rintro ⟨l', hl', hw', hsym, hpath⟩
        rcases List.mem_append.mp hl' with hl' | hl'
        · exact ⟨l', hl', hw', hsym, hpath⟩
        · rw [List.mem_singleton] at hl'
          exact absurd (hl' ▸ ⟨hw', hsym⟩) hl

/-! ### Paths in the arena (30_encoding.md R99) -/

theorem followPath_append (ar : Arena) (p q : List Bool) (i : Nat) :
    followPath ar i (p ++ q) = (followPath ar i p).bind fun j => followPath ar j q := by
  induction p generalizing i with
  | nil => rfl
  | cons b p ih =>
    rw [List.cons_append, followPath, followPath]
    cases childOf (nodeAt ar i) b with
    | none => rfl
    | some j => exact ih j

/-- A leaf has no child, so no path goes on past it. -/
theorem eq_nil_of_followPath_leaf (ar : Arena) (i j : Nat) (q : List Bool) (sym : Byte) (w : Weight)
    (hleaf : nodeAt ar i = .leaf sym w) (h : followPath ar i q = some j) : q = [] := by
  cases q with
  | nil => rfl
  | cons b q => rw [followPath, hleaf] at h; cases h

/-- A path that begins with the path to a leaf is that path. -/
theorem eq_of_startsWith_leaf_path (ar : Arena) (root i j : Nat) (xs ys : List Bool) (sym : Byte) (w : Weight)
    (hys : followPath ar root ys = some i) (hleaf : nodeAt ar i = .leaf sym w) (hxs : followPath ar root xs = some j)
    (h : startsWith xs ys) : xs = ys := by
  obtain ⟨q, rfl⟩ := h
  rw [followPath_append, hys, Option.bind_some] at hxs
  rw [eq_nil_of_followPath_leaf ar i j q sym w hleaf hxs, List.append_nil]

/-- Leaves stand below index `n` only. -/
theorem ArenaTree.lt_of_leaf {f : FreqTable} {ar : Arena} {n : Nat} (A : ArenaTree f ar n) (i : Nat) (b : Byte) (w : Weight)
    (h : nodeAt ar i = .leaf b w) : i < n := by
  by_contra hi
  by_cases hn : i ≤ 2 * n - 2
  · obtain ⟨l, r, w', hint, -⟩ := A.internals i (by omega) hn
    rw [hint] at h; cases h
  · rw [A.absents i (by omega)] at h; cases h

/-! ### The leaves listed over a tree (R161) -/

/-- The walk keeps the sum of `2^(-depth)`: an internal node gives its share to its two children, half to each. -/
theorem walkTree_sum_half_pow (ar : Arena) (n : Nat) (stack : List (Nat × List Bool)) (ls : List LeafPath)
    (h : walkTree ar n stack = .ok ls) :
    (ls.map fun l => (1 / 2 : ℚ) ^ l.path.length).sum = (stack.map fun e => (1 / 2 : ℚ) ^ e.2.length).sum := by
  induction n generalizing stack ls with
  | zero =>
    cases stack with
    | nil => rw [walkTree] at h; cases h; rfl
    | cons e stack => cases h
  | succ n ih =>
    cases stack with
    | nil => rw [walkTree] at h; cases h; rfl
    | cons e stack =>
      obtain ⟨i, p⟩ := e
      rw [walkTree] at h
      split at h
      · cases h
      · split at h
        · cases h
        · rename_i hrest
          cases h
          rw [List.map_cons, List.sum_cons, ih _ _ hrest, List.map_cons, List.sum_cons]
      · rw [ih _ _ h]
        simp only [List.map_cons, List.sum_cons, List.length_append, List.length_singleton, pow_succ]
        ring

/-- R165: the tree is full. -/
theorem leafPaths_sum_half_pow (ar : Arena) (root : NodeIdx) (ls : List LeafPath) (h : leafPaths ar root = .ok ls) :
    (ls.map fun l => (1 / 2 : ℚ) ^ l.path.length).sum = 1 := by
  rw [walkTree_sum_half_pow ar _ _ ls h]
  simp

section Listed

variable {f : FreqTable} {T : Tree} {ls : List LeafPath} (hT : treeOf f = some T) (hls : leafPaths T.node T.root = .ok ls)
include hT hls

/-- A listed leaf stands where its path leads. -/
theorem listed_stands {l : LeafPath} (hl : l ∈ ls) :
    ∃ i, followPath T.node T.root.toNat l.path = some i ∧ nodeAt T.node i = .leaf l.sym l.w := by
  obtain ⟨ls', hls', -, hpaths⟩ := leafPaths_of_treeOf f T hT
  obtain rfl : ls = ls' := Except.ok.inj (hls.symm.trans hls')
  obtain ⟨-, -, i, -, hi⟩ := hpaths l hl
  exact ⟨i, hi⟩

/-- R165: a listed leaf is between 1 and 255 edges below the root. -/
theorem listed_path_length {l : LeafPath} (hl : l ∈ ls) :
    1 ≤ l.path.length ∧ l.path.length ≤ T.numLeaves.toNat - 1 ∧ l.path.length ≤ 255 := by
  obtain ⟨ls', hls', -, hpaths⟩ := leafPaths_of_treeOf f T hT
  obtain rfl : ls = ls' := Except.ok.inj (hls.symm.trans hls')
  obtain ⟨hpos, hle, -⟩ := hpaths l hl
  have hbound := (arenaTree_of_treeOf f T hT).leaves_bound
  omega

/-- The listed paths lead to the leaves' indices, each index once. -/
theorem listed_followPath_perm :
    (ls.map fun l => followPath T.node T.root.toNat l.path).Perm ((List.range T.numLeaves.toNat).map some) := by
  obtain ⟨ar, U, hnode, hL, -, hnum, hroot, -, F, -⟩ := treeOf_forest f T hT
  obtain ⟨hperm, ls', hls', hwalked⟩ := leafPaths_forest F hL.2 T.root hroot
  rw [hnode] at hls ⊢
  obtain rfl : ls = ls' := Except.ok.inj (hls.symm.trans hls')
  rw [hroot, hnum]
  have hmap : (ls.map fun l => followPath (arenaOf ar) (2 * leafCount f - 2) l.path) = (U (2 * leafCount f - 2)).map some := by
    rw [← List.forall₂_eq_eq_eq, List.forall₂_map_left_iff, List.forall₂_map_right_iff]
    refine hwalked.imp fun l k h => ?_
    obtain ⟨q, hq, hfollow, -⟩ := h.path
    rw [hq, List.nil_append, hfollow]
  rw [hmap]
  exact hperm.map some

theorem listed_followPath_nodup : (ls.map fun l => followPath T.node T.root.toNat l.path).Nodup :=
  (listed_followPath_perm hT hls).nodup_iff.mpr (List.nodup_range.map (Option.some_injective Nat))

/-- Every leaf of the arena is listed, along a path to it. -/
theorem exists_listed_of_leaf (i : Nat) (b : Byte) (w : Weight) (h : nodeAt T.node i = .leaf b w) :
    ∃ l ∈ ls, l.sym = b ∧ l.w = w ∧ followPath T.node T.root.toNat l.path = some i := by
  have hlt := (arenaTree_of_treeOf f T hT).lt_of_leaf i b w h
  have hmem := (listed_followPath_perm hT hls).mem_iff.mpr (List.mem_map_of_mem (f := some) (List.mem_range.mpr hlt))
  obtain ⟨l, hl, hfollow⟩ := List.mem_map.mp hmem
  obtain ⟨i', hfollow', hstands⟩ := listed_stands hT hls hl
  obtain rfl : i = i' := Option.some.inj (hfollow.symm.trans hfollow')
  obtain ⟨hsym, hw⟩ := Node.leaf.inj (hstands.symm.trans h)
  exact ⟨l, hl, hsym, hw, hfollow⟩

/-- Listed leaves of one symbol and of nonzero weight are the same leaf. -/
theorem listed_eq_of_sym_eq : ∀ l ∈ ls, ∀ l' ∈ ls, l.w ≠ 0 → l'.w ≠ 0 → l.sym = l'.sym → l = l' := by
  intro l hl l' hl' hw hw' hsym
  have A := arenaTree_of_treeOf f T hT
  obtain ⟨i, hfollow, hstands⟩ := listed_stands hT hls hl
  obtain ⟨i', hfollow', hstands'⟩ := listed_stands hT hls hl'
  have hpresent : symGet f l.sym ≠ 0 := by
    rw [A.weights i _ _ hstands hw] at hw
    exact mt (setWidth_count_eq_zero _).mpr hw
  obtain rfl : i = i' := (A.symbols l.sym hpresent).unique ⟨l.w, hstands, hw⟩ ⟨l'.w, hsym ▸ hstands', hw'⟩
  exact List.inj_on_of_nodup_map (listed_followPath_nodup hT hls) hl hl' (hfollow.trans hfollow'.symm)

/-- R162: the valid codes are the paths of the listed leaves of nonzero weight. -/
theorem symGet_codesOf_listed (b : Byte) (p : List Bool) :
    symGet (codesOf ls) b = some p ↔ ∃ l ∈ ls, l.w ≠ 0 ∧ l.sym = b ∧ l.path = p :=
  symGet_codesOf_eq_some_iff ls (listed_eq_of_sym_eq hT hls) b p

/-- A listed weight that is not 0 is the symbol's count. -/
theorem listed_weight {l : LeafPath} (hl : l ∈ ls) (hw : l.w ≠ 0) : l.w = (symGet f l.sym).setWidth 40 := by
  obtain ⟨i, -, hstands⟩ := listed_stands hT hls hl
  exact (arenaTree_of_treeOf f T hT).weights i _ _ hstands hw

/-- R162: a leaf of nonzero weight has its path as the code of its symbol. -/
theorem exists_code_of_leaf (i : Nat) (b : Byte) (w : Weight) (h : nodeAt T.node i = .leaf b w) (hw : w ≠ 0) :
    ∃ p, symGet (codesOf ls) b = some p ∧ followPath T.node T.root.toNat p = some i := by
  obtain ⟨l, hl, rfl, rfl, hfollow⟩ := exists_listed_of_leaf hT hls i b w h
  exact ⟨l.path, (symGet_codesOf_listed hT hls _ _).mpr ⟨l, hl, hw, rfl, rfl⟩, hfollow⟩

/-- R162: a present symbol's code is the path to the leaf that holds its count. -/
theorem exists_code_of_present (b : Byte) (hb : symGet f b ≠ 0) :
    ∃ p i, symGet (codesOf ls) b = some p ∧ followPath T.node T.root.toNat p = some i ∧
      nodeAt T.node i = .leaf b ((symGet f b).setWidth 40) := by
  have A := arenaTree_of_treeOf f T hT
  obtain ⟨i, ⟨w, hi, hw⟩, -⟩ := A.symbols b hb
  obtain ⟨p, hcode, hfollow⟩ := exists_code_of_leaf hT hls i b w hi hw
  exact ⟨p, i, hcode, hfollow, A.weights i b w hi hw ▸ hi⟩

/-- R162: a symbol that is not present has no code. -/
theorem code_eq_none_of_absent (b : Byte) (hb : symGet f b = 0) : symGet (codesOf ls) b = none := by
  refine Option.eq_none_iff_forall_ne_some.mpr fun p hp => ?_
  obtain ⟨l, hl, hw, rfl, -⟩ := (symGet_codesOf_listed hT hls b p).mp hp
  rw [listed_weight hT hls hl hw] at hw
  exact hw ((setWidth_count_eq_zero _).mpr hb)

/-! ### The encoded size (R163) -/

/-- A leaf of nonzero weight adds what its symbol's count and code add. -/
theorem listed_bits {l : LeafPath} (hl : l ∈ ls) (hw : l.w ≠ 0) :
    l.w.toNat * l.path.length = (symGet f l.sym).toNat * ((symGet (codesOf ls) l.sym).getD []).length := by
  have hcode := (symGet_codesOf_listed hT hls l.sym l.path).mpr ⟨l, hl, hw, rfl, rfl⟩
  rw [hcode, Option.getD_some, listed_weight hT hls hl hw, BitVec.toNat_setWidth_of_le (by decide)]

/-- R163: the two sums have the same terms that are not 0, one for each leaf of nonzero weight. -/
theorem encodedBits_eq_codedBits : encodedBits ls = codedBits f (codesOf ls) := by
  have hnodup : ls.Nodup := (listed_followPath_nodup hT hls).of_map _
  have hweight (l : LeafPath) (hne : l.w.toNat * l.path.length ≠ 0) : l.w ≠ 0 := fun hw => hne (by simp [hw])
  rw [encodedBits, codedBits, ← List.sum_toFinset _ hnodup, ← List.sum_toFinset _ allSymbols_nodup]
  refine Finset.sum_bij_ne_zero (fun l _ _ => l.sym) ?mem ?inj ?surj ?terms
  case mem => exact fun l _ _ => List.mem_toFinset.mpr (mem_allSymbols l.sym)
  case inj =>
    intro l hl hne l' hl' hne'
    exact listed_eq_of_sym_eq hT hls l (List.mem_toFinset.mp hl) l' (List.mem_toFinset.mp hl') (hweight l hne) (hweight l' hne')
  case surj =>
    intro b _ hne
    cases hcode : symGet (codesOf ls) b with
    | none => simp [hcode] at hne
    | some p =>
      obtain ⟨l, hl, hw, rfl, -⟩ := (symGet_codesOf_listed hT hls b p).mp hcode
      exact ⟨l, List.mem_toFinset.mpr hl, listed_bits hT hls hl hw ▸ hne, rfl⟩
  case terms => exact fun l hl hne => listed_bits hT hls (List.mem_toFinset.mp hl) (hweight l hne)

/-- The encoded size fits BITCNT: at most 255 bits for each of fewer than `2^40` symbols. -/
theorem codedBits_lt : codedBits f (codesOf ls) < 2 ^ 48 := by
  have hlen (b : Byte) : ((symGet (codesOf ls) b).getD []).length ≤ 255 := by
    cases hcode : symGet (codesOf ls) b with
    | none => simp
    | some p =>
      obtain ⟨l, hl, -, -, rfl⟩ := (symGet_codesOf_listed hT hls b p).mp hcode
      exact (listed_path_length hT hls hl).2.2
  have hle : codedBits f (codesOf ls) ≤ freqSum f * 255 := by
    rw [codedBits, freqSum_eq, ← List.sum_map_mul_right]
    exact List.sum_le_sum fun b _ => Nat.mul_le_mul_left _ (hlen b)
  have := freqSum_lt f
  omega

end Listed

/-! ### The GENCODE step (R160, R164) -/

/-- What the GENCODE step leaves, where the walk lists `ls`. -/
def gencoded (s : State) (ls : List LeafPath) : State :=
  { s with code := codesOf ls, bitCnt := BitVec.ofNat 48 (encodedBits ls), codesValid := true }

theorem genCodes_ok (s : State) (ls : List LeafPath) (hvalid : s.treeValid = true) (hls : leafPaths s.node s.root = .ok ls) :
    genCodes s = .ok (gencoded s ls) := by
  have hraise : raiseIf (!s.treeValid) (.pre .noTree 0) = .ok () := (raiseIf_eq_ok _ _).mpr (by rw [hvalid, Bool.not_true])
  rw [genCodes, hraise, run_bind_ok, hls, run_bind_ok, gencoded]

/-- A GENCODE step that completes walked the tree. -/
theorem genCodes_eq_ok (s t : State) (h : genCodes s = .ok t) : ∃ ls, leafPaths s.node s.root = .ok ls ∧ t = gencoded s ls := by
  rw [genCodes, run_bind_eq_ok] at h
  obtain ⟨-, -, h⟩ := h
  rw [run_bind_eq_ok] at h
  obtain ⟨ls, hls, h⟩ := h
  exact ⟨ls, hls, (Except.ok.inj h).symm⟩

theorem exec_gencode_of_genCodes (s t : State) (h : genCodes s = .ok t) : exec .gencode s = .next (recordDone t 0) := by
  rw [exec_eq_complete, bodyOf, gencodeBody, h, run_bind_ok, complete]

/-- Settles O32: the walk over the current tree lists every leaf once, along the path to it. -/
theorem gencodeCompletesWithTheTreePaths : Obligations.GencodeCompletesWithTheTreePaths := by
  unfold Obligations.GencodeCompletesWithTheTreePaths
  intro s hvalid hT
  obtain ⟨ls, hls, -⟩ := leafPaths_of_treeOf s.freq (treeRegs s) hT
  have hgen := genCodes_ok s ls hvalid hls
  have hbits : (BitVec.ofNat 48 (encodedBits ls)).toNat = codedBits s.freq (codesOf ls) := by
    rw [encodedBits_eq_codedBits hT hls, BitVec.toNat_ofNat, Nat.mod_eq_of_lt (codedBits_lt hT hls)]
  exact ⟨gencoded s ls, hgen, rfl, exec_gencode_of_genCodes s _ hgen, exists_code_of_leaf hT hls, exists_code_of_present hT hls,
    code_eq_none_of_absent hT hls, hbits⟩

/-- Settles O33: the codes are paths to different leaves, and a leaf has no child; the walk reads the arena and the root only. -/
theorem codesArePrefixFreeAndFull : Obligations.CodesArePrefixFreeAndFull := by
  unfold Obligations.CodesArePrefixFreeAndFull
  intro f T ls hT hls
  refine ⟨?lengths, ?noneBegins, leafPaths_sum_half_pow _ _ ls hls, ?function⟩
  case lengths =>
    intro b path hcode
    obtain ⟨l, hl, -, -, rfl⟩ := (symGet_codesOf_listed hT hls b path).mp hcode
    exact listed_path_length hT hls hl
  case noneBegins =>
    intro a b xs ys hab hxs hys hstarts
    obtain ⟨l, hl, -, rfl, rfl⟩ := (symGet_codesOf_listed hT hls a xs).mp hxs
    obtain ⟨l', hl', -, rfl, rfl⟩ := (symGet_codesOf_listed hT hls b ys).mp hys
    obtain ⟨i, hfollow, hstands⟩ := listed_stands hT hls hl
    obtain ⟨i', hfollow', hstands'⟩ := listed_stands hT hls hl'
    have hpath := eq_of_startsWith_leaf_path _ _ i' i _ _ _ _ hfollow' hstands' hfollow hstarts
    obtain rfl : i = i' := Option.some.inj (hfollow.symm.trans (hpath ▸ hfollow'))
    exact hab (Node.leaf.inj (hstands.symm.trans hstands')).1
  case function =>
    intro s₁ s₂ t₁ t₂ hnode hroot h₁ h₂
    obtain ⟨ls₁, hls₁, rfl⟩ := genCodes_eq_ok s₁ t₁ h₁
    obtain ⟨ls₂, hls₂, rfl⟩ := genCodes_eq_ok s₂ t₂ h₂
    rw [hnode, hroot] at hls₁
    obtain rfl : ls₁ = ls₂ := Except.ok.inj (hls₁.symm.trans hls₂)
    rfl

end Sys2Proof.Machine
end

section
/-! PROOFS. PACK completes with the payload (44_bit_packer.md R171 to R173): the state it leaves, and the count of its code bits. -/

namespace Sys2Proof.Machine

/-! ### The count of code bits -/

/-- R172: the code bits are counted code by code. -/
theorem codeBits_length (code : CodeTable) (bs : List Byte) :
    (codeBits code bs).length = (bs.map fun b => ((symGet code b).getD []).length).sum :=
  List.length_flatMap

/-- A source window shorter than 2^32 bytes, each coded in at most 255 bits, has fewer than 2^40 code bits. -/
theorem codeBits_srcBytes_length_lt (s : State) (hfit : codesFit s) : (codeBits s.code (srcBytes s)).length < 2 ^ 40 := by
  have hcodes : ∀ n ∈ (srcBytes s).map fun b => ((symGet s.code b).getD []).length, n ≤ 255 := by
    intro n hn
    obtain ⟨b, -, rfl⟩ := List.mem_map.mp hn
    exact codesFit_length_le s hfit b
  have hsum := List.sum_le_card_nsmul _ 255 hcodes
  rw [← codeBits_length, List.length_map, srcBytes_length, smul_eq_mul] at hsum
  have hlen := s.srcLen.isLt
  omega

/-! ### The packed state -/

/-- What the packer leaves before completion: the payload at DST_ADDR and its bits counted. -/
def packed (s : State) : State :=
  { s with
    mem := Memory.writeList s.mem s.dstAddr.toNat (bitsBytes (codeBits s.code (srcBytes s)))
    bitCnt := BitVec.ofNat 48 (codeBits s.code (srcBytes s)).length }

/-- R170: the body of PACK where its checks pass, every source byte responds and has a code, and the payload fits and responds. -/
theorem packBody_ok (s : State) (hwin : windowsOk s) (hvalid : s.codesValid = true)
    (hsrc : allOK s s.srcAddr.toNat s.srcLen.toNat) (hcode : ∀ b ∈ srcBytes s, (symGet s.code b).isSome = true)
    (hfit : ceilDiv (codeBits s.code (srcBytes s)).length 8 ≤ s.dstCap.toNat)
    (hdst : allOK s s.dstAddr.toNat (ceilDiv (codeBits s.code (srcBytes s)).length 8)) :
    packBody s = .ok (ceilDiv (codeBits s.code (srcBytes s)).length 8, packed s) := by
  obtain ⟨p, hp, ho, hnb, hmem⟩ := packBits_ok s.memMap s.code s.mem s.srcAddr.toNat s.srcLen.toNat s.dstAddr.toNat
    s.dstCap.toNat hsrc hcode hfit hdst (src_outside_dst s hwin)
  have hraise : raiseIf (!s.codesValid) (.pre .noCodes 0) = .ok () := (raiseIf_eq_ok _ _).mpr (by rw [hvalid, Bool.not_true])
  rw [packBody, checkWindows_ok s hwin, run_bind_ok, hraise, run_bind_ok, hp, run_bind_ok, ho, hnb, hmem]
  rfl

/-- Settles O35: the packer leaves the payload of `bitsBytes`, and BITCNT holds the whole count since it is below 2^40. -/
theorem packCompletesWithThePayload : Obligations.PackCompletesWithThePayload := by
  unfold Obligations.PackCompletesWithThePayload
  intro s hwin hvalid hsrc hcode hfit hdst
  have hbytes := bitsBytes_length (codeBits s.code (srcBytes s))
  rw [hbytes] at hfit hdst
  have hexec : exec .pack s = .next (recordDone (packed s) (ceilDiv (codeBits s.code (srcBytes s)).length 8)) := by
    rw [exec_eq_complete, bodyOf, packBody_ok s hwin hvalid hsrc hcode hfit hdst, complete]
  refine ⟨_, hexec, rfl, hbytes, bitsBytes_bit _, fun hwidth => ?bitCount, storedAt_writeList s.mem _ _⟩
  case bitCount =>
    have hlt := codeBits_srcBytes_length_lt s hwidth
    refine ⟨hlt, ?_⟩
    rw [recordDone_bitCnt, packed, BitVec.toNat_ofNat, Nat.mod_eq_of_lt (by omega), codeBits_length]

end Sys2Proof.Machine
end

section
/-! PROOFS. The written header (45_header_codec.md R180 to R183): HDR_WRITE completes with it, where each of its bytes stands, and
ParseHeader over the memory WriteHeader left. -/

namespace Sys2Proof.Machine

/-! ### The byte layout (R181, 20_memory.md R75) -/

theorem le32_getD (v : Word) (t : Nat) (ht : t < 4) : (le32 v).getD t 0 = v.extractLsb' (8 * t) 8 := by
  interval_cases t <;> rfl

/-- Byte `t` of field `i` stands at offset `4i + t`. -/
theorem flatMap_le32_getD (ws : List Word) (i t : Nat) (hi : i < ws.length) (ht : t < 4) :
    (ws.flatMap le32).getD (4 * i + t) 0 = (ws.getD i 0).extractLsb' (8 * t) 8 := by
  induction ws generalizing i with
  | nil => simp at hi
  | cons w ws ih =>
    have hlen : (le32 w).length = 4 := rfl
    rw [List.flatMap_cons]
    cases i with
    | zero => rw [List.getD_append _ _ _ _ (by omega), Nat.mul_zero, Nat.zero_add, le32_getD w t ht, List.getD_cons_zero]
    | succ i =>
      rw [List.getD_append_right _ _ _ _ (by omega), hlen, show 4 * (i + 1) + t - 4 = 4 * i + t by omega,
        ih i (Nat.lt_of_succ_lt_succ hi), List.getD_cons_succ]

/-- ORIG_LEN stands at offset 0. -/
theorem headerBytes_getD_len (n : Word) (f : FreqTable) (t : Nat) (ht : t < 4) :
    (headerBytes n f).getD t 0 = n.extractLsb' (8 * t) 8 := by
  have h := flatMap_le32_getD (n :: f.toList) 0 t (by simp) ht
  rwa [Nat.mul_zero, Nat.zero_add, List.getD_cons_zero] at h

/-- The count of symbol `b` stands at offset `4 + 4b`. -/
theorem headerBytes_getD_freq (n : Word) (f : FreqTable) (b : Byte) (t : Nat) (ht : t < 4) :
    (headerBytes n f).getD (4 + 4 * b.toNat + t) 0 = (symGet f b).extractLsb' (8 * t) 8 := by
  have hb : b.toNat < f.toList.length := by rw [Vector.length_toList]; exact b.isLt
  rw [show 4 + 4 * b.toNat + t = 4 * (b.toNat + 1) + t by omega, headerBytes,
    flatMap_le32_getD _ _ t (Nat.succ_lt_succ hb) ht, List.getD_cons_succ, List.getD_eq_getElem _ _ hb,
    Vector.getElem_toList, symGet]

/-- The header by itself, with no byte after it, parses back. -/
theorem headerLen_headerBytes_self (n : Word) (f : FreqTable) : headerLen (headerBytes n f) = n := by
  simpa using headerLen_headerBytes n f []

theorem headerFreq_headerBytes_self (n : Word) (f : FreqTable) : headerFreq (headerBytes n f) = f := by
  simpa using headerFreq_headerBytes n f []

/-! ### HDR_WRITE (R180) -/

theorem writeHeader_ok (s : State) (hok : allOK s s.dstAddr.toNat 1028) :
    writeHeader s = .ok (Memory.writeList s.mem s.dstAddr.toNat (headerBytes s.origLen s.freq)) :=
  writeBytes_ok _ _ _ _ (by rwa [headerBytes_length])

/-- HDR_WRITE completes with 1028 bytes where its checks pass and the window responds. -/
theorem exec_hdrWrite (s : State) (hdst : dstInRange s) (hcap : 1028 ≤ s.dstCap.toNat) (hok : allOK s s.dstAddr.toNat 1028) :
    exec .hdrWrite s = .next (recordDone
      { s with mem := Memory.writeList s.mem s.dstAddr.toNat (headerBytes s.origLen s.freq) } 1028) := by
  have hraise : raiseIf (decide (s.dstCap.toNat < Config.hdrBytes)) (.pre .dstOverflow 0) = .ok () :=
    (raiseIf_eq_ok _ _).mpr (decide_eq_false (Nat.not_lt_of_ge hcap))
  rw [exec_eq_complete, bodyOf, hdrWriteBody, checkDstRange_ok s hdst, run_bind_ok, hraise, run_bind_ok, writeHeader_ok s hok,
    run_bind_ok, complete, Config.hdrBytes]

/-- Settles O38: every byte of the window's header responds, so the run of writes stores the list whose fields are ORIG_LEN and FREQ. -/
theorem hdrWriteCompletesWithTheHeader : Obligations.HdrWriteCompletesWithTheHeader := by
  unfold Obligations.HdrWriteCompletesWithTheHeader
  intro s
  exact ⟨exec_hdrWrite s, storedAt_writeList s.mem _ _, headerBytes_length _ _, headerBytes_getD_len _ _,
    headerBytes_getD_freq _ _, headerLen_headerBytes_self _ _, headerFreq_headerBytes_self _ _⟩

/-! ### What was written reads back (20_memory.md R74, R80) -/

/-- R80: where a run of writes completes, every byte of it responds. -/
theorem memOK_of_writeBytes_ok (mm : List Region) (bs : List Byte) (m m' : Memory) (a : Nat) (h : writeBytes mm m a bs = .ok m') :
    ∀ i < bs.length, memOK mm (a + i) = true := by
  intro i
  induction i using Nat.strong_induction_on with
  | _ i ih =>
    intro hi
    by_contra hbad
    rw [writeBytes_error mm bs m a i hi (fun k hk => ih k hk (hk.trans hi)) (Bool.eq_false_of_not_eq_true hbad)] at h
    cases h

theorem readList_of_storedAt (m m' : Memory) (a : Nat) (bs : List Byte) (h : storedAt m m' a bs) :
    Memory.readList m' a bs.length = bs := by
  obtain ⟨hread, -⟩ := h
  refine List.ext_getElem (readList_length ..) fun i _ hi => ?_
  simp only [Memory.readList, List.getElem_map, List.getElem_range, hread i hi, List.getD_eq_getElem _ _ hi]

/-- The bytes of a completed run of writes, read back. -/
theorem readBytes_of_writeBytes_ok (mm : List Region) (bs : List Byte) (m m' : Memory) (a : Nat) (hm : Memory.wf m = true)
    (h : writeBytes mm m a bs = .ok m') : readBytes mm m' a bs.length = .ok bs := by
  rw [readBytes_ok mm m' _ a (memOK_of_writeBytes_ok mm bs m m' a h), writeBytes_eq_ok mm bs m m' a h,
    readList_of_storedAt m _ a bs (storedAt_writeList m a bs hm)]

/-! ### ParseHeader (R182, R183) -/

/-- R184: a header is corrupt exactly when it is not consistent. -/
theorem headerCorrupt_eq_false_iff (n : Word) (f : FreqTable) : headerCorrupt n f = false ↔ n ≠ 0 ∧ freqSum f = n.toNat := by
  simp [headerCorrupt]

/-- R182: ParseHeader where the 1028 bytes it reads are the header of `n` and `f`. -/
theorem parseHeader_of_readBytes (u : State) (n : Word) (f : FreqTable)
    (h : readBytes u.memMap u.mem u.srcAddr.toNat 1028 = .ok (headerBytes n f)) :
    parseHeader u = (do
      raiseIf (headerCorrupt n f) (.inflight .corruptHeader 0)
      .ok { clearValid u with origLen := n, freq := f }) := by
  rw [parseHeader, Config.hdrBytes, h, run_bind_ok, headerLen_headerBytes_self, headerFreq_headerBytes_self]

/-- Settles O40: the written bytes respond and read back as the header, so only R184's consistency test decides. -/
theorem parsedHeaderIsTheWrittenHeader : Obligations.ParsedHeaderIsTheWrittenHeader := by
  unfold Obligations.ParsedHeaderIsTheWrittenHeader
  rintro s u m hm hwrite rfl haddr hmap
  have hread : readBytes u.memMap u.mem u.srcAddr.toNat 1028 = .ok (headerBytes s.origLen s.freq) := by
    rw [haddr, hmap, ← headerBytes_length s.origLen s.freq]
    exact readBytes_of_writeBytes_ok _ _ _ _ _ hm hwrite
  rw [parseHeader_of_readBytes u _ _ hread, ← headerCorrupt_eq_false_iff]
  refine ⟨fun hok => ?consistent, fun hbad => ?corrupt⟩
  case consistent =>
    rw [hok, raiseIf_false, run_bind_ok]
    exact ⟨_, rfl, rfl, rfl⟩
  case corrupt => rw [Bool.eq_true_of_not_eq_false hbad, raiseIf_true, run_bind_error]

end Sys2Proof.Machine
end

section
/-! PROOFS. DECOMPRESS undoes COMPRESS (47_composite.md R200 to R205): the bits of a payload, its length and the leaves it goes along, the
state each of the two commands leaves where it completes, and the archive read back. -/

namespace Sys2Proof.Machine

/-! ### Payload bits (20_memory.md R76, 30_encoding.md R98) -/

theorem bytesBits_length (bs : List Byte) : (bytesBits bs).length = 8 * bs.length := by
  simp [bytesBits, Nat.mul_comm]

/-- R76: bit `j` of a byte sequence is bit `j mod 8` of byte `j div 8`. -/
theorem bytesBits_getD (bs : List Byte) (j : Nat) : (bytesBits bs).getD j false = (bs.getD (j / 8) 0).getLsbD (j % 8) := by
  induction bs generalizing j with
  | nil => simp [bytesBits]
  | cons b bs ih =>
    rw [bytesBits, List.flatMap_cons, ← bytesBits]
    by_cases hj : j < 8
    · rw [List.getD_append _ _ _ _ (by simpa using hj), Nat.div_eq_of_lt hj, Nat.mod_eq_of_lt hj]
      simp [List.getD_eq_getElem?_getD, hj]
    · obtain ⟨k, rfl⟩ := Nat.exists_eq_add_of_le' (Nat.le_of_not_lt hj)
      rw [List.getD_append_right _ _ _ _ (by simp), List.length_map, List.length_range, Nat.add_sub_cancel, ih,
        Nat.add_div_right _ (by decide), Nat.add_mod_right, List.getD_cons_succ]

/-- R98: a payload's bits are the code bits, then the padding. -/
theorem bytesBits_bitsBytes (bits : List Bool) : ∃ tail, bytesBits (bitsBytes bits) = bits ++ tail := by
  have hlen : bits.length ≤ (bytesBits (bitsBytes bits)).length := by
    rw [bytesBits_length, bitsBytes_length, ceilDiv]; omega
  have hprefix : bits <+: bytesBits (bitsBytes bits) := by
    rw [List.prefix_iff_getElem]
    refine ⟨hlen, fun j hj => ?_⟩
    rw [← List.getD_eq_getElem _ false hj, ← List.getD_eq_getElem _ false (by omega), bytesBits_getD, bitsBytes_bit]
  obtain ⟨tail, htail⟩ := hprefix
  exact ⟨tail, htail.symm⟩

/-! ### The bytes of a window -/

/-- The last bytes of the source window. -/
theorem srcBytes_drop (s : State) (i : Nat) :
    (srcBytes s).drop i = Memory.readList s.mem (s.srcAddr.toNat + i) (s.srcLen.toNat - i) := by
  refine List.ext_getElem (by simp [srcBytes]) fun k _ _ => ?_
  simp [srcBytes, Memory.readList, Nat.add_assoc]

/-- Bytes written read back. -/
theorem readList_writeList_self (m : Memory) (a : Nat) (bs : List Byte) (hm : Memory.wf m = true) :
    Memory.readList (Memory.writeList m a bs) a bs.length = bs :=
  readList_of_storedAt m _ a bs (storedAt_writeList m a bs hm)

/-- Bytes stored elsewhere do not change what a range reads. -/
theorem readList_writeList_outside (m : Memory) (a x n : Nat) (bs : List Byte)
    (h : ∀ i < n, ¬(a ≤ x + i ∧ x + i < a + bs.length)) :
    Memory.readList (Memory.writeList m a bs) x n = Memory.readList m x n :=
  List.map_congr_left fun i hi => Memory.read_writeList_outside bs m a (x + i) (h i (List.mem_range.mp hi))

theorem srcBytes_length_lt (s : State) : (srcBytes s).length < 2 ^ 32 := srcBytes_length s ▸ s.srcLen.isLt

theorem srcBytes_eq_nil (s : State) : srcBytes s = [] ↔ s.srcLen = 0 := by
  rw [← List.length_eq_zero_iff, srcBytes_length, ← BitVec.toNat_inj]
  rfl

/-! ### The codes of a byte sequence's own counts (30_encoding.md R98, 44_bit_packer.md R174) -/

/-- The code bits of a byte sequence are those its counts ask for. -/
theorem codedBits_histogram (bs : List Byte) (hlen : bs.length < 2 ^ 32) (code : CodeTable) :
    codedBits (histogram bs) code = (codeBits code bs).length := by
  simp only [codedBits, symGet_histogram bs hlen]
  rw [← List.sum_toFinset _ allSymbols_nodup, codeBits_length, Finset.sum_list_map_count bs]
  refine (Finset.sum_subset (fun b _ => List.mem_toFinset.mpr (mem_allSymbols b)) fun b _ hb => ?_).symm
  rw [List.count_eq_zero_of_not_mem (mt List.mem_toFinset.mpr hb), Nat.zero_mul]

theorem symGet_histogram_ne_zero (bs : List Byte) (hlen : bs.length < 2 ^ 32) (b : Byte) (hb : b ∈ bs) :
    symGet (histogram bs) b ≠ 0 := by
  intro h
  have hcount := symGet_histogram bs hlen b
  rw [h] at hcount
  exact (List.count_pos_iff.mpr hb).ne hcount

/-- A nonempty byte sequence has a tree, whose leaves the walk lists. -/
theorem exists_tree_of_bytes (bs : List Byte) (hne : bs ≠ []) (hlen : bs.length < 2 ^ 32) :
    ∃ T ls, treeOf (histogram bs) = some T ∧ leafPaths T.node T.root = .ok ls := by
  obtain ⟨b, hb⟩ := List.exists_mem_of_ne_nil bs hne
  obtain ⟨T, hT⟩ := exists_treeOf_of_present _ b (symGet_histogram_ne_zero bs hlen b hb)
  obtain ⟨ls, hls, -⟩ := leafPaths_of_treeOf _ T hT
  exact ⟨T, ls, hT, hls⟩

/-- The path of every listed leaf leads from the root through internal nodes to a leaf of its symbol. -/
theorem listed_reaches {f : FreqTable} {T : Tree} {ls : List LeafPath} (hT : treeOf f = some T)
    (hls : leafPaths T.node T.root = .ok ls) {l : LeafPath} (hl : l ∈ ls) : reaches T.node T.root.toNat l.path l.sym := by
  refine leafPaths_reaches T.node T.root ls hls (fun sym w hroot => ?_) l hl
  have A := arenaTree_of_treeOf f T hT
  have hbound := A.leaves_bound
  have hlt := A.lt_of_leaf _ sym w hroot
  obtain ⟨-, -, -, -, -, hnum, hroot', -⟩ := treeOf_forest f T hT
  omega

section Coded

variable {bs : List Byte} {T : Tree} {ls : List LeafPath} (hlen : bs.length < 2 ^ 32)
  (hT : treeOf (histogram bs) = some T) (hls : leafPaths T.node T.root = .ok ls)
include hT hls

/-- R97: the archive of a nonempty sequence, where the walk lists the leaves of its tree. -/
theorem archive_of_tree (hne : bs ≠ []) :
    archive bs = headerBytes (BitVec.ofNat 32 bs.length) (histogram bs) ++ bitsBytes (codeBits (codesOf ls) bs) := by
  rw [archive, if_neg hne, codesOfFreq, hT, Option.bind_some, codesFor, hls, Option.getD_some]

theorem archive_length_of_tree (hne : bs ≠ []) : (archive bs).length = 1028 + ceilDiv (codeBits (codesOf ls) bs).length 8 := by
  rw [archive_of_tree hT hls hne, List.length_append, headerBytes_length, bitsBytes_length]

include hlen

/-- R174: the payload's code bits are as many as the walk counts. -/
theorem codeBits_codesOf_length : (codeBits (codesOf ls) bs).length = encodedBits ls := by
  rw [encodedBits_eq_codedBits hT hls, codedBits_histogram bs hlen]

theorem isSome_code_of_mem (b : Byte) (hb : b ∈ bs) : (symGet (codesOf ls) b).isSome = true := by
  obtain ⟨p, -, hp, -⟩ := exists_code_of_present hT hls b (symGet_histogram_ne_zero bs hlen b hb)
  rw [hp, Option.isSome_some]

/-- R98: bytes of the sequence are coded along the paths of listed leaves, one leaf of its symbol for each byte. -/
theorem exists_leaves_of_bytes (cs : List Byte) (hcs : ∀ b ∈ cs, b ∈ bs) :
    ∃ xs : List LeafPath, (∀ x ∈ xs, x ∈ ls) ∧ (xs.map fun x => x.sym) = cs ∧
      (xs.flatMap fun x => x.path) = codeBits (codesOf ls) cs := by
  induction cs with
  | nil => exact ⟨[], by simp, rfl, rfl⟩
  | cons b cs ih =>
    rw [List.forall_mem_cons] at hcs
    obtain ⟨xs, hmem, hsyms, hpaths⟩ := ih hcs.2
    obtain ⟨p, hp⟩ := Option.isSome_iff_exists.mp (isSome_code_of_mem hlen hT hls b hcs.1)
    obtain ⟨l, hl, -, hsym, rfl⟩ := (symGet_codesOf_listed hT hls b p).mp hp
    refine ⟨l :: xs, List.forall_mem_cons.mpr ⟨hl, hmem⟩, by rw [List.map_cons, hsym, hsyms], ?_⟩
    rw [List.flatMap_cons, hpaths, codeBits, codeBits, List.flatMap_cons, hp, Option.getD_some]

end Coded

/-! ### COMPRESS (R200) -/

/-- The state of a COMPRESS whose counts, tree and codes are made, before it writes. -/
def tabled (s : State) (T : Tree) (ls : List LeafPath) : State := gencoded (installTree (counted s) T) ls

/-- What COMPRESS of a nonempty window leaves before completion: its tables, and the archive at DST_ADDR. -/
def compressed (s : State) (T : Tree) (ls : List LeafPath) : State :=
  { tabled s T ls with mem := Memory.writeList s.mem s.dstAddr.toNat (archive (srcBytes s)) }

section Source

variable {s : State} {T : Tree} {ls : List LeafPath} (hsrc : allOK s s.srcAddr.toNat s.srcLen.toNat)
  (hT : treeOf (histogram (srcBytes s)) = some T) (hls : leafPaths T.node T.root = .ok ls)
include hsrc hT hls

/-- R200: COMPRESS over a source that responds makes its tables and goes on to the capacity test. -/
theorem compressNonempty_tabled : compressNonempty s = (do
    raiseIf (decide (1028 + ceilDiv (encodedBits ls) 8 > s.dstCap.toNat)) (.inflight .dstOverflow 0)
    let m ← writeHeader (tabled s T ls)
    let p ← packBits s.memMap (codesOf ls) m s.srcAddr.toNat s.srcLen.toNat (s.dstAddr.toNat + 1028) (s.dstCap.toNat - 1028)
    .ok (1028 + p.o, { tabled s T ls with mem := p.mem, bitCnt := BitVec.ofNat 48 p.nb })) := by
  have hbuild : buildTree (counted s) = .ok (installTree (counted s) T) := buildTree_of_treeOf _ T hT
  have hgen : genCodes (installTree (counted s) T) = .ok (tabled s T ls) := genCodes_ok _ ls rfl hls
  have hbitCnt : (tabled s T ls).bitCnt.toNat = encodedBits ls :=
    BitVec.toNat_ofNat .. ▸ Nat.mod_eq_of_lt (encodedBits_eq_codedBits hT hls ▸ codedBits_lt hT hls)
  rw [compressNonempty, countFreq_ok s hsrc, run_bind_ok, hbuild, run_bind_ok, hgen, run_bind_ok, hbitCnt]
  rfl

/-- R200: the body of COMPRESS where its checks pass, every source byte responds, and the archive fits and responds. -/
theorem compressBody_ok (hwin : windowsOk s) (hne : s.srcLen ≠ 0) (hfit : (archive (srcBytes s)).length ≤ s.dstCap.toNat)
    (hdst : allOK s s.dstAddr.toNat (archive (srcBytes s)).length) :
    compressBody s = .ok ((archive (srcBytes s)).length, compressed s T ls) := by
  have hlen := srcBytes_length_lt s
  have hbytes : srcBytes s ≠ [] := mt (srcBytes_eq_nil s).mp hne
  have harch := archive_of_tree hT hls hbytes
  rw [srcBytes_length, BitVec.ofNat_toNat, BitVec.setWidth_eq] at harch
  have hbits := codeBits_codesOf_length hlen hT hls
  have hdis := src_outside_dst s hwin
  rw [archive_length_of_tree hT hls hbytes] at hfit hdst ⊢
  have hcap : raiseIf (decide (1028 + ceilDiv (encodedBits ls) 8 > s.dstCap.toNat)) (.inflight .dstOverflow 0) = .ok () :=
    (raiseIf_eq_ok _ _).mpr (decide_eq_false (hbits ▸ Nat.not_lt_of_ge hfit))
  have hheader : writeHeader (tabled s T ls) =
      .ok (Memory.writeList s.mem s.dstAddr.toNat (headerBytes s.srcLen (histogram (srcBytes s)))) :=
    writeHeader_ok (tabled s T ls) fun i hi => hdst i (by omega)
  have hread : Memory.readList (Memory.writeList s.mem s.dstAddr.toNat (headerBytes s.srcLen (histogram (srcBytes s))))
      s.srcAddr.toNat s.srcLen.toNat = srcBytes s :=
    readList_writeList_outside _ _ _ _ _ fun i hi => by
      have := hdis i hi
      rw [headerBytes_length]; omega
  have hpack := packBits_ok s.memMap (codesOf ls)
    (Memory.writeList s.mem s.dstAddr.toNat (headerBytes s.srcLen (histogram (srcBytes s)))) s.srcAddr.toNat s.srcLen.toNat
    (s.dstAddr.toNat + 1028) (s.dstCap.toNat - 1028) hsrc
  rw [hread] at hpack
  obtain ⟨p, hp, ho, hnb, hmem⟩ := hpack (isSome_code_of_mem hlen hT hls) (by omega)
    (fun i hi => by rw [Nat.add_assoc]; exact hdst _ (by omega))
    (fun i hi => by have := hdis i hi; omega)
  have harchive : p.mem = Memory.writeList s.mem s.dstAddr.toNat (archive (srcBytes s)) := by
    rw [hmem, harch, Memory.writeList_append, headerBytes_length]
  rw [compressBody, checkWindows_ok s hwin, run_bind_ok, if_neg hne, compressNonempty_tabled hsrc hT hls, hcap, run_bind_ok,
    hheader, run_bind_ok, hp, run_bind_ok, ho, hnb, harchive, hbits]
  rfl

end Source

/-! ### DECOMPRESS (R203) -/

/-- What ParseHeader of the header bytes `hb` leaves (R182). -/
def parsed (s : State) (hb : List Byte) : State := { clearValid s with origLen := headerLen hb, freq := headerFreq hb }

/-- What a DECOMPRESS that emits the leaves `xs` leaves before completion, where `hb` is the header read. -/
def decompressed (s : State) (hb : List Byte) (T : Tree) (xs : List LeafPath) : State :=
  { installTree (parsed s hb) T with
    mem := Memory.writeList s.mem s.dstAddr.toNat (xs.map fun x => x.sym)
    bitCnt := BitVec.ofNat 48 (xs.flatMap fun x => x.path).length }

section Header

variable {s : State} {hb : List Byte} {T : Tree} {ls : List LeafPath} (hhb : hb = Memory.readList s.mem s.srcAddr.toNat 1028)
  (hcons : headerLen hb ≠ 0 ∧ freqSum (headerFreq hb) = (headerLen hb).toNat)
include hhb hcons

/-- R182: ParseHeader of a consistent header that responds. -/
theorem parseHeader_ok (hok : allOK s s.srcAddr.toNat 1028) : parseHeader s = .ok (parsed s hb) := by
  rw [parseHeader, Config.hdrBytes, readBytes_ok s.memMap s.mem _ _ hok, run_bind_ok, ← hhb,
    (headerCorrupt_eq_false_iff _ _).mpr hcons, raiseIf_false, run_bind_ok, parsed]

variable (hT : treeOf (headerFreq hb) = some T) (hls : leafPaths T.node T.root = .ok ls)
include hT hls

/-- R203: DECOMPRESS of a consistent header rebuilds the tree and goes on to the capacity check. -/
theorem decompressNonempty_parsed (hok : allOK s s.srcAddr.toNat 1028) : decompressNonempty s = (do
    raiseIf (decide (encodedBits ls > 8 * (s.srcLen.toNat - 1028))) (.inflight .truncatedPayload 0)
    raiseIf (decide ((headerLen hb).toNat > s.dstCap.toNat)) (.inflight .dstOverflow 0)
    let c ← decodePayload s.memMap T.node T.root.toNat s.mem (s.srcAddr.toNat + 1028) (s.srcLen.toNat - 1028) s.dstAddr.toNat
      (headerLen hb).toNat
    .ok (c.cnt, { installTree (parsed s hb) T with mem := c.mem, bitCnt := BitVec.ofNat 48 c.j })) := by
  have hbuild : buildTree (parsed s hb) = .ok (installTree (parsed s hb) T) := buildTree_of_treeOf _ T hT
  rw [decompressNonempty, parseHeader_ok hhb hcons hok, run_bind_ok, hbuild, run_bind_ok, installTree_node, installTree_root, hls,
    run_bind_ok]
  rfl

/-- R203: the body of DECOMPRESS where its checks pass and the payload goes along the paths of ORIG_LEN leaves, whatever follows. -/
theorem decompressBody_ok (xs : List LeafPath) (tail : List Bool) (hwin : windowsOk s) (hlen : 1028 ≤ s.srcLen.toNat)
    (hpayload : encodedBits ls ≤ 8 * (s.srcLen.toNat - 1028)) (hfit : (headerLen hb).toNat ≤ s.dstCap.toNat)
    (hxs : ∀ x ∈ xs, x ∈ ls) (hcount : xs.length = (headerLen hb).toNat)
    (hbits : bytesBits ((srcBytes s).drop 1028) = (xs.flatMap fun x => x.path) ++ tail)
    (hsrc : allOK s s.srcAddr.toNat (1028 + ceilDiv (xs.flatMap fun x => x.path).length 8))
    (hdst : allOK s s.dstAddr.toNat xs.length) :
    decompressBody s = .ok (xs.length, decompressed s hb T xs) := by
  have hne : s.srcLen ≠ 0 := by rintro h; rw [h] at hlen; exact absurd hlen (by decide)
  have hshort : raiseIf (decide (s.srcLen.toNat < Config.hdrBytes)) (.pre .corruptHeader 0) = .ok () :=
    (raiseIf_eq_ok _ _).mpr (decide_eq_false (Nat.not_lt_of_ge hlen))
  have hcapacity : raiseIf (decide (encodedBits ls > 8 * (s.srcLen.toNat - 1028))) (.inflight .truncatedPayload 0) = .ok () :=
    (raiseIf_eq_ok _ _).mpr (decide_eq_false (Nat.not_lt_of_ge hpayload))
  have hroom : raiseIf (decide ((headerLen hb).toNat > s.dstCap.toNat)) (.inflight .dstOverflow 0) = .ok () :=
    (raiseIf_eq_ok _ _).mpr (decide_eq_false (Nat.not_lt_of_ge hfit))
  rw [srcBytes_drop] at hbits
  obtain ⟨c, hc, hcnt, hj, hmem⟩ := decodePayload_ok s.memMap T.node T.root.toNat s.mem (s.srcAddr.toNat + 1028)
    (s.srcLen.toNat - 1028) s.dstAddr.toNat xs tail (fun x hx => listed_reaches hT hls (hxs x hx)) hbits
    (fun q hq => by rw [Nat.add_assoc]; exact hsrc _ (by omega)) hdst
    (fun q hq => by have := src_outside_dst s hwin (1028 + q) (by omega); omega)
  rw [decompressBody, checkWindows_ok s hwin, run_bind_ok, if_neg hne, hshort, run_bind_ok,
    decompressNonempty_parsed hhb hcons hT hls fun i hi => hsrc i (by omega), hcapacity, run_bind_ok, hroom, run_bind_ok,
    ← hcount, hc, run_bind_ok, hcnt, hj, hmem, decompressed]

end Header

/-! ### The archive read back (R205) -/

/-- R97, R181: the fields of an archive's header are the sequence's length and counts. -/
theorem header_of_archive (bs : List Byte) (hne : bs ≠ []) (hlen : bs.length < 2 ^ 32) :
    (headerLen ((archive bs).take 1028)).toNat = bs.length ∧ headerFreq ((archive bs).take 1028) = histogram bs := by
  rw [archive, if_neg hne, List.take_left' (headerBytes_length _ _), headerLen_headerBytes_self, headerFreq_headerBytes_self,
    BitVec.toNat_ofNat, Nat.mod_eq_of_lt hlen]
  exact ⟨rfl, rfl⟩

/-- R203: over a source window that holds the archive of a nonempty sequence, the body of DECOMPRESS stores the sequence at DST_ADDR. -/
theorem decompressBody_archive (u : State) (bs : List Byte) (hne : bs ≠ []) (hlen : bs.length < 2 ^ 32)
    (hbytes : srcBytes u = archive bs) (hwin : windowsOk u) (hsrc : allOK u u.srcAddr.toNat u.srcLen.toNat)
    (hfit : bs.length ≤ u.dstCap.toNat) (hdst : allOK u u.dstAddr.toNat bs.length) :
    ∃ v, decompressBody u = .ok (bs.length, v) ∧ v.mem = Memory.writeList u.mem u.dstAddr.toNat bs := by
  obtain ⟨T, ls, hT, hls⟩ := exists_tree_of_bytes bs hne hlen
  have hsize : u.srcLen.toNat = 1028 + ceilDiv (codeBits (codesOf ls) bs).length 8 := by
    rw [← srcBytes_length, hbytes, archive_length_of_tree hT hls hne]
  have hheader : (archive bs).take 1028 = Memory.readList u.mem u.srcAddr.toNat 1028 := by
    rw [← hbytes, srcBytes_take u 1028 (by omega)]
  have hpayload : (srcBytes u).drop 1028 = bitsBytes (codeBits (codesOf ls) bs) := by
    rw [hbytes, archive_of_tree hT hls hne, List.drop_left' (headerBytes_length _ _)]
  obtain ⟨hn, hf⟩ := header_of_archive bs hne hlen
  have hn0 : headerLen ((archive bs).take 1028) ≠ 0 := by
    intro h
    rw [h] at hn
    exact hne (List.length_eq_zero_iff.mp hn.symm)
  obtain ⟨xs, hxs, rfl, hpaths⟩ := exists_leaves_of_bytes hlen hT hls bs fun _ => id
  obtain ⟨tail, htail⟩ := bytesBits_bitsBytes (codeBits (codesOf ls) (xs.map fun x => x.sym))
  rw [List.length_map] at hn hfit hdst ⊢
  have hcapacity : encodedBits ls ≤ 8 * (u.srcLen.toNat - 1028) := by
    rw [hsize, codeBits_codesOf_length hlen hT hls, ceilDiv]; omega
  have hbody := decompressBody_ok hheader ⟨hn0, by rw [hf, freqSum_histogram _ hlen, hn, List.length_map]⟩ (hf ▸ hT) hls xs tail hwin
    (by omega) hcapacity (hn ▸ hfit) hxs hn.symm (by rw [hpayload, htail, hpaths]) (by rw [hpaths, ← hsize]; exact hsrc) hdst
  exact ⟨_, hbody, rfl⟩

/-- R200, R201: COMPRESS of any source, the empty one too, completes with the archive at DST_ADDR and its length in OUT_LEN. -/
theorem exec_compress_archive (s : State) (hwin : windowsOk s) (hsrc : allOK s s.srcAddr.toNat s.srcLen.toNat)
    (hfit : (archive (srcBytes s)).length ≤ s.dstCap.toNat) (hdst : allOK s s.dstAddr.toNat (archive (srcBytes s)).length) :
    ∃ t, exec .compress s = .next (recordDone t (archive (srcBytes s)).length) ∧
      t.mem = Memory.writeList s.mem s.dstAddr.toNat (archive (srcBytes s)) ∧ t.memMap = s.memMap ∧ t.dstAddr = s.dstAddr := by
  by_cases hzero : s.srcLen = 0
  · have hnil : archive (srcBytes s) = [] := by rw [(srcBytes_eq_nil s).mpr hzero, archive, if_pos rfl]
    rw [hnil]
    refine ⟨s, ?_, rfl, rfl, rfl⟩
    rw [exec_eq_complete, bodyOf, compressBody, checkWindows_ok s hwin, run_bind_ok, if_pos hzero, complete, List.length_nil]
  · obtain ⟨T, ls, hT, hls⟩ := exists_tree_of_bytes (srcBytes s) (mt (srcBytes_eq_nil s).mp hzero) (srcBytes_length_lt s)
    refine ⟨compressed s T ls, ?_, rfl, rfl, rfl⟩
    rw [exec_eq_complete, bodyOf, compressBody_ok hsrc hT hls hwin hzero hfit hdst, complete]

/-- R203: DECOMPRESS of any archive, the empty one too, completes with its byte sequence at DST_ADDR and its length in OUT_LEN. -/
theorem exec_decompress_archive (u : State) (bs : List Byte) (hlen : bs.length < 2 ^ 32) (hbytes : srcBytes u = archive bs)
    (hwin : windowsOk u) (hsrc : allOK u u.srcAddr.toNat u.srcLen.toNat) (hfit : bs.length ≤ u.dstCap.toNat)
    (hdst : allOK u u.dstAddr.toNat bs.length) :
    ∃ v, exec .decompress u = .next (recordDone v bs.length) ∧ v.mem = Memory.writeList u.mem u.dstAddr.toNat bs := by
  by_cases hnil : bs = []
  · subst hnil
    have hzero : u.srcLen = 0 := (srcBytes_eq_nil u).mp hbytes
    refine ⟨u, ?_, rfl⟩
    rw [exec_eq_complete, bodyOf, decompressBody, checkWindows_ok u hwin, run_bind_ok, if_pos hzero, complete, List.length_nil]
  · obtain ⟨v, hbody, hmem⟩ := decompressBody_archive u bs hnil hlen hbytes hwin hsrc hfit hdst
    exact ⟨v, by rw [exec_eq_complete, bodyOf, hbody, complete], hmem⟩

/-- Settles O49: the archive COMPRESS stores is what DECOMPRESS finds in its source window, and the leaves along the payload are those of
the source bytes. -/
theorem decompressUndoesCompress : Obligations.DecompressUndoesCompress := by
  unfold Obligations.DecompressUndoesCompress
  intro s hm hwin hsrc hfit hdst
  obtain ⟨t, hcompress, htmem, htmap, htaddr⟩ := exec_compress_archive s hwin hsrc hfit hdst
  refine ⟨_, hcompress, rfl, fun u hmem hmap haddr hsrcLen hwinu hcap hok => ?_⟩
  rw [recordDone_mem, htmem] at hmem
  rw [recordDone_memMap, htmap] at hmap
  rw [recordDone_dstAddr, htaddr] at haddr
  have hsize : u.srcLen.toNat = (archive (srcBytes s)).length := by
    rw [hsrcLen, recordDone_outLen, BitVec.toNat_ofNat, Nat.mod_eq_of_lt (hfit.trans_lt s.dstCap.isLt)]
  have hbytes : srcBytes u = archive (srcBytes s) := by
    rw [srcBytes, hsize, hmem, haddr, readList_writeList_self s.mem _ _ hm]
  have hsrcu : allOK u u.srcAddr.toNat u.srcLen.toNat := fun i hi => by
    rw [hmap, haddr]
    exact hdst i (hsize ▸ hi)
  have hmu : Memory.wf u.mem = true := hmem ▸ Memory.wf_writeList _ _ _ hm
  rw [← srcBytes_length s] at hcap hok ⊢
  obtain ⟨v, hdecompress, hvmem⟩ := exec_decompress_archive u (srcBytes s) (srcBytes_length_lt s) hbytes hwinu hsrcu hcap hok
  refine ⟨_, hdecompress, rfl, ?outLen, ?output⟩
  case outLen => rw [recordDone_outLen, srcBytes_length, BitVec.ofNat_toNat, BitVec.setWidth_eq]
  case output => rw [recordDone_mem, hvmem, readList_writeList_self u.mem _ _ hmu]

end Sys2Proof.Machine
end

section
/-! PROOFS. The interrupt line (60_exceptions.md R227, R228), and what a command may change (R225): the bytes the packer, the decoder and
the header store, the frame of each command's body, and the frame of its outcome. -/

namespace Sys2Proof.Machine

/-! ### The interrupt line (R227) -/

/-- R228: an issue clears DONE and ERR, so OVR alone can hold the line. -/
theorem irq_issue (s : State) (v : Word) : irq (issue s v) = (s.ovr && s.irqEn.getLsbD 2) := by
  simp [irq]

/-- R26: a write of 1 to DONE, ERR and OVR drops the line. -/
theorem irq_writeStatus_ack (s : State) : irq (writeStatus s 0x0000000E) = false := by
  simp [irq]

/-- Settles O18: ACK, the issue and the reset each clear status bits of the OR. -/
theorem irqFollowsTheEnabledStatusBits : Obligations.IrqFollowsTheEnabledStatusBits := by
  unfold Obligations.IrqFollowsTheEnabledStatusBits
  intro s v
  refine ⟨?line, fun hb => ?ack, fun hb => ?issue, ?reset⟩
  case line => simp only [irq, Bool.or_eq_true, Bool.and_eq_true, or_assoc]
  case ack => rw [regWrite_idle s 0x08 _ .status hb rfl]; exact irq_writeStatus_ack s
  case issue => rw [regWrite_idle s 0x04 v .cmd hb rfl]; exact irq_issue s v
  case reset => simp [irq]

/-! ### Memory outside a range of bytes (20_memory.md R71) -/

/-- Every byte outside the `n` bytes from `a` reads in `m'` as in `m`. -/
def sameOutside (a n : Nat) (m m' : Memory) : Prop := ∀ x, ¬(a ≤ x ∧ x < a + n) → Memory.read m' x = Memory.read m x

theorem sameOutside_refl (a n : Nat) (m : Memory) : sameOutside a n m m := fun _ _ => rfl

theorem sameOutside.trans {a n : Nat} {m₁ m₂ m₃ : Memory} (h₁ : sameOutside a n m₁ m₂) (h₂ : sameOutside a n m₂ m₃) :
    sameOutside a n m₁ m₃ := fun x hx => (h₂ x hx).trans (h₁ x hx)

theorem sameOutside.mono {a n b k : Nat} {m m' : Memory} (h : sameOutside b k m m') (hlo : a ≤ b) (hhi : b + k ≤ a + n) :
    sameOutside a n m m' := fun x hx => h x (by omega)

/-- A part of a command that goes on past a raise did not meet its condition. -/
theorem not_of_raiseIf_eq_ok {c : Prop} [Decidable c] {e : Stop} {x : Unit} (h : raiseIf (decide c) e = .ok x) : ¬c :=
  of_decide_eq_false ((raiseIf_eq_ok _ _).mp h)

/-- R74: a DMA write that completes stores its one byte. -/
theorem dmaWrite_eq_ok (mm : List Region) (m m' : Memory) (a : Nat) (v : Byte) (h : dmaWrite mm m a v = .ok m') :
    m' = Memory.write m a v := by
  cases hok : memOK mm a with
  | true => rw [dmaWrite_ok mm m a v hok] at h; exact (Except.ok.inj h).symm
  | false => rw [dmaWrite_error mm m a v hok] at h; cases h

/-- A DMA write to byte `o < n` of a range stays in the range. -/
theorem dmaWrite_sameOutside (mm : List Region) (m m' : Memory) (a n o : Nat) (v : Byte) (ho : o < n)
    (h : dmaWrite mm m (a + o) v = .ok m') : sameOutside a n m m' := by
  intro x hx
  rw [dmaWrite_eq_ok mm m m' _ v h, Memory.read_write_ne m _ v x (by omega)]

/-- R180: the header is 1028 bytes from DST_ADDR. -/
theorem writeHeader_sameOutside (s : State) (m : Memory) (h : writeHeader s = .ok m) :
    sameOutside s.dstAddr.toNat 1028 s.mem m := by
  intro x hx
  rw [writeBytes_eq_ok _ _ _ _ _ h, Memory.read_writeList_outside _ _ _ _ (by rwa [headerBytes_length])]

/-! ### The packer stores inside its window (44_bit_packer.md R170) -/

section Packer

variable {mm : List Region} {da dc : Nat}

theorem emitByte_sameOutside (p q : Packer) (h : emitByte mm da dc p = .ok q) : sameOutside da dc p.mem q.mem := by
  rw [emitByte, run_bind_eq_ok] at h
  obtain ⟨_, hroom, h⟩ := h
  rw [run_bind_eq_ok] at h
  obtain ⟨m, hm, h⟩ := h
  cases h
  exact dmaWrite_sameOutside mm _ _ da dc p.o p.acc (Nat.lt_of_not_ge (not_of_raiseIf_eq_ok hroom)) hm

theorem pushBit_sameOutside (p q : Packer) (b : Bool) (h : pushBit mm da dc p b = .ok q) : sameOutside da dc p.mem q.mem := by
  rw [pushBit] at h
  split at h
  · exact emitByte_sameOutside { p with acc := setBit p.acc p.k b, k := p.k + 1, nb := p.nb + 1 } q h
  · cases h; exact sameOutside_refl da dc _

theorem pushBits_sameOutside (bits : List Bool) (p q : Packer) (h : pushBits mm da dc p bits = .ok q) :
    sameOutside da dc p.mem q.mem := by
  induction bits generalizing p with
  | nil => cases h; exact sameOutside_refl da dc _
  | cons b bits ih =>
    rw [pushBits] at h
    split at h
    · cases h
    · rename_i r hr
      exact (pushBit_sameOutside p r b hr).trans (ih r h)

theorem packLoop_sameOutside (code : CodeTable) (n a : Nat) (p q : Packer) (h : packLoop mm code da dc n a p = .ok q) :
    sameOutside da dc p.mem q.mem := by
  induction n generalizing a p with
  | zero => cases h; exact sameOutside_refl da dc _
  | succ n ih =>
    rw [packLoop] at h
    split at h
    · cases h
    · split at h
      · cases h
      · split at h
        · cases h
        · rename_i r hr
          exact (pushBits_sameOutside _ p r hr).trans (ih (a + 1) r h)

theorem packBits_sameOutside (code : CodeTable) (m : Memory) (sa sl : Nat) (q : Packer)
    (h : packBits mm code m sa sl da dc = .ok q) : sameOutside da dc m q.mem := by
  rw [packBits, run_bind_eq_ok] at h
  obtain ⟨p, hp, hflush⟩ := h
  have hloop := packLoop_sameOutside code sl sa _ p hp
  rw [flushByte] at hflush
  split at hflush
  · exact hloop.trans (emitByte_sameOutside p q hflush)
  · cases hflush; exact hloop

end Packer

/-! ### The decoder stores inside the bytes it emits (46_bit_unpacker.md R190) -/

section Decoder

variable {mm : List Region} {ar : Arena} {root sa da : Nat}

/-- R190: a bit that completes a symbol stores it at the output count; another bit stores nothing. -/
theorem decodeBit_sameOutside (n : Nat) (c d : Cursor) (hc : c.cnt < n) (h : decodeBit mm ar root sa da c = .ok d) :
    sameOutside da n c.mem d.mem := by
  rw [decodeBit, run_bind_eq_ok] at h
  obtain ⟨byte, -, h⟩ := h
  split at h
  · cases h
  · split at h
    · rw [run_bind_eq_ok] at h
      obtain ⟨m, hm, h⟩ := h
      cases h
      exact dmaWrite_sameOutside mm _ _ da n c.cnt _ hc hm
    · cases h; exact sameOutside_refl da n _
    · cases h; exact sameOutside_refl da n _

theorem decodeLoop_sameOutside (sl n fuel : Nat) (c d : Cursor) (h : decodeLoop mm ar root sa sl da n fuel c = .ok d) :
    sameOutside da n c.mem d.mem := by
  induction fuel generalizing c with
  | zero =>
    rw [decodeLoop] at h
    split at h
    · cases h; exact sameOutside_refl da n _
    · cases h
  | succ fuel ih =>
    rw [decodeLoop] at h
    split at h
    · cases h; exact sameOutside_refl da n _
    · rename_i hc
      split at h
      · cases h
      · split at h
        · cases h
        · rename_i b hb
          exact (decodeBit_sameOutside n c b (Nat.lt_of_not_ge hc) hb).trans (ih b h)

theorem decodePayload_sameOutside (m : Memory) (sl n : Nat) (d : Cursor) (h : decodePayload mm ar root m sa sl da n = .ok d) :
    sameOutside da n m d.mem :=
  decodeLoop_sameOutside sl n (8 * sl) _ d h

end Decoder

/-! ### The write-set (60_exceptions.md R225) -/

/-- The state `s` with what a command of write-set `w` may change taken from `t`: the write-set, the outcome registers STATUS, ERR_ADDR and
OUT_LEN, and the model's own count of draws. -/
def written (w : WriteSet) (s t : State) : State :=
  { s with
    busy := t.busy
    done := t.done
    err := t.err
    errCode := t.errCode
    errAddr := t.errAddr
    outLen := t.outLen
    draws := t.draws
    freq := if w.freq then t.freq else s.freq
    origLen := if w.origLen then t.origLen else s.origLen
    node := if w.tree then t.node else s.node
    numLeaves := if w.tree then t.numLeaves else s.numLeaves
    root := if w.tree then t.root else s.root
    nodeCount := if w.tree then t.nodeCount else s.nodeCount
    code := if w.code then t.code else s.code
    bitCnt := if w.bitCnt then t.bitCnt else s.bitCnt
    treeValid := if w.treeFlag then t.treeValid else s.treeValid
    codesValid := if w.codesFlag then t.codesValid else s.codesValid
    mem := if w.dst then t.mem else s.mem }

theorem ite_ite_self {α : Type} (b : Bool) (x y : α) : (if b then (if b then x else y) else y) = if b then x else y := by
  cases b <;> rfl

/-- `t` differs from `s` in nothing outside the write-set and, where memory is canonical, in no byte outside the destination window. -/
structure Within (w : WriteSet) (s t : State) : Prop where
  frame : t = written w s t
  memory : Memory.wf s.mem = true → sameOutside s.dstAddr.toNat s.dstCap.toNat s.mem t.mem

theorem Within.of_mem_eq {w : WriteSet} {s t : State} (frame : t = written w s t) (hmem : t.mem = s.mem) : Within w s t :=
  ⟨frame, fun _ => hmem ▸ sameOutside_refl _ _ _⟩

theorem within_refl (w : WriteSet) (s : State) : Within w s s := .of_mem_eq (by simp only [written, ite_self]) rfl

theorem Within.recordDone {w : WriteSet} {s u : State} (h : Within w s u) (n : Nat) : Within w s (recordDone u n) :=
  ⟨congrArg (Machine.recordDone · n) h.frame, h.memory⟩

theorem Within.recordError {w : WriteSet} {s u : State} (h : Within w s u) (e : ErrCode) (a : Nat) :
    Within w s (recordError u e a) :=
  ⟨congrArg (Machine.recordError · e a) h.frame, h.memory⟩

/-- R224: the free values stand in the write-set, and the free bytes in the destination window. -/
theorem within_havoc (w : WriteSet) (s : State) : Within w s (havoc w s) where
  frame := by
    have hflag : ∀ f v : Bool, (if f then v && !f else v) = (v && !f) := by decide
    simp only [written, havoc, ite_ite_self, hflag]
  memory hm := by
    rw [havoc_mem]
    split
    · exact read_freeFill_outside _ _ _ 0 _ hm
    · exact sameOutside_refl _ _ _

/-! ### The body of each command -/

/-- What ParseHeader leaves differs from its state in the parsed fields (45_header_codec.md R182). -/
theorem parseHeader_eq_ok (s t : State) (h : parseHeader s = .ok t) : ∃ hb, t = parsed s hb := by
  rw [parseHeader, run_bind_eq_ok] at h
  obtain ⟨hb, -, h⟩ := h
  rw [run_bind_eq_ok] at h
  obtain ⟨-, -, h⟩ := h
  exact ⟨hb, (Except.ok.inj h).symm⟩

theorem countBody_within (s u : State) (n : Nat) (h : countBody s = .ok (n, u)) : Within (writeSet .count) s u := by
  simp only [countBody, run_bind_eq_ok] at h
  obtain ⟨-, -, t, ht, h⟩ := h
  cases h
  obtain rfl := countFreq_eq_ok s _ ht
  exact .of_mem_eq rfl rfl

theorem buildBody_eq_ok (s u : State) (n : Nat) (h : buildBody s = .ok (n, u)) : ∃ T, u = installTree s T := by
  rw [buildBody, run_bind_eq_ok] at h
  obtain ⟨t, ht, h⟩ := h
  cases h
  obtain ⟨T, -, rfl⟩ := buildTree_eq_ok s _ ht
  exact ⟨T, rfl⟩

theorem gencodeBody_eq_ok (s u : State) (n : Nat) (h : gencodeBody s = .ok (n, u)) : ∃ ls, u = gencoded s ls := by
  rw [gencodeBody, run_bind_eq_ok] at h
  obtain ⟨t, ht, h⟩ := h
  cases h
  obtain ⟨ls, -, rfl⟩ := genCodes_eq_ok s _ ht
  exact ⟨ls, rfl⟩

theorem packBody_within (s u : State) (n : Nat) (h : packBody s = .ok (n, u)) : Within (writeSet .pack) s u := by
  simp only [packBody, run_bind_eq_ok] at h
  obtain ⟨-, -, -, -, p, hp, h⟩ := h
  cases h
  exact ⟨rfl, fun _ => packBits_sameOutside _ _ _ _ p hp⟩

theorem hdrWriteBody_within (s u : State) (n : Nat) (h : hdrWriteBody s = .ok (n, u)) : Within (writeSet .hdrWrite) s u := by
  simp only [hdrWriteBody, run_bind_eq_ok, Config.hdrBytes] at h
  obtain ⟨-, -, _, hroom, m, hm, h⟩ := h
  cases h
  exact ⟨rfl, fun _ => (writeHeader_sameOutside s m hm).mono le_rfl
    (Nat.add_le_add_left (Nat.le_of_not_gt (not_of_raiseIf_eq_ok hroom)) s.dstAddr.toNat)⟩

theorem hdrParseBody_within (s u : State) (n : Nat) (h : hdrParseBody s = .ok (n, u)) : Within (writeSet .hdrParse) s u := by
  simp only [hdrParseBody, run_bind_eq_ok] at h
  obtain ⟨-, -, -, -, t, ht, h⟩ := h
  cases h
  obtain ⟨hb, rfl⟩ := parseHeader_eq_ok s _ ht
  exact .of_mem_eq rfl rfl

theorem unpackBody_within (s u : State) (n : Nat) (h : unpackBody s = .ok (n, u)) : Within (writeSet .unpack) s u := by
  simp only [unpackBody, run_bind_eq_ok] at h
  obtain ⟨-, -, -, -, _, hroom, c, hc, h⟩ := h
  cases h
  exact ⟨rfl, fun _ => (decodePayload_sameOutside s.mem _ _ c hc).mono le_rfl
    (Nat.add_le_add_left (Nat.le_of_not_gt (not_of_raiseIf_eq_ok hroom)) s.dstAddr.toNat)⟩

/-- 47_composite.md R200: the capacity test leaves room for the header, and the packer works in what is left of the window. -/
theorem compressNonempty_within (s u : State) (n : Nat) (h : compressNonempty s = .ok (n, u)) :
    Within (writeSet .compress) s u := by
  simp only [compressNonempty, run_bind_eq_ok, Config.hdrBytes] at h
  obtain ⟨s₁, h₁, s₂, h₂, s₃, h₃, _, hroom, m, hm, p, hp, h⟩ := h
  cases h
  obtain rfl := countFreq_eq_ok s s₁ h₁
  obtain ⟨T, -, rfl⟩ := buildTree_eq_ok _ s₂ h₂
  obtain ⟨ls, -, rfl⟩ := genCodes_eq_ok _ s₃ h₃
  refine ⟨rfl, fun _ => ?_⟩
  have hcap : 1028 ≤ s.dstCap.toNat := (Nat.le_add_right _ _).trans (Nat.le_of_not_gt (not_of_raiseIf_eq_ok hroom))
  have hheader : sameOutside s.dstAddr.toNat s.dstCap.toNat s.mem m :=
    (writeHeader_sameOutside _ m hm).mono le_rfl (Nat.add_le_add_left hcap s.dstAddr.toNat)
  have hpayload : sameOutside s.dstAddr.toNat s.dstCap.toNat m p.mem :=
    (packBits_sameOutside _ _ _ _ p hp).mono (Nat.le_add_right s.dstAddr.toNat 1028)
      (show s.dstAddr.toNat + 1028 + (s.dstCap.toNat - 1028) ≤ s.dstAddr.toNat + s.dstCap.toNat by omega)
  exact hheader.trans hpayload

theorem compressBody_within (s u : State) (n : Nat) (h : compressBody s = .ok (n, u)) : Within (writeSet .compress) s u := by
  rw [compressBody, run_bind_eq_ok] at h
  obtain ⟨-, -, h⟩ := h
  split at h
  · cases h; exact within_refl _ s
  · exact compressNonempty_within s u n h

/-- R203: the parsed length fits the window, and the decoder emits that many bytes. -/
theorem decompressNonempty_within (s u : State) (n : Nat) (h : decompressNonempty s = .ok (n, u)) :
    Within (writeSet .decompress) s u := by
  simp only [decompressNonempty, run_bind_eq_ok] at h
  obtain ⟨s₁, h₁, s₂, h₂, ls, -, -, -, _, hroom, c, hc, h⟩ := h
  cases h
  obtain ⟨hb, rfl⟩ := parseHeader_eq_ok s s₁ h₁
  obtain ⟨T, -, rfl⟩ := buildTree_eq_ok _ s₂ h₂
  exact ⟨rfl, fun _ => (decodePayload_sameOutside s.mem _ _ c hc).mono le_rfl
    (Nat.add_le_add_left (Nat.le_of_not_gt (not_of_raiseIf_eq_ok hroom)) s.dstAddr.toNat)⟩

theorem decompressBody_within (s u : State) (n : Nat) (h : decompressBody s = .ok (n, u)) :
    Within (writeSet .decompress) s u := by
  rw [decompressBody, run_bind_eq_ok] at h
  obtain ⟨-, -, h⟩ := h
  split at h
  · cases h; exact within_refl _ s
  · rw [run_bind_eq_ok] at h
    obtain ⟨-, -, h⟩ := h
    exact decompressNonempty_within s u n h

/-- R225: what a command's body leaves, where it answers a state, is within the command's write-set. -/
theorem bodyOf_within (i : Instr) (s u : State) (n : Nat) (h : bodyOf i s = .ok (n, u)) : Within (writeSet i) s u := by
  cases i with
  | nop => cases h; exact within_refl _ s
  | clear => cases h; exact .of_mem_eq rfl rfl
  | count => exact countBody_within s u n h
  | build => obtain ⟨T, rfl⟩ := buildBody_eq_ok s u n h; exact .of_mem_eq rfl rfl
  | gencode => obtain ⟨ls, rfl⟩ := gencodeBody_eq_ok s u n h; exact .of_mem_eq rfl rfl
  | pack => exact packBody_within s u n h
  | hdrWrite => exact hdrWriteBody_within s u n h
  | hdrParse => exact hdrParseBody_within s u n h
  | unpack => exact unpackBody_within s u n h
  | compress => exact compressBody_within s u n h
  | decompress => exact decompressBody_within s u n h

/-! ### The outcome of each command (R222 to R225) -/

/-- R225: whatever way a command ends, its next state is within its write-set. -/
theorem exec_within (i : Instr) (s t : State) (h : exec i s = .next t) : Within (writeSet i) s t := by
  rw [exec_eq_complete] at h
  obtain ⟨n, u, hbody, rfl⟩ | ⟨e, a, -, rfl⟩ | ⟨e, a, -, rfl⟩ := complete_eq_next _ _ _ _ h
  · exact (bodyOf_within i s u n hbody).recordDone n
  · exact (within_refl _ s).recordError e a
  · exact (within_havoc _ s).recordError e a

/-! ### The commands without an in-flight error (R220, R223) -/

/-- A walk ends early only by leaving the tree, a fault of the model. -/
theorem walkTree_ne_inflight (ar : Arena) (n : Nat) (stack : List (Nat × List Bool)) (e : ErrCode) (a : Nat) :
    walkTree ar n stack ≠ .error (.inflight e a) := by
  induction n generalizing stack with
  | zero => cases stack <;> exact nofun
  | succ n ih =>
    match stack with
    | [] => exact nofun
    | (i, p) :: stack =>
      rw [walkTree]
      split
      · exact nofun
      · split
        · rename_i e' he
          rintro h
          cases h
          exact ih _ he
        · exact nofun
      · exact ih _

theorem buildBody_ne_inflight (s : State) (e : ErrCode) (a : Nat) : buildBody s ≠ .error (.inflight e a) := by
  intro h
  rw [buildBody, run_bind_eq_error, buildTree] at h
  split at h <;> simp at h

theorem gencodeBody_ne_inflight (s : State) (e : ErrCode) (a : Nat) : gencodeBody s ≠ .error (.inflight e a) := by
  intro h
  simp only [gencodeBody, genCodes, run_bind_eq_error, reduceCtorEq, and_false, exists_false, or_false] at h
  obtain hraise | ⟨-, -, hwalk⟩ := h
  · rw [raiseIf] at hraise
    split at hraise <;> cases hraise
  · exact walkTree_ne_inflight _ _ _ e a hwalk

/-- R220: NOP and CLEAR raise nothing, BUILD and GENCODE only before they change anything. -/
theorem bodyOf_ne_inflight (i : Instr) (s : State) (e : ErrCode) (a : Nat) (hi : i ∈ [Instr.nop, .clear, .build, .gencode]) :
    bodyOf i s ≠ .error (.inflight e a) := by
  cases i
  case nop | clear => exact nofun
  case build => exact buildBody_ne_inflight s e a
  case gencode => exact gencodeBody_ne_inflight s e a
  all_goals exact absurd hi (by decide)

/-- The bodies of these commands leave ERR to the completion. -/
theorem err_of_bodyOf_eq_ok (i : Instr) (s u : State) (n : Nat) (hi : i ∈ [Instr.nop, .clear, .build, .gencode])
    (h : bodyOf i s = .ok (n, u)) : u.err = s.err := by
  cases i
  case nop | clear => cases h; rfl
  case build => obtain ⟨T, rfl⟩ := buildBody_eq_ok s u n h; rfl
  case gencode => obtain ⟨ls, rfl⟩ := gencodeBody_eq_ok s u n h; rfl
  all_goals exact absurd hi (by decide)

/-- R223: an error of these commands is recorded over the state they started from. -/
theorem exec_eq_recordError_of_err (i : Instr) (s t : State) (h : exec i s = .next t)
    (hi : i ∈ [Instr.nop, .clear, .build, .gencode]) (hs : s.err = false) (ht : t.err = true) : ∃ e a, t = recordError s e a := by
  rw [exec_eq_complete] at h
  obtain ⟨n, u, hbody, rfl⟩ | ⟨e, a, -, rfl⟩ | ⟨e, a, hbody, -⟩ := complete_eq_next _ _ _ _ h
  · rw [recordDone_err, err_of_bodyOf_eq_ok i s u n hi hbody, hs] at ht
    cases ht
  · exact ⟨e, a, rfl⟩
  · exact absurd hbody (bodyOf_ne_inflight i s e a hi)

/-! ### The rows of R225 -/

/-- Each element of a write-set, with the commands whose row names it. -/
theorem writeSet_rows (i : Instr) :
    (i ∉ [Instr.clear, .count, .hdrParse, .compress, .decompress] → (writeSet i).freq = false ∧ (writeSet i).origLen = false) ∧
    (i ∉ [Instr.clear, .build, .compress, .decompress] → (writeSet i).tree = false) ∧
    (i ∉ [Instr.clear, .gencode, .compress] → (writeSet i).code = false) ∧
    (i ∉ [Instr.clear, .gencode, .pack, .unpack, .compress, .decompress] → (writeSet i).bitCnt = false) ∧
    (i ∉ [Instr.clear, .count, .build, .hdrParse, .compress, .decompress] → (writeSet i).treeFlag = false) ∧
    (i ∉ [Instr.clear, .count, .build, .gencode, .hdrParse, .compress, .decompress] → (writeSet i).codesFlag = false) ∧
    (i ∉ [Instr.pack, .hdrWrite, .unpack, .compress, .decompress] → (writeSet i).dst = false) := by
  cases i <;> decide

/-- A field that the write-set leaves alone is unchanged. -/
theorem Within.keeps {α : Type} {w : WriteSet} {s t : State} (h : Within w s t) (f : State → α)
    (hf : f (written w s t) = f s) : f t = f s := (congrArg f h.frame).trans hf

/-- Settles O50: the next state is within the write-set of its command, whose rows are those of R225. -/
theorem commandsChangeOnlyTheirWriteSet : Obligations.CommandsChangeOnlyTheirWriteSet := by
  unfold Obligations.CommandsChangeOnlyTheirWriteSet
  intro i s t h
  have hw := exec_within i s t h
  obtain ⟨hfreq, htree, hcode, hbitCnt, htreeFlag, hcodesFlag, hdst⟩ := writeSet_rows i
  refine ⟨?registers, ?platform, fun hi => ?freq, fun hi => ?tree, fun hi => ?code, fun hi => ?bitCnt, fun hi => ?treeFlag,
    fun hi => ?codesFlag, fun hi => ?memory, fun hm a ha => ?window, exec_eq_recordError_of_err i s t h⟩
  case registers =>
    exact ⟨hw.keeps State.cmd rfl, hw.keeps State.ovr rfl, hw.keeps State.irqEn rfl, hw.keeps State.srcAddr rfl,
      hw.keeps State.srcLen rfl, hw.keeps State.dstAddr rfl, hw.keeps State.dstCap rfl, hw.keeps State.freqIdx rfl,
      hw.keeps State.codeIdx rfl, hw.keeps State.codeSel rfl, hw.keeps State.nodeIdx rfl⟩
  case platform =>
    exact ⟨hw.keeps State.memMap rfl, hw.keeps State.host rfl, hw.keeps State.temps rfl, hw.keeps State.bufs rfl,
      hw.keeps State.schedule rfl⟩
  case freq =>
    exact ⟨hw.keeps State.freq (by simp [written, hfreq hi]), hw.keeps State.origLen (by simp [written, hfreq hi])⟩
  case tree =>
    exact ⟨hw.keeps State.node (by simp [written, htree hi]), hw.keeps State.numLeaves (by simp [written, htree hi]),
      hw.keeps State.root (by simp [written, htree hi]), hw.keeps State.nodeCount (by simp [written, htree hi])⟩
  case code => exact hw.keeps State.code (by simp [written, hcode hi])
  case bitCnt => exact hw.keeps State.bitCnt (by simp [written, hbitCnt hi])
  case treeFlag => exact hw.keeps State.treeValid (by simp [written, htreeFlag hi])
  case codesFlag => exact hw.keeps State.codesValid (by simp [written, hcodesFlag hi])
  case memory => exact hw.keeps State.mem (by simp [written, hdst hi])
  case window => exact hw.memory hm a (by simpa [inDst, inRange] using ha)

end Sys2Proof.Machine
end

section
/-! PROOFS. What every command's body does to the tables and to memory, said once (30_encoding.md R93, 60_exceptions.md R225), and from it
what every step of the machine keeps: STATUS (10_state.md R28, R31, R53), the tables (R32, R33), the width of codes (R52), the form of memory. -/

namespace Sys2Proof.Machine

/-! ### Memory stays canonical (20_memory.md R70) -/

theorem dmaWrite_wf (mm : List Region) (m m' : Memory) (a : Nat) (v : Byte) (hm : Memory.wf m = true)
    (h : dmaWrite mm m a v = .ok m') : Memory.wf m' = true := by
  rw [dmaWrite_eq_ok mm m m' a v h]
  exact Memory.wf_write m a v hm

theorem writeHeader_wf (s : State) (m : Memory) (hm : Memory.wf s.mem = true) (h : writeHeader s = .ok m) : Memory.wf m = true := by
  rw [writeBytes_eq_ok _ _ _ _ _ h]
  exact Memory.wf_writeList _ _ _ hm

section Packer

variable {mm : List Region} {da dc : Nat}

theorem emitByte_wf (p q : Packer) (hm : Memory.wf p.mem = true) (h : emitByte mm da dc p = .ok q) : Memory.wf q.mem = true := by
  simp only [emitByte, run_bind_eq_ok] at h
  obtain ⟨-, -, m, hw, h⟩ := h
  cases h
  exact dmaWrite_wf mm _ _ _ _ hm hw

theorem pushBit_wf (p q : Packer) (b : Bool) (hm : Memory.wf p.mem = true) (h : pushBit mm da dc p b = .ok q) :
    Memory.wf q.mem = true := by
  rw [pushBit] at h
  split at h
  · exact emitByte_wf { p with acc := setBit p.acc p.k b, k := p.k + 1, nb := p.nb + 1 } q hm h
  · cases h; exact hm

theorem pushBits_wf (bits : List Bool) (p q : Packer) (hm : Memory.wf p.mem = true) (h : pushBits mm da dc p bits = .ok q) :
    Memory.wf q.mem = true := by
  induction bits generalizing p with
  | nil => cases h; exact hm
  | cons b bits ih =>
    rw [pushBits] at h
    split at h
    · cases h
    · rename_i r hr
      exact ih r (pushBit_wf p r b hm hr) h

theorem packLoop_wf (code : CodeTable) (n a : Nat) (p q : Packer) (hm : Memory.wf p.mem = true)
    (h : packLoop mm code da dc n a p = .ok q) : Memory.wf q.mem = true := by
  induction n generalizing a p with
  | zero => cases h; exact hm
  | succ n ih =>
    rw [packLoop] at h
    split at h
    · cases h
    · split at h
      · cases h
      · split at h
        · cases h
        · rename_i r hr
          exact ih (a + 1) r (pushBits_wf _ p r hm hr) h

theorem packBits_wf (code : CodeTable) (m : Memory) (sa sl : Nat) (q : Packer) (hm : Memory.wf m = true)
    (h : packBits mm code m sa sl da dc = .ok q) : Memory.wf q.mem = true := by
  rw [packBits, run_bind_eq_ok] at h
  obtain ⟨p, hp, hflush⟩ := h
  have hloop := packLoop_wf code sl sa _ p hm hp
  rw [flushByte] at hflush
  split at hflush
  · exact emitByte_wf p q hloop hflush
  · cases hflush; exact hloop

end Packer

section Decoder

variable {mm : List Region} {ar : Arena} {root sa da : Nat}

theorem decodeBit_wf (c d : Cursor) (hm : Memory.wf c.mem = true) (h : decodeBit mm ar root sa da c = .ok d) :
    Memory.wf d.mem = true := by
  rw [decodeBit, run_bind_eq_ok] at h
  obtain ⟨byte, -, h⟩ := h
  split at h
  · cases h
  · split at h
    · rw [run_bind_eq_ok] at h
      obtain ⟨m, hw, h⟩ := h
      cases h
      exact dmaWrite_wf mm _ _ _ _ hm hw
    · cases h; exact hm
    · cases h; exact hm

theorem decodeLoop_wf (sl n fuel : Nat) (c d : Cursor) (hm : Memory.wf c.mem = true)
    (h : decodeLoop mm ar root sa sl da n fuel c = .ok d) : Memory.wf d.mem = true := by
  induction fuel generalizing c with
  | zero =>
    rw [decodeLoop] at h
    split at h
    · cases h; exact hm
    · cases h
  | succ fuel ih =>
    rw [decodeLoop] at h
    split at h
    · cases h; exact hm
    · split at h
      · cases h
      · split at h
        · cases h
        · rename_i b hb
          exact ih b (decodeBit_wf c b hm hb) h

theorem decodePayload_wf (m : Memory) (sl n : Nat) (d : Cursor) (hm : Memory.wf m = true)
    (h : decodePayload mm ar root m sa sl da n = .ok d) : Memory.wf d.mem = true :=
  decodeLoop_wf sl n (8 * sl) _ d hm h

end Decoder

/-! ### The effect of a command's body -/

/-- What a command's body can do before completion: one of the units' effects, or several of them one after the other, as COMPRESS and
DECOMPRESS chain them (47_composite.md R200, R203). -/
inductive BodyEffect : State → State → Prop where
  | stores {s : State} (m : Memory) (b : BitCount) (hm : Memory.wf s.mem = true → Memory.wf m = true) :
    BodyEffect s { s with mem := m, bitCnt := b }
  | clears {s : State} : BodyEffect s (clearTables s)
  | counts {s : State} (f : FreqTable) (n : Word) : BodyEffect s { clearValid s with freq := f, origLen := n }
  | builds {s : State} (T : Tree) (hT : treeOf s.freq = some T) : BodyEffect s (installTree s T)
  | generates {s : State} (ls : List LeafPath) (hvalid : s.treeValid = true) (hls : leafPaths s.node s.root = .ok ls) :
    BodyEffect s (gencoded s ls)
  | trans {s t u : State} (h₁ : BodyEffect s t) (h₂ : BodyEffect t u) : BodyEffect s u

theorem BodyEffect.refl (s : State) : BodyEffect s s := .stores s.mem s.bitCnt id

theorem countFreq_effect (s t : State) (h : countFreq s = .ok t) : BodyEffect s t := by
  rw [countFreq_eq_ok s t h]
  exact .counts _ _

theorem buildTree_effect (s t : State) (h : buildTree s = .ok t) : BodyEffect s t := by
  obtain ⟨T, hT, rfl⟩ := buildTree_eq_ok s t h
  exact .builds T hT

theorem genCodes_effect (s t : State) (h : genCodes s = .ok t) : BodyEffect s t := by
  simp only [genCodes, run_bind_eq_ok] at h
  obtain ⟨_, hvalid, ls, hls, h⟩ := h
  cases h
  exact .generates ls (by simpa using (raiseIf_eq_ok _ _).mp hvalid) hls

theorem parseHeader_effect (s t : State) (h : parseHeader s = .ok t) : BodyEffect s t := by
  obtain ⟨hb, rfl⟩ := parseHeader_eq_ok s t h
  exact .counts _ _

theorem compressNonempty_effect (s u : State) (n : Nat) (h : compressNonempty s = .ok (n, u)) : BodyEffect s u := by
  simp only [compressNonempty, run_bind_eq_ok] at h
  obtain ⟨s₁, h₁, s₂, h₂, s₃, h₃, -, -, m, hm, p, hp, h⟩ := h
  cases h
  have tables := ((countFreq_effect s s₁ h₁).trans (buildTree_effect s₁ s₂ h₂)).trans (genCodes_effect s₂ s₃ h₃)
  exact tables.trans (.stores p.mem _ fun hwf => packBits_wf _ _ _ _ p (writeHeader_wf s₃ m hwf hm) hp)

theorem decompressNonempty_effect (s u : State) (n : Nat) (h : decompressNonempty s = .ok (n, u)) : BodyEffect s u := by
  simp only [decompressNonempty, run_bind_eq_ok] at h
  obtain ⟨s₁, h₁, s₂, h₂, ls, -, -, -, -, -, c, hc, h⟩ := h
  cases h
  have tables := (parseHeader_effect s s₁ h₁).trans (buildTree_effect s₁ s₂ h₂)
  exact tables.trans (.stores c.mem _ fun hwf => decodePayload_wf _ _ _ c hwf hc)

/-- What a command's body leaves, where it answers a state. -/
theorem bodyOf_effect (i : Instr) (s u : State) (n : Nat) (h : bodyOf i s = .ok (n, u)) : BodyEffect s u := by
  cases i with
  | nop => cases h; exact .refl s
  | clear => cases h; exact .clears
  | count =>
    simp only [bodyOf, countBody, run_bind_eq_ok] at h
    obtain ⟨-, -, t, ht, h⟩ := h
    cases h; exact countFreq_effect s _ ht
  | build =>
    simp only [bodyOf, buildBody, run_bind_eq_ok] at h
    obtain ⟨t, ht, h⟩ := h
    cases h; exact buildTree_effect s _ ht
  | gencode =>
    simp only [bodyOf, gencodeBody, run_bind_eq_ok] at h
    obtain ⟨t, ht, h⟩ := h
    cases h; exact genCodes_effect s _ ht
  | pack =>
    simp only [bodyOf, packBody, run_bind_eq_ok] at h
    obtain ⟨-, -, -, -, p, hp, h⟩ := h
    cases h; exact .stores p.mem _ fun hm => packBits_wf _ _ _ _ p hm hp
  | hdrWrite =>
    simp only [bodyOf, hdrWriteBody, run_bind_eq_ok] at h
    obtain ⟨-, -, -, -, m, hw, h⟩ := h
    cases h; exact .stores m s.bitCnt fun hm => writeHeader_wf s m hm hw
  | hdrParse =>
    simp only [bodyOf, hdrParseBody, run_bind_eq_ok] at h
    obtain ⟨-, -, -, -, t, ht, h⟩ := h
    cases h; exact parseHeader_effect s _ ht
  | unpack =>
    simp only [bodyOf, unpackBody, run_bind_eq_ok] at h
    obtain ⟨-, -, -, -, -, -, c, hc, h⟩ := h
    cases h; exact .stores c.mem _ fun hm => decodePayload_wf _ _ _ c hm hc
  | compress =>
    simp only [bodyOf, compressBody, run_bind_eq_ok] at h
    obtain ⟨-, -, h⟩ := h
    split at h
    · cases h; exact .refl s
    · exact compressNonempty_effect s u n h
  | decompress =>
    simp only [bodyOf, decompressBody, run_bind_eq_ok] at h
    obtain ⟨-, -, h⟩ := h
    split at h
    · cases h; exact .refl s
    · rw [run_bind_eq_ok] at h
      obtain ⟨-, -, h⟩ := h
      exact decompressNonempty_effect s u n h

/-- R117: a body leaves the outcome bits to the completion. -/
theorem BodyEffect.outcome_eq {s u : State} (h : BodyEffect s u) :
    u.done = s.done ∧ u.err = s.err ∧ u.errCode = s.errCode ∧ u.errAddr = s.errAddr := by
  induction h with
  | trans _ _ ih₁ ih₂ =>
    obtain ⟨hdone, herr, hcode, haddr⟩ := ih₁
    rwa [← hdone, ← herr, ← hcode, ← haddr]
  | _ => exact ⟨rfl, rfl, rfl, rfl⟩

/-! ### What an effect keeps -/

theorem BodyEffect.keeps_coupled {s u : State} (h : BodyEffect s u) (hs : s.codesValid = true → s.treeValid = true) :
    u.codesValid = true → u.treeValid = true := by
  induction h with
  | stores => exact hs
  | clears | counts => exact nofun
  | builds => exact nofun
  | generates _ hvalid _ => exact fun _ => hvalid
  | trans _ _ ih₁ ih₂ => exact ih₂ (ih₁ hs)

theorem BodyEffect.keeps_memory {s u : State} (h : BodyEffect s u) (hs : Memory.wf s.mem = true) : Memory.wf u.mem = true := by
  induction h with
  | stores _ _ hm => exact hm hs
  | trans _ _ ih₁ ih₂ => exact ih₂ (ih₁ hs)
  | _ => exact hs

theorem tablesInv_of_invalid {s : State} (ht : s.treeValid = false) (hc : s.codesValid = false) : TablesInv s :=
  ⟨fun h => by simp [hc] at h, fun h => by simp [ht] at h, fun h => by simp [hc] at h⟩

/-- R32, R33: BUILD makes the tree of the current FREQ, GENCODE the codes of the current tree, and what changes FREQ clears both flags. -/
theorem BodyEffect.keeps_tables {s u : State} (h : BodyEffect s u) (hs : TablesInv s) : TablesInv u := by
  induction h with
  | stores => exact ⟨hs.coupled, hs.tree, hs.codes⟩
  | clears | counts => exact tablesInv_of_invalid rfl rfl
  | builds T hT => exact ⟨nofun, fun _ => hT, nofun⟩
  | @generates s ls hvalid hls =>
    have hcodes : codesCurrent (gencoded s ls) := by
      show codesFor s.node s.root = some (codesOf ls)
      rw [codesFor, hls]
    exact ⟨fun _ => hvalid, hs.tree, fun _ => hcodes⟩
  | trans _ _ ih₁ ih₂ => exact ih₂ (ih₁ hs)

/-- R165: the codes of a current tree are at most 255 bits long. -/
theorem BodyEffect.keeps_codesFit {s u : State} (h : BodyEffect s u) (hs : TablesInv s) (hfit : codesFit s) : codesFit u := by
  induction h with
  | stores | counts | builds => exact hfit
  | clears => exact fun x bits hx => by simp at hx
  | @generates s ls hvalid hls =>
    intro x bits hx
    have hT := hs.tree hvalid
    obtain ⟨l, hl, -, -, rfl⟩ := (symGet_codesOf_listed hT hls x bits).mp hx
    obtain ⟨-, -, hlen⟩ := listed_path_length hT hls hl
    exact hlen
  | trans h₁ _ ih₁ ih₂ => exact ih₂ (h₁.keeps_tables hs) (ih₁ hs hfit)

end Sys2Proof.Machine
end

section
/-! PROOFS. The machine's invariants (10_state.md R28, R31 to R33, R52, R53): what an in-flight error leaves, what a command and a register
write keep, and one principle for every step of every agent. -/

namespace Sys2Proof.Machine

/-! ### The write-set's flags (60_exceptions.md R224, R225) -/

/-- R225: a write-set with FREQ or the tree holds TREE_VALID, one with the codes CODES_VALID, and one with TREE_VALID CODES_VALID. -/
theorem writeSet_flags (i : Instr) :
    ((writeSet i).treeFlag = false → (writeSet i).freq = false ∧ (writeSet i).tree = false) ∧
    ((writeSet i).codesFlag = false → (writeSet i).code = false ∧ (writeSet i).treeFlag = false) := by
  cases i <;> decide

theorem havoc_keeps_coupled (i : Instr) (s : State) (hs : s.codesValid = true → s.treeValid = true) :
    (havoc (writeSet i) s).codesValid = true → (havoc (writeSet i) s).treeValid = true := by
  simp only [havoc_codesValid, havoc_treeValid, Bool.and_eq_true, Bool.not_eq_true']
  rintro ⟨hc, hflag⟩
  exact ⟨hs hc, ((writeSet_flags i).2 hflag).2⟩

/-- R224: a flag that stays 1 after an in-flight error is of a table outside the write-set. -/
theorem havoc_keeps_tables (i : Instr) (s : State) (hs : TablesInv s) : TablesInv (havoc (writeSet i) s) where
  coupled := havoc_keeps_coupled i s hs.coupled
  tree := by
    simp only [havoc_treeValid, Bool.and_eq_true, Bool.not_eq_true']
    rintro ⟨ht, hflag⟩
    obtain ⟨hfreq, htree⟩ := (writeSet_flags i).1 hflag
    simpa [treeCurrent, treeRegs, hfreq, htree] using hs.tree ht
  codes := by
    simp only [havoc_codesValid, Bool.and_eq_true, Bool.not_eq_true']
    rintro ⟨hc, hflag⟩
    obtain ⟨hcode, htreeFlag⟩ := (writeSet_flags i).2 hflag
    obtain ⟨-, htree⟩ := (writeSet_flags i).1 htreeFlag
    simpa [codesCurrent, hcode, htree] using hs.codes hc

/-- 00_scope.md R15: a free entry has at most the 255 bits of its type. -/
theorem freeCodeEntry_length_le (d n : Nat) (bits : List Bool) (h : freeCodeEntry d n = some bits) : bits.length ≤ 255 := by
  simp only [freeCodeEntry] at h
  split at h
  · cases h
    have := (Config.freeCode d n).2.1.isLt
    simp only [List.length_map, List.length_range]; omega
  · cases h

theorem havoc_keeps_codesFit (w : WriteSet) (s : State) (hs : codesFit s) : codesFit (havoc w s) := by
  intro x bits hx
  rw [havoc_code] at hx
  split at hx
  · rw [symGet, Vector.getElem_ofFn] at hx
    exact freeCodeEntry_length_le _ _ bits hx
  · exact hs x bits hx

theorem havoc_keeps_memory (w : WriteSet) (s : State) (hs : Memory.wf s.mem = true) : Memory.wf (havoc w s).mem = true := by
  rw [havoc_mem]
  split
  · exact wf_freeFill _ _ _ _ _ hs
  · exact hs

/-! ### What a command keeps (40_control.md R117) -/

/-- R117, R222 to R224: a command ends over what its body left, over its own state, or over free values. -/
theorem exec_eq_next (i : Instr) (s t : State) (h : exec i s = .next t) :
    (∃ n u, BodyEffect s u ∧ t = recordDone u n) ∨ (∃ e a, t = recordError s e a) ∨
      ∃ e a, i ∉ [Instr.nop, .clear, .build, .gencode] ∧ t = recordError (havoc (writeSet i) s) e a := by
  rw [exec_eq_complete] at h
  obtain ⟨n, u, hbody, rfl⟩ | ⟨e, a, -, rfl⟩ | ⟨e, a, hbody, rfl⟩ := complete_eq_next _ _ _ _ h
  · exact .inl ⟨n, u, bodyOf_effect i s u n hbody, rfl⟩
  · exact .inr (.inl ⟨e, a, rfl⟩)
  · exact .inr (.inr ⟨e, a, fun hi => bodyOf_ne_inflight i s e a hi hbody, rfl⟩)

theorem errNumber_toNat (e : ErrCode) : 1 ≤ (errNumber e).toNat ∧ (errNumber e).toNat ≤ 11 := by cases e <;> decide

theorem errNumber_ne_zero (e : ErrCode) : errNumber e ≠ 0 := by cases e <;> decide

theorem statusInv_recordError (s : State) (e : ErrCode) (a : Nat) (hdone : s.done = false)
    (hcoupled : s.codesValid = true → s.treeValid = true) : StatusInv (recordError s e a) where
  done_or_err := by simp [hdone]
  busy_clean := nofun
  done_clean := by simp [hdone]
  err_coded _ := errNumber_ne_zero e
  code_bound := (errNumber_toNat e).2
  coupled := hcoupled

theorem exec_keeps_statusInv (i : Instr) (s t : State) (hs : StatusInv s) (hb : s.busy = true) (h : exec i s = .next t) :
    StatusInv t := by
  obtain ⟨hdone, herr, hcode, haddr⟩ := hs.busy_clean hb
  obtain ⟨n, u, hu, rfl⟩ | ⟨e, a, rfl⟩ | ⟨e, a, -, rfl⟩ := exec_eq_next i s t h
  · obtain ⟨-, huerr, hucode, huaddr⟩ := hu.outcome_eq
    rw [herr] at huerr
    rw [hcode] at hucode
    rw [haddr] at huaddr
    exact {
      done_or_err := by simp [huerr]
      busy_clean := nofun
      done_clean := fun _ => ⟨hucode, huaddr⟩
      err_coded := by simp [huerr]
      code_bound := by simp [hucode]
      coupled := hu.keeps_coupled hs.coupled }
  · exact statusInv_recordError s e a hdone hs.coupled
  · exact statusInv_recordError _ e a hdone (havoc_keeps_coupled i s hs.coupled)

theorem recordError_keeps_tables (s : State) (e : ErrCode) (a : Nat) (hs : TablesInv s) : TablesInv (recordError s e a) :=
  ⟨hs.coupled, hs.tree, hs.codes⟩

theorem exec_keeps_tables (i : Instr) (s t : State) (hs : TablesInv s) (h : exec i s = .next t) : TablesInv t := by
  obtain ⟨n, u, hu, rfl⟩ | ⟨e, a, rfl⟩ | ⟨e, a, -, rfl⟩ := exec_eq_next i s t h
  · have hut := hu.keeps_tables hs
    exact ⟨hut.coupled, hut.tree, hut.codes⟩
  · exact recordError_keeps_tables s e a hs
  · exact recordError_keeps_tables _ e a (havoc_keeps_tables i s hs)

theorem exec_keeps_codesFit (i : Instr) (s t : State) (hs : TablesInv s) (hfit : codesFit s) (h : exec i s = .next t) :
    codesFit t := by
  obtain ⟨n, u, hu, rfl⟩ | ⟨e, a, rfl⟩ | ⟨e, a, -, rfl⟩ := exec_eq_next i s t h
  · exact hu.keeps_codesFit hs hfit
  · exact hfit
  · exact havoc_keeps_codesFit (writeSet i) s hfit

theorem exec_keeps_memory (i : Instr) (s t : State) (hs : Memory.wf s.mem = true) (h : exec i s = .next t) :
    Memory.wf t.mem = true := by
  obtain ⟨n, u, hu, rfl⟩ | ⟨e, a, rfl⟩ | ⟨e, a, -, rfl⟩ := exec_eq_next i s t h
  · exact hu.keeps_memory hs
  · exact hs
  · exact havoc_keeps_memory _ s hs

/-! ### What a step keeps (40_control.md R110) -/

/-- What every step keeps: a property of the state that does not depend on the fields of the host and the model's own, and that commands, the
illegal word, bytes stored by the host, the reset, a dropped write and an idle register write keep. -/
theorem step_keeps {P : State → Prop}
    (hown : ∀ (s : State) (p : List HostStmt) (temps : List (Nat × Word)) (bufs : List (String × List Byte)) (rest : List Agent)
      (d : Nat), P s → P { s with host := p, temps := temps, bufs := bufs, schedule := rest, draws := d })
    (hexec : ∀ (i : Instr) (s t : State), P s → s.busy = true → exec i s = .next t → P t)
    (hillegal : ∀ s : State, P s → s.busy = true → P (recordError s .illegalCmd 0))
    (hstore : ∀ (s : State) (a : Nat) (bs : List Byte), P s → P { s with mem := Memory.writeList s.mem a bs })
    (hreset : ∀ s : State, P s → P (resetEvent s))
    (hdrop : ∀ s : State, P s → P { s with ovr := true })
    (hidle : ∀ (s : State) (v : Word) (r : Reg), P s → s.busy = false → P (regWriteIdle s v r))
    (s t : State) (hs : P s) (h : step s = .next t) : P t := by
  obtain ⟨rest, ⟨hb, h⟩ | rfl | ⟨p, ⟨off, v, rfl⟩ | ⟨off, k, rfl⟩ | ⟨a, bs, rfl⟩ | ⟨name, bs, rfl⟩ | rfl⟩⟩ :=
    step_eq_next s t h
  · have hs' := hown s s.host s.temps s.bufs rest s.draws hs
    obtain ⟨i, -, h⟩ | ⟨-, rfl⟩ := engineStep_eq_next _ t h
    · exact hexec i _ t hs' hb h
    · exact hillegal _ hs' hb
  · exact hreset _ (hown s s.host s.temps s.bufs rest s.draws hs)
  · have hs' := hown s p s.temps s.bufs rest s.draws hs
    obtain ⟨-, heq⟩ | heq | ⟨r, hb, -, heq⟩ := regWrite_cases { s with schedule := rest, host := p } off v
    · rw [heq]; exact hdrop _ hs'
    · rw [heq]; exact hs'
    · rw [heq]; exact hidle _ v r hs' hb
  · obtain ⟨d, hd⟩ := regRead_state { s with schedule := rest, host := p } off
    rw [hd]
    exact hown s p _ s.bufs rest d hs
  · exact hown _ p s.temps s.bufs rest s.draws (hstore s a bs hs)
  · exact hown s p s.temps _ rest s.draws hs
  · exact hown s p s.temps s.bufs rest s.draws hs

theorem statusInv_issue (s : State) (v : Word) (hs : StatusInv s) : StatusInv (issue s v) where
  done_or_err := by simp
  busy_clean _ := ⟨rfl, rfl, rfl, rfl⟩
  done_clean := nofun
  err_coded := nofun
  code_bound := by simp
  coupled := hs.coupled

theorem regWriteIdle_keeps_statusInv (s : State) (v : Word) (r : Reg) (hs : StatusInv s) : StatusInv (regWriteIdle s v r) := by
  obtain ⟨hde, hbusy, hdone, herr, hcode, hcoupled⟩ := hs
  cases r with
  | cmd => exact statusInv_issue s v ⟨hde, hbusy, hdone, herr, hcode, hcoupled⟩
  | status =>
    refine ⟨fun h => hde ?_, fun h => ?_, fun h => hdone ?_, fun h => herr ?_, hcode, hcoupled⟩
    · simp only [regWriteIdle, writeStatus_done, writeStatus_err, Bool.and_eq_true] at h
      exact ⟨h.1.1, h.2.1⟩
    · obtain ⟨h₁, h₂, h₃⟩ := hbusy h
      simp [regWriteIdle, h₁, h₂, h₃]
    · simp only [regWriteIdle, writeStatus_done, Bool.and_eq_true] at h
      exact h.1
    · simp only [regWriteIdle, writeStatus_err, Bool.and_eq_true] at h
      exact h.1
  | freqData => exact ⟨hde, hbusy, hdone, herr, hcode, nofun⟩
  | _ => exact ⟨hde, hbusy, hdone, herr, hcode, hcoupled⟩

theorem statusInv_resetEvent (s : State) : StatusInv (resetEvent s) where
  done_or_err := by simp
  busy_clean := nofun
  done_clean := nofun
  err_coded := nofun
  code_bound := by simp
  coupled := nofun

/-- Settles O56: a command records one outcome over clean bits, and the host only clears DONE and ERR. -/
theorem everyStepKeepsTheStatusInvariant : Obligations.EveryStepKeepsTheStatusInvariant := by
  unfold Obligations.EveryStepKeepsTheStatusInvariant
  refine step_keeps ?own exec_keeps_statusInv ?illegal ?store (fun s _ => statusInv_resetEvent s) ?drop
    fun s v r hs _ => regWriteIdle_keeps_statusInv s v r hs
  case illegal => exact fun s hs hb => statusInv_recordError s _ _ (hs.busy_clean hb).1 hs.coupled
  case own | store | drop =>
    intros
    rename_i hs
    exact ⟨hs.done_or_err, hs.busy_clean, hs.done_clean, hs.err_coded, hs.code_bound, hs.coupled⟩

theorem regWriteIdle_keeps_tables (s : State) (v : Word) (r : Reg) (hs : TablesInv s) : TablesInv (regWriteIdle s v r) := by
  obtain ⟨hcoupled, htree, hcodes⟩ := hs
  cases r with
  | freqData => exact tablesInv_of_invalid rfl rfl
  | _ => exact ⟨hcoupled, htree, hcodes⟩

/-- Settles O57: every change of FREQ clears both flags, and a flag is set only where its table is made. -/
theorem everyStepKeepsTheTablesCurrent : Obligations.EveryStepKeepsTheTablesCurrent := by
  unfold Obligations.EveryStepKeepsTheTablesCurrent
  refine step_keeps ?own (fun i s t hs _ => exec_keeps_tables i s t hs) (fun s hs _ => recordError_keeps_tables s _ _ hs) ?store
    (fun s _ => tablesInv_of_invalid rfl rfl) ?drop fun s v r hs _ => regWriteIdle_keeps_tables s v r hs
  case own | store | drop =>
    intros
    rename_i hs
    exact ⟨hs.coupled, hs.tree, hs.codes⟩

theorem codesFit_of_code_eq {s t : State} (h : t.code = s.code) (hs : codesFit s) : codesFit t := by
  rw [codesFit, h]
  exact hs

theorem regWriteIdle_code (s : State) (v : Word) (r : Reg) : (regWriteIdle s v r).code = s.code := by cases r <;> rfl

/-- Settles O58: an entry of CODE is a path of a current tree, a free value of its type, or what it was. -/
theorem everyStepKeepsCodesInTheirWidth : Obligations.EveryStepKeepsCodesInTheirWidth := by
  unfold Obligations.EveryStepKeepsCodesInTheirWidth
  intro s t htables hfit h
  have key : ∀ s t : State, (TablesInv s ∧ codesFit s) → step s = .next t → (TablesInv t ∧ codesFit t) := by
    refine step_keeps ?own ?exec ?illegal ?store ?reset ?drop ?idle
    case exec => exact fun i s t hs _ h => ⟨exec_keeps_tables i s t hs.1 h, exec_keeps_codesFit i s t hs.1 hs.2 h⟩
    case illegal => exact fun s hs _ => ⟨recordError_keeps_tables s _ _ hs.1, hs.2⟩
    case reset => exact fun s _ => ⟨tablesInv_of_invalid rfl rfl, fun x bits hx => by simp at hx⟩
    case idle =>
      exact fun s v r hs _ => ⟨regWriteIdle_keeps_tables s v r hs.1, codesFit_of_code_eq (regWriteIdle_code s v r) hs.2⟩
    case own | store | drop =>
      intros
      rename_i hs
      exact ⟨⟨hs.1.coupled, hs.1.tree, hs.1.codes⟩, hs.2⟩
  exact (key s t ⟨htables, hfit⟩ h).2

theorem regWriteIdle_mem (s : State) (v : Word) (r : Reg) : (regWriteIdle s v r).mem = s.mem := by cases r <;> rfl

theorem resetEvent_keeps_memory (s : State) (hs : Memory.wf s.mem = true) : Memory.wf (resetEvent s).mem = true := by
  rw [resetEvent_mem]
  split
  · exact wf_freeFill _ _ _ _ _ hs
  · exact hs

/-- Settles O59: memory is changed by whole-byte writes only, each of which keeps the form. -/
theorem everyStepKeepsMemoryCanonical : Obligations.EveryStepKeepsMemoryCanonical := by
  unfold Obligations.EveryStepKeepsMemoryCanonical
  exact step_keeps (P := fun s => Memory.wf s.mem = true) (fun _ _ _ _ _ _ hs => hs) (fun i s t hs _ => exec_keeps_memory i s t hs)
    (fun _ hs _ => hs) (fun s a bs hs => Memory.wf_writeList bs s.mem a hs) resetEvent_keeps_memory (fun _ hs => hs)
    fun s v r hs _ => by rw [regWriteIdle_mem]; exact hs

/-! ### The outcome of a command (60_exceptions.md R222 to R224) -/

/-- Settles O51: each of the three ways a command ends records one outcome over the clean bits. -/
theorem everyOutcomeIsDoneOrARecordedError : Obligations.EveryOutcomeIsDoneOrARecordedError := by
  unfold Obligations.EveryOutcomeIsDoneOrARecordedError
  intro i s t h hdone herr hcode haddr
  obtain ⟨n, u, hu, rfl⟩ | ⟨e, a, rfl⟩ | ⟨e, a, hi, rfl⟩ := exec_eq_next i s t h
  · obtain ⟨-, huerr, hucode, huaddr⟩ := hu.outcome_eq
    exact ⟨rfl, .inl ⟨rfl, huerr.trans herr, hucode.trans hcode, huaddr.trans haddr⟩⟩
  · exact ⟨rfl, .inr ⟨hdone, rfl, (errNumber_toNat e).1, (errNumber_toNat e).2, rfl, .inl ⟨e, a, rfl⟩⟩⟩
  · refine ⟨rfl, .inr ⟨hdone, rfl, (errNumber_toNat e).1, (errNumber_toNat e).2, rfl, .inr ⟨⟨e, a, rfl⟩, fun hmem => ?_, hi⟩⟩⟩
    have hflags : (writeSet i).treeFlag = true ∧ (writeSet i).codesFlag = true := by
      simp only [List.mem_cons, List.not_mem_nil, or_false] at hmem
      obtain rfl | rfl | rfl | rfl := hmem <;> decide
    simp [hflags]

/-! ### Reset (70_reset_and_hazards.md R250) -/

/-- Settles O55: after reset every flag and every outcome bit is 0, no code is valid and memory lists nothing. -/
theorem resetMeetsTheInvariant : Obligations.ResetMeetsTheInvariant := by
  unfold Obligations.ResetMeetsTheInvariant
  refine ⟨⟨⟨?_, nofun, nofun, nofun, ?_, nofun⟩, tablesInv_of_invalid rfl rfl, rfl⟩, fun x bits hx => ?_⟩
  · exact nofun
  · decide
  · simp [State.reset, symGet] at hx

end Sys2Proof.Machine
end

section
/-! PROOFS. No command is stuck (40_control.md R119): the parts of a command end only with an error of the block, and over the tree of a
frequency table the walk and the decoder never leave the tree (10_state.md R32, R51; log 9). So no step faults, and a WAIT ends. -/

namespace Sys2Proof.Machine

/-! ### Parts of a command that end -/

/-- The part answers a value, or ends the command with an error of the block, no fault of the model. -/
def Ends {α : Type} (r : Run α) : Prop := ∀ f, r ≠ .error (.stuck f)

theorem ends_ok {α : Type} (a : α) : Ends (.ok a : Run α) := fun _ => nofun

theorem ends_inflight {α : Type} (e : ErrCode) (a : Nat) : Ends (.error (.inflight e a) : Run α) := fun _ => nofun

theorem ends_pre {α : Type} (e : ErrCode) (a : Nat) : Ends (.error (.pre e a) : Run α) := fun _ => nofun

theorem Ends.bind {α β : Type} {x : Run α} {f : α → Run β} (hx : Ends x) (hf : ∀ a, x = .ok a → Ends (f a)) : Ends (x >>= f) := by
  cases x with
  | ok a => exact hf a rfl
  | error e => exact fun g h => hx g (congrArg Except.error (Except.error.inj h))

/-- An error that ends one part may end another, of any type. -/
theorem Ends.error {α β : Type} {x : Run α} {e : Stop} (hx : Ends x) (h : x = .error e) : Ends (.error e : Run β) := by
  intro f hf
  cases hf
  exact hx f h

theorem raiseIf_ends (c : Bool) {e : Stop} (he : Ends (.error e : Run Unit)) : Ends (raiseIf c e) := by
  cases c
  · exact ends_ok ()
  · exact he

theorem checkSrcRange_ends (s : State) : Ends (checkSrcRange s) := by
  rw [checkSrcRange]
  split
  · exact ends_pre _ _
  · exact ends_ok _

theorem checkDstRange_ends (s : State) : Ends (checkDstRange s) := by
  rw [checkDstRange]
  split
  · exact ends_pre _ _
  · exact ends_ok _

theorem checkOverlap_ends (s : State) : Ends (checkOverlap s) := by
  rw [checkOverlap]
  split
  · exact ends_pre _ _
  · exact ends_ok _

theorem checkWindows_ends (s : State) : Ends (checkWindows s) :=
  (checkSrcRange_ends s).bind fun _ _ => (checkDstRange_ends s).bind fun _ _ => checkOverlap_ends s

/-! ### DMA accesses (20_memory.md R74, R80) -/

theorem dmaRead_ends (mm : List Region) (m : Memory) (a : Nat) : Ends (dmaRead mm m a) := by
  rw [dmaRead]
  split
  · exact ends_ok _
  · exact ends_inflight _ _

theorem dmaWrite_ends (mm : List Region) (m : Memory) (a : Nat) (v : Byte) : Ends (dmaWrite mm m a v) := by
  rw [dmaWrite]
  split
  · exact ends_ok _
  · exact ends_inflight _ _

theorem readBytes_ends (mm : List Region) (m : Memory) (a n : Nat) : Ends (readBytes mm m a n) := by
  induction n generalizing a with
  | zero => exact ends_ok _
  | succ n ih =>
    rw [readBytes]
    split
    · exact (dmaRead_ends mm m a).error ‹_›
    · split
      · exact (ih (a + 1)).error ‹_›
      · exact ends_ok _

theorem writeBytes_ends (mm : List Region) (bs : List Byte) (m : Memory) (a : Nat) : Ends (writeBytes mm m a bs) := by
  induction bs generalizing m a with
  | nil => exact ends_ok _
  | cons b bs ih =>
    rw [writeBytes]
    split
    · exact (dmaWrite_ends mm m a b).error ‹_›
    · exact ih _ _

/-! ### The packer (44_bit_packer.md R170) -/

section Packer

variable (mm : List Region) (da dc : Nat)

theorem emitByte_ends (p : Packer) : Ends (emitByte mm da dc p) :=
  (raiseIf_ends _ (ends_inflight _ _)).bind fun _ _ => (dmaWrite_ends mm _ _ _).bind fun _ _ => ends_ok _

theorem pushBit_ends (p : Packer) (b : Bool) : Ends (pushBit mm da dc p b) := by
  simp only [pushBit]
  split
  · exact emitByte_ends mm da dc _
  · exact ends_ok _

theorem pushBits_ends (bits : List Bool) (p : Packer) : Ends (pushBits mm da dc p bits) := by
  induction bits generalizing p with
  | nil => exact ends_ok _
  | cons b bits ih =>
    rw [pushBits]
    split
    · exact (pushBit_ends mm da dc p b).error ‹_›
    · exact ih _

theorem packLoop_ends (code : CodeTable) (n a : Nat) (p : Packer) : Ends (packLoop mm code da dc n a p) := by
  induction n generalizing a p with
  | zero => exact ends_ok _
  | succ n ih =>
    rw [packLoop]
    split
    · exact (dmaRead_ends mm p.mem a).error ‹_›
    · split
      · exact ends_inflight _ _
      · split
        · exact (pushBits_ends mm da dc _ p).error ‹_›
        · exact ih _ _

theorem flushByte_ends (p : Packer) : Ends (flushByte mm da dc p) := by
  rw [flushByte]
  split
  · exact emitByte_ends mm da dc p
  · exact ends_ok _

theorem packBits_ends (code : CodeTable) (m : Memory) (sa sl : Nat) : Ends (packBits mm code m sa sl da dc) :=
  (packLoop_ends mm da dc code sl sa _).bind fun p _ => flushByte_ends mm da dc p

end Packer

/-! ### The decoder over a tree (46_bit_unpacker.md R190) -/

/-- The entry is an internal node. -/
def IsInternal (ar : Arena) (i : Nat) : Prop := ∃ l r w, nodeAt ar i = .internal l r w

/-- What the decoder needs of an arena: the root is an internal node and no child is absent. -/
structure Walkable (ar : Arena) (root : Nat) : Prop where
  root : IsInternal ar root
  child : ∀ i b k, childOf (nodeAt ar i) b = some k → nodeAt ar k ≠ .absent

/-- The tree of a frequency table can be walked (10_state.md R51). -/
theorem walkable_of_treeOf (f : FreqTable) (T : Tree) (h : treeOf f = some T) : Walkable T.node T.root.toNat := by
  have A := arenaTree_of_treeOf f T h
  have hbound := A.leaves_bound
  obtain ⟨-, -, -, -, -, hnum, hroot, -⟩ := treeOf_forest f T h
  have present (k : Nat) (hk : k ≤ 2 * T.numLeaves.toNat - 2) : nodeAt T.node k ≠ .absent := by
    by_cases hleaf : k < T.numLeaves.toNat
    · obtain ⟨sym, w, hn⟩ := A.leaves k hleaf
      rw [hn]; exact nofun
    · obtain ⟨l, r, w, hn, -⟩ := A.internals k (by omega) hk
      rw [hn]; exact nofun
  constructor
  · obtain ⟨l, r, w, hn, -⟩ := A.internals T.root.toNat (by omega) (by omega)
    exact ⟨l, r, w, hn⟩
  · intro i b k hk
    by_cases hi : T.numLeaves.toNat ≤ i ∧ i ≤ 2 * T.numLeaves.toNat - 2
    · obtain ⟨l, r, w, hn, hl, hr, -⟩ := A.internals i hi.1 hi.2
      rw [hn, childOf, Option.some.injEq] at hk
      exact present k (by split at hk <;> omega)
    · by_cases hlo : i < T.numLeaves.toNat
      · obtain ⟨sym, w, hn⟩ := A.leaves i hlo
        rw [hn] at hk; cases hk
      · rw [A.absents i (by omega)] at hk; cases hk

section Decoder

variable {mm : List Region} {ar : Arena} {root sa da : Nat}

theorem decodeBit_ends (c : Cursor) (hc : IsInternal ar c.cur) : Ends (decodeBit mm ar root sa da c) := by
  have hfetch : Ends (fetchByte mm sa c) := by
    rw [fetchByte]
    split
    · exact dmaRead_ends mm _ _
    · exact ends_ok _
  refine hfetch.bind fun byte _ => ?_
  obtain ⟨l, r, w, hn⟩ := hc
  rw [hn]
  simp only [childOf]
  split
  · exact (dmaWrite_ends mm _ _ _).bind fun _ _ => ends_ok _
  · exact ends_ok _
  · exact ends_ok _

variable (hw : Walkable ar root)
include hw

/-- After a bit the cursor stands at an internal node again. -/
theorem decodeBit_keeps_internal (c d : Cursor) (h : decodeBit mm ar root sa da c = .ok d) : IsInternal ar d.cur := by
  rw [decodeBit, run_bind_eq_ok] at h
  obtain ⟨byte, -, h⟩ := h
  split at h
  · cases h
  · rename_i k hk
    split at h
    · rw [run_bind_eq_ok] at h
      obtain ⟨m, -, h⟩ := h
      cases h; exact hw.root
    · rename_i l r w hn
      cases h; exact ⟨l, r, w, hn⟩
    · rename_i hn
      exact absurd hn (hw.child _ _ k hk)

theorem decodeLoop_ends (sl n fuel : Nat) (c : Cursor) (hc : IsInternal ar c.cur) :
    Ends (decodeLoop mm ar root sa sl da n fuel c) := by
  induction fuel generalizing c with
  | zero =>
    rw [decodeLoop]
    split
    · exact ends_ok _
    · exact ends_inflight _ _
  | succ fuel ih =>
    rw [decodeLoop]
    split
    · exact ends_ok _
    · split
      · exact ends_inflight _ _
      · split
        · exact (decodeBit_ends c hc).error ‹_›
        · exact ih _ (decodeBit_keeps_internal hw c _ ‹_›)

theorem decodePayload_ends (m : Memory) (sl n : Nat) : Ends (decodePayload mm ar root m sa sl da n) :=
  decodeLoop_ends hw sl n (8 * sl) _ hw.root

end Decoder

/-! ### The units -/

theorem countFreq_ends (s : State) : Ends (countFreq s) := (readBytes_ends _ _ _ _).bind fun _ _ => ends_ok _

theorem buildTree_ends (s : State) : Ends (buildTree s) := by
  rw [buildTree]
  split
  · exact ends_pre _ _
  · exact ends_ok _

theorem parseHeader_ends (s : State) : Ends (parseHeader s) :=
  (readBytes_ends _ _ _ _).bind fun _ _ => (raiseIf_ends _ (ends_inflight _ _)).bind fun _ _ => ends_ok _

theorem writeHeader_ends (s : State) : Ends (writeHeader s) := writeBytes_ends _ _ _ _

theorem leafPaths_ends (s : State) (hT : treeCurrent s) : Ends (leafPaths s.node s.root) := by
  obtain ⟨ls, hls, -⟩ := leafPaths_of_treeOf s.freq (treeRegs s) hT
  have hls' : leafPaths s.node s.root = .ok ls := hls
  rw [hls']
  exact ends_ok ls

theorem genCodes_ends (s : State) (hs : TablesInv s) : Ends (genCodes s) :=
  (raiseIf_ends _ (ends_pre _ _)).bind fun _ hvalid =>
    (leafPaths_ends s (hs.tree (by simpa using (raiseIf_eq_ok _ _).mp hvalid))).bind fun _ _ => ends_ok _

theorem compressNonempty_ends (s : State) (hs : TablesInv s) : Ends (compressNonempty s) :=
  (countFreq_ends s).bind fun s₁ h₁ => (buildTree_ends s₁).bind fun s₂ h₂ =>
    (genCodes_ends s₂ ((buildTree_effect s₁ s₂ h₂).keeps_tables ((countFreq_effect s s₁ h₁).keeps_tables hs))).bind fun s₃ _ =>
      (raiseIf_ends _ (ends_inflight _ _)).bind fun _ _ => (writeHeader_ends s₃).bind fun _ _ =>
        (packBits_ends _ _ _ _ _ _ _).bind fun _ _ => ends_ok _

theorem decompressNonempty_ends (s : State) : Ends (decompressNonempty s) := by
  refine (parseHeader_ends s).bind fun s₁ _ => (buildTree_ends s₁).bind fun s₂ h₂ => ?_
  obtain ⟨T, hT, rfl⟩ := buildTree_eq_ok s₁ s₂ h₂
  exact (leafPaths_ends (installTree s₁ T) hT).bind fun ls _ => (raiseIf_ends _ (ends_inflight _ _)).bind fun _ _ =>
    (raiseIf_ends _ (ends_inflight _ _)).bind fun _ _ =>
      (decodePayload_ends (walkable_of_treeOf _ T hT) _ _ _).bind fun _ _ => ends_ok _

/-! ### The commands -/

/-- R119: where the validity flags tell the truth, the body of every command ends. -/
theorem bodyOf_ends (i : Instr) (s : State) (hs : TablesInv s) : Ends (bodyOf i s) := by
  cases i with
  | nop | clear => exact ends_ok _
  | count => exact (checkSrcRange_ends s).bind fun _ _ => (countFreq_ends s).bind fun _ _ => ends_ok _
  | build => exact (buildTree_ends s).bind fun _ _ => ends_ok _
  | gencode => exact (genCodes_ends s hs).bind fun _ _ => ends_ok _
  | pack =>
    exact (checkWindows_ends s).bind fun _ _ => (raiseIf_ends _ (ends_pre _ _)).bind fun _ _ =>
      (packBits_ends _ _ _ _ _ _ _).bind fun _ _ => ends_ok _
  | hdrWrite =>
    exact (checkDstRange_ends s).bind fun _ _ => (raiseIf_ends _ (ends_pre _ _)).bind fun _ _ =>
      (writeHeader_ends s).bind fun _ _ => ends_ok _
  | hdrParse =>
    exact (checkSrcRange_ends s).bind fun _ _ => (raiseIf_ends _ (ends_pre _ _)).bind fun _ _ =>
      (parseHeader_ends s).bind fun _ _ => ends_ok _
  | unpack =>
    refine (checkWindows_ends s).bind fun _ _ => (raiseIf_ends _ (ends_pre _ _)).bind fun _ hvalid =>
      (raiseIf_ends _ (ends_pre _ _)).bind fun _ _ => ?_
    have hT := hs.tree (by simpa using (raiseIf_eq_ok _ _).mp hvalid)
    exact (decodePayload_ends (walkable_of_treeOf _ _ hT) _ _ _).bind fun _ _ => ends_ok _
  | compress =>
    refine (checkWindows_ends s).bind fun _ _ => ?_
    split
    · exact ends_ok _
    · exact compressNonempty_ends s hs
  | decompress =>
    refine (checkWindows_ends s).bind fun _ _ => ?_
    split
    · exact ends_ok _
    · exact (raiseIf_ends _ (ends_pre _ _)).bind fun _ _ => decompressNonempty_ends s

/-- A command whose body ends answers a next state. -/
theorem complete_next_of_ends (w : WriteSet) (s : State) (r : Run (Nat × State)) (h : Ends r) : ∃ t, complete w s r = .next t := by
  match r with
  | .ok (n, u) => exact ⟨_, rfl⟩
  | .error (.pre e a) => exact ⟨_, rfl⟩
  | .error (.inflight e a) => exact ⟨_, rfl⟩
  | .error (.stuck f) => exact absurd rfl (h f)

/-- Settles O52: no part of any command is stuck where the arena is the tree of FREQ while TREE_VALID = 1. -/
theorem everyCommandCompletes : Obligations.EveryCommandCompletes := by
  unfold Obligations.EveryCommandCompletes
  intro i s hs
  rw [exec_eq_complete]
  exact complete_next_of_ends _ s _ (bodyOf_ends i s hs)

/-! ### The ENGINE's step and a WAIT (30_encoding.md R101, 70_reset_and_hazards.md R259) -/

/-- R117: every command ends with BUSY = 0. -/
theorem exec_busy (i : Instr) (s t : State) (h : exec i s = .next t) : t.busy = false := by
  obtain ⟨n, u, -, rfl⟩ | ⟨e, a, rfl⟩ | ⟨e, a, -, rfl⟩ := exec_eq_next i s t h <;> rfl

/-- The ENGINE's step completes a command, legal or not, and leaves the host's program and the schedule. -/
theorem engineStep_completes (s : State) (hs : TablesInv s) :
    ∃ t, engineStep s = .next t ∧ t.busy = false ∧ t.host = s.host ∧ t.schedule = s.schedule := by
  cases hd : decode s.cmd with
  | error e => exact ⟨_, engineStep_of_decode_error s e hd, rfl, rfl, rfl⟩
  | ok i =>
    obtain ⟨t, ht⟩ := everyCommandCompletes i s hs
    have hw := exec_within i s t ht
    exact ⟨t, (engineStep_of_decode_ok s i hd).trans ht, exec_busy i s t ht, hw.keeps State.host rfl, hw.keeps State.schedule rfl⟩

theorem step_of_schedule_nil_busy (s : State) (hs : s.schedule = []) (hb : s.busy = true) : step s = engineStep s := by
  rw [step, nextStep, hs]
  simp only [hb, agentStep, if_true]

/-- Log 3: with no agent named and BUSY = 0 the HOST steps. -/
theorem step_of_schedule_nil_idle (s : State) (hs : s.schedule = []) (hb : s.busy = false) : step s = hostStep s := by
  rw [step, nextStep, hs]
  simp only [hb, agentStep, Bool.false_eq_true, if_false]

theorem hostStep_cons (s : State) (st : HostStmt) (stmts : List HostStmt) (hh : s.host = st :: stmts) :
    hostStep s = hostStatement { s with host := stmts } st := by
  rw [hostStep, hh]

/-- Settles O10: the ENGINE's step completes the command, and the HOST's next step finds BUSY = 0. -/
theorem waitEndsWhenTheCommandCompletes : Obligations.WaitEndsWhenTheCommandCompletes := by
  unfold Obligations.WaitEndsWhenTheCommandCompletes
  intro s stmts hs hb hsched hhost
  obtain ⟨t, ht, htb, hth, hts⟩ := engineStep_completes s hs
  have hfirst : step s = .next t := (step_of_schedule_nil_busy s hsched hb).trans ht
  have hwait : hostStatement { t with host := stmts } .wait = .next { t with host := stmts } := by
    rw [hostStatement, if_neg (by simp [htb])]
  have hsecond : step t = .next { t with host := stmts } := by
    rw [step_of_schedule_nil_idle t (hts.trans hsched) htb, hostStep_cons t .wait stmts (hth.trans hhost), hwait]
  refine ⟨{ t with host := stmts }, ?_, rfl, htb⟩
  have hrun : ∀ u v w : State, step u = .next v → step v = .next w → Host.Core.run Sys2Proof.core 2 u = .next w := by
    intro u v w h₁ h₂
    simp only [Host.Core.run, Host.Check.core_step, h₁, h₂]
  exact hrun s t _ hfirst hsecond

/-! ### Refusals (40_control.md R114, 20_memory.md R70, R84) -/

theorem memRangeWf_eq_false (a : Word) (n : Nat) : memRangeWf a n = false ↔ Config.addrEnd < a.toNat + n := by
  simp [memRangeWf]

/-- R73: ranges meet exactly where a byte of the first lies in the second. -/
theorem rangesMeet_iff_byte (a n b l : Nat) : rangesMeet a n b l = true ↔ ∃ i < n, inRange b l (a + i) = true := by
  refine ⟨rangesMeet_byte a n b l, ?_⟩
  rintro ⟨i, hi, hin⟩
  simp only [inRange, Bool.and_eq_true, decide_eq_true_eq] at hin
  simp only [rangesMeet, Bool.and_eq_true, decide_eq_true_eq]
  omega

/-- R84: a host write that may not be made is one of a busy block, of a byte of either window. -/
theorem hostMayWrite_eq_false_iff (s : State) (a n : Nat) : hostMayWrite s a n = false ↔
    s.busy = true ∧ ∃ i < n, inSrc s (a + i) = true ∨ inDst s (a + i) = true := by
  simp only [hostMayWrite, Bool.or_eq_false_iff, Bool.not_eq_false', Bool.or_eq_true, rangesMeet_iff_byte, inSrc, inDst, and_or_left,
    exists_or]

/-- R84: a host read that may not be made is one of a busy block, of a byte of the destination window. -/
theorem hostMayRead_eq_false_iff (s : State) (a n : Nat) : hostMayRead s a n = false ↔
    s.busy = true ∧ ∃ i < n, inDst s (a + i) = true := by
  simp only [hostMayRead, Bool.or_eq_false_iff, Bool.not_eq_false', rangesMeet_iff_byte, inDst]

/-- No host statement faults. -/
theorem hostStatement_ne_fault (s : State) (st : HostStmt) (f : Fault) : hostStatement s st ≠ .fault f := by
  cases st with
  | wait => simp only [hostStatement]; split <;> exact nofun
  | wr | cmd | busWrite => simp only [hostStatement, hostWrite]; split <;> exact nofun
  | rd | busRead => simp only [hostStatement, hostRead]; split <;> exact nofun
  | memw =>
    simp only [hostStatement, hostMemWrite]
    split
    · exact nofun
    · split <;> exact nofun
  | memr =>
    simp only [hostStatement, hostMemRead]
    split
    · exact nofun
    · split <;> exact nofun

/-- The HOST's step takes its next statement, if it has one, and otherwise passes. -/
theorem hostStep_cases (s : State) : (s.host = [] ∧ hostStep s = .next s) ∨
    ∃ st stmts, s.host = st :: stmts ∧ hostStep s = hostStatement { s with host := stmts } st := by
  cases hh : s.host with
  | nil => exact .inl ⟨rfl, by rw [hostStep, hh]⟩
  | cons st stmts => exact .inr ⟨st, stmts, rfl, hostStep_cons s st stmts hh⟩

/-- A step goes on to a next state, or it is the HOST's next statement. -/
theorem step_next_or_host (s : State) (hs : TablesInv s) : (∃ t, step s = .next t) ∨
    ∃ st stmts rest, s.host = st :: stmts ∧ (s.schedule = .host :: rest ∨ (s.schedule = [] ∧ s.busy = false)) ∧
      step s = hostStatement { s with host := stmts, schedule := rest } st := by
  have engine (rest : List Agent) : ∃ t, engineStep { s with schedule := rest } = .next t := by
    obtain ⟨t, ht, -⟩ := engineStep_completes { s with schedule := rest } ⟨hs.coupled, hs.tree, hs.codes⟩
    exact ⟨t, ht⟩
  have host (rest : List Agent) (hstep : step s = hostStep { s with schedule := rest })
      (hturn : s.schedule = .host :: rest ∨ (s.schedule = [] ∧ s.busy = false)) : (∃ t, step s = .next t) ∨
      ∃ st stmts rest, s.host = st :: stmts ∧ (s.schedule = .host :: rest ∨ (s.schedule = [] ∧ s.busy = false)) ∧
        step s = hostStatement { s with host := stmts, schedule := rest } st := by
    obtain ⟨-, h⟩ | ⟨st, stmts, hh, h⟩ := hostStep_cases { s with schedule := rest }
    · exact .inl ⟨_, hstep.trans h⟩
    · exact .inr ⟨st, stmts, rest, hh, hturn, hstep.trans h⟩
  cases hsched : s.schedule with
  | nil =>
    have hself : { s with schedule := [] } = s := by rw [← hsched]
    cases hb : s.busy with
    | true => exact .inl (by rw [step_of_schedule_nil_busy s hsched hb, ← hself]; exact engine [])
    | false =>
      have := host [] (by rw [hself]; exact step_of_schedule_nil_idle s hsched hb) (.inr ⟨hsched, hb⟩)
      simpa only [hsched, hb] using this
  | cons agent rest =>
    have hstep : step s = agentStep { s with schedule := rest } agent := by rw [step, nextStep, hsched]
    cases agent with
    | reset => exact .inl ⟨_, hstep⟩
    | engine =>
      cases hb : s.busy with
      | true => exact .inl (by rw [hstep, agentStep, if_pos hb]; exact engine rest)
      | false => exact .inl ⟨_, by rw [hstep, agentStep, if_neg (by simp [hb])]⟩
    | host =>
      have := host rest hstep (.inl hsched)
      simpa only [hsched] using this

/-- Settles O60: the ENGINE completes and the RESET always steps, so only a host statement can be refused, for one of its three reasons. -/
theorem noStepFaultsUnderTheInvariant : Obligations.NoStepFaultsUnderTheInvariant := by
  unfold Obligations.NoStepFaultsUnderTheInvariant
  intro s hinv
  obtain ⟨t, ht⟩ | ⟨st, stmts, rest, hhost, hturn, hstep⟩ := step_next_or_host s hinv.tables
  · rw [ht]
    exact ⟨fun _ => nofun, fun _ => nofun⟩
  · rw [hstep]
    refine ⟨hostStatement_ne_fault _ st, fun q hq => ⟨st, stmts, hhost, hturn.imp_left fun h => ⟨rest, h⟩, ?_⟩⟩
    obtain ⟨hq, hst⟩ | ⟨hq, hst⟩ | ⟨hq, hst⟩ := hostStatement_eq_refused _ st q hq
    case inl =>
      refine .inl ⟨hq, ?_⟩
      obtain ⟨off, n, v, hst, hwf⟩ | ⟨off, n, k, hst, hwf⟩ := hst
      · exact ⟨off, n, fun h => by simp [(wf_busTxn_w_iff off n v).mpr h] at hwf, .inl ⟨v, hst⟩⟩
      · exact ⟨off, n, fun h => by simp [(wf_busTxn_r_iff off n).mpr h] at hwf, .inr ⟨k, hst⟩⟩
    case inr.inl =>
      refine .inr (.inl ⟨hq, ?_⟩)
      obtain ⟨a, bs, hst, hwf⟩ | ⟨a, n, name, hst, hwf⟩ := hst
      · exact .inl ⟨a, bs, hst, (memRangeWf_eq_false a _).mp hwf⟩
      · exact .inr ⟨a, n, name, hst, (memRangeWf_eq_false a n).mp hwf⟩
    case inr.inr =>
      refine .inr (.inr ⟨hq, ?_⟩)
      obtain ⟨a, bs, hst, hmay⟩ | ⟨a, n, name, hst, hmay⟩ := hst
      · obtain ⟨hb, hbyte⟩ := (hostMayWrite_eq_false_iff _ _ _).mp hmay
        exact ⟨hb, .inl ⟨a, bs, hst, hbyte⟩⟩
      · obtain ⟨hb, hbyte⟩ := (hostMayRead_eq_false_iff _ _ _).mp hmay
        exact ⟨hb, .inr ⟨a, n, name, hst, hbyte⟩⟩

end Sys2Proof.Machine
end

section
/-! PROOFS. The decoder and the ENGINE's step (30_encoding.md R91 to R95, 40_control.md R117), the HOST's statements (30_encoding.md R100 to
R103, 20_memory.md R84), what a register reads and what a write leaves (10_state.md R22 to R44). -/

namespace Sys2Proof.Machine

/-! ### The command words (30_encoding.md R91 to R95) -/

/-- Settles O1: each word is a table row's, or fails one of the decoder's two checks. -/
theorem commandWordsDecodeAsTheTable : Obligations.CommandWordsDecodeAsTheTable :=
  ⟨rfl, rfl, rfl, rfl, rfl, rfl, rfl, rfl, rfl, rfl, rfl, rfl, rfl, rfl⟩

theorem decode_encode (i : Instr) : decode (encode i) = .ok i := by cases i <;> rfl

/-- R95: the illegal words are those above 0x0A as numbers. -/
theorem decode_eq_error_iff_toNat (w : Word) : (∃ e, decode w = .error e) ↔ 0x0A < w.toNat := by
  have hsum : w.toNat = 2 ^ 8 * (rsvdField w).toNat + (opcodeField w).toNat := by
    rw [← toNat_append_eq_add, rsvdField_append_opcodeField]
  have hzero : rsvdField w = 0 ↔ (rsvdField w).toNat = 0 := BitVec.toNat_inj.symm
  have hlt := (opcodeField w).isLt
  rw [decode_eq_error_iff, ne_eq, hzero]
  omega

/-- Settles O2: the decoder accepts the encoding of each command and nothing else, and the fields of R91 make the word's number. -/
theorem decodeAcceptsExactlyTheEncodedCommands : Obligations.DecodeAcceptsExactlyTheEncodedCommands := by
  unfold Obligations.DecodeAcceptsExactlyTheEncodedCommands
  refine fun w => ⟨fun i => ⟨eq_encode_of_decode_ok w i, ?_⟩, decode_eq_error_iff_toNat w⟩
  rintro rfl
  exact decode_encode i

/-! ### The ENGINE's step (40_control.md R117) -/

/-- Log 4: the word of a command placed by `withFetchWord` is issued, and the next step runs the command. -/
theorem step_withFetchWord (s : State) (i : Instr) :
    step (s.withFetchWord 32 (encode i).toNat) = exec i (issue s (encode i)) := by
  have hword : BitVec.ofNat 32 ((encode i).toNat % 2 ^ 32) = encode i := by
    rw [Nat.mod_eq_of_lt (encode i).isLt, BitVec.ofNat_toNat, BitVec.setWidth_eq]
  rw [State.withFetchWord, hword, step_of_schedule_engine (issueNow s (encode i)) s.schedule rfl rfl]
  exact engineStep_of_decode_ok _ i (decode_encode i)

/-- Settles O4: the ENGINE's turn, named or by default, is the step of the word in CMD. -/
theorem stepRunsTheDecodedCommand : Obligations.StepRunsTheDecodedCommand := by
  unfold Obligations.StepRunsTheDecodedCommand
  refine fun s i => ⟨fun hb hd => ⟨fun hs => ?_, fun rest hs => ?_⟩, step_withFetchWord s i⟩
  · rw [step_of_schedule_nil_busy s hs hb, engineStep_of_decode_ok s i hd]
  · rw [step_of_schedule_engine s rest hb hs]
    exact engineStep_of_decode_ok _ i hd

/-! ### The host's memory accesses (20_memory.md R84) -/

theorem memRangeWf_eq_true {a : Word} {n : Nat} (h : a.toNat + n ≤ Config.addrEnd) : memRangeWf a n = true := decide_eq_true h

/-- Settles O8: inside data memory the duty alone decides, and the duty is that of a byte of the windows. -/
theorem hostMemoryAccessKeepsTheDuty : Obligations.HostMemoryAccessKeepsTheDuty := by
  unfold Obligations.HostMemoryAccessKeepsTheDuty
  refine fun s a bs n name => ⟨fun hrange => ?write, fun hrange => ?read⟩
  case write =>
    rw [← hostMayWrite_eq_false_iff, hostMemWrite, memRangeWf_eq_true hrange]
    cases hostMayWrite s a.toNat bs.length <;> simp
  case read =>
    rw [← hostMayRead_eq_false_iff, hostMemRead, memRangeWf_eq_true hrange]
    cases hostMayRead s a.toNat n <;> simp

/-! ### The host's statements (30_encoding.md R100 to R103) -/

theorem regOffset_aligned (r : Reg) : (regOffset r).toNat % 4 = 0 := by cases r <;> rfl

theorem hostRead_of_word (s : State) (off : BitVec 8) (t : Nat) (h : off.toNat % 4 = 0) :
    hostRead s off 4 t = .next (setTemp (regRead s off).2 t (regRead s off).1) := if_pos ((wf_busTxn_r_iff off 4).mpr ⟨rfl, h⟩)

theorem hostWrite_regOffset (s : State) (r : Reg) (v : Word) : hostWrite s (regOffset r) 4 v = .next (regWrite s (regOffset r) v) :=
  hostWrite_of_word s _ 4 v ⟨rfl, regOffset_aligned r⟩

/-- R101: `WAIT` reads STATUS, whose bit 0 is BUSY, and the read changes nothing. -/
theorem regRead_status (s : State) : regRead s 0x08 = (statusWord s, s) := regRead_readable s 0x08 .status rfl (.inr rfl)

theorem hostStatement_wait (s : State) :
    ((regRead s 0x08).1.getLsbD 0 = true → hostStatement s .wait = .next { (regRead s 0x08).2 with host := .wait :: s.host }) ∧
    ((regRead s 0x08).1.getLsbD 0 = false → hostStatement s .wait = .next (regRead s 0x08).2) := by
  obtain ⟨hbusy, -⟩ := statusWord_bits s
  rw [regRead_status, hbusy, hostStatement]
  exact ⟨fun h => if_pos h, fun h => if_neg (by simp [h])⟩

theorem step_of_schedule_host_nil (s : State) (rest : List Agent) (hs : s.schedule = .host :: rest) (hh : s.host = []) :
    step s = .next { s with schedule := rest } := by
  rw [step, nextStep, hs]
  simp only [agentStep, hostStep, hh]

/-- Settles O9: each statement form is an access with a meaning, and the HOST's turn, named or by default, takes the next statement. -/
theorem statementsRunAsTheirBusTransactions : Obligations.StatementsRunAsTheirBusTransactions := by
  unfold Obligations.StatementsRunAsTheirBusTransactions
  intro s
  refine ⟨fun r v => ⟨rfl, rfl, hostWrite_regOffset s r v⟩, fun r t => ⟨rfl, hostRead_of_word s _ t (regOffset_aligned r)⟩,
    fun i => ⟨rfl, hostWrite_regOffset s .cmd (encode i)⟩, ⟨rfl, hostStatement_wait s⟩, fun a bs => ⟨rfl, rfl⟩,
    fun a n name => ⟨rfl, rfl⟩, fun off v h => ⟨rfl, hostWrite_of_word s off 4 v ⟨rfl, h⟩⟩,
    fun off t h => ⟨rfl, hostRead_of_word s off t h⟩, fun st stmts hh => ⟨fun rest hs => ?named, fun hs hb => ?default⟩,
    fun hh => ⟨fun rest hs => step_of_schedule_host_nil s rest hs hh, fun hs hb => ?idle⟩⟩
  case named => exact step_of_schedule_host s st stmts rest hs hh
  case default => rw [step_of_schedule_nil_idle s hs hb, hostStep_cons s st stmts hh]
  case idle => rw [step_of_schedule_nil_idle s hs hb, hostStep, hh]

/-! ### Register reads (40_control.md R111) -/

/-- R23: the offsets from 0x68 up are reserved. -/
theorem regAt_reserved (off : BitVec 8) (h : 0x68 ≤ off.toNat) : regAt off = none := by
  unfold regAt
  split
  case h_27 => rfl
  all_goals omega

theorem readableWhileBusy_iff (r : Reg) : readableWhileBusy r = true ↔ r = .id ∨ r = .cmd ∨ r = .status ∨ r = .irqEn := by
  cases r <;> decide

/-- R111: another register read while BUSY = 1 is a free draw. -/
theorem regRead_unreadable (s : State) (off : BitVec 8) (r : Reg) (hr : regAt off = some r) (hb : s.busy = true)
    (h : readableWhileBusy r = false) : regRead s off = (Config.freeRead s.draws, { s with draws := s.draws + 1 }) := by
  rw [regRead, hr]
  simp [hb, h]

theorem regRead_of_offset (s : State) (off : BitVec 8) (r : Reg) (hr : regOffset r = off) :
    ((s.busy = false ∨ r = .id ∨ r = .cmd ∨ r = .status ∨ r = .irqEn) → regRead s off = (regValue s r, s)) ∧
    (¬(s.busy = false ∨ r = .id ∨ r = .cmd ∨ r = .status ∨ r = .irqEn) →
      regRead s off = (Config.freeRead s.draws, { s with draws := s.draws + 1 })) := by
  subst hr
  rw [← readableWhileBusy_iff]
  refine ⟨regRead_readable s _ r (regAt_regOffset r), fun h => ?_⟩
  rw [not_or, Bool.not_eq_false, Bool.not_eq_true] at h
  exact regRead_unreadable s _ r (regAt_regOffset r) h.1 h.2

/-- What a read returns where the register is readable. -/
theorem regRead_fst (s : State) (off : BitVec 8) (r : Reg) (hr : regAt off = some r)
    (h : s.busy = false ∨ readableWhileBusy r = true) : (regRead s off).1 = regValue s r :=
  congrArg Prod.fst (regRead_readable s off r hr h)

/-- R40: BITCNT_LO and BITCNT_HI are the two parts of BITCNT. -/
theorem bitCntWords_toNat (b : BitCount) : (b.extractLsb' 0 32).toNat = b.toNat % 2 ^ 32 ∧
    ((b.extractLsb' 32 16).setWidth 32).toNat = b.toNat / 2 ^ 32 := by
  have := b.isLt
  simp only [BitVec.toNat_setWidth, BitVec.extractLsb'_toNat, Nat.shiftRight_eq_div_pow]
  omega

/-- A field narrower than a word keeps its number in the word. -/
theorem toNat_setWidth_word {n : Nat} (x : BitVec n) (h : n ≤ 32) : (x.setWidth 32).toNat = x.toNat :=
  BitVec.toNat_setWidth_of_le h

/-- Settles O12: a read answers its register's value where it is readable, and each value is a field in a word. -/
theorem registerReadReturnsItsValue : Obligations.RegisterReadReturnsItsValue := by
  unfold Obligations.RegisterReadReturnsItsValue
  refine ⟨fun s off _ => ⟨fun h => ?reserved, regRead_of_offset s off⟩, fun s => ⟨?always, fun hb => ?idle⟩⟩
  case reserved => rw [regRead, regAt_reserved off h]
  case always =>
    exact ⟨regRead_fst s _ .id rfl (.inr rfl), regRead_fst s _ .cmd rfl (.inr rfl), regRead_fst s _ .status rfl (.inr rfl),
      (congrArg BitVec.toNat (regRead_fst s 0x0C .irqEn rfl (.inr rfl))).trans (toNat_setWidth_word _ (by decide))⟩
  case idle =>
    have value (off : BitVec 8) (r : Reg) (hr : regAt off = some r) : (regRead s off).1 = regValue s r :=
      regRead_fst s off r hr (.inl hb)
    have number {n : Nat} (off : BitVec 8) (r : Reg) (x : BitVec n) (hr : regAt off = some r) (hx : regValue s r = x.setWidth 32)
        (hn : n ≤ 32) : (regRead s off).1.toNat = x.toNat := by
      rw [value off r hr, hx, toNat_setWidth_word x hn]
    obtain ⟨hlo, hhi⟩ := bitCntWords_toNat s.bitCnt
    refine ⟨⟨value _ .srcAddr rfl, value _ .srcLen rfl, value _ .dstAddr rfl, value _ .dstCap rfl⟩,
      ⟨value _ .outLen rfl, value _ .origLen rfl, value _ .errAddr rfl, ?_, ?_⟩,
      ⟨number _ .numLeaves _ rfl rfl (by decide), number _ .root _ rfl rfl (by decide), number _ .nodeCount _ rfl rfl (by decide)⟩,
      number _ .freqIdx _ rfl rfl (by decide), value _ .freqData rfl, number _ .codeIdx _ rfl rfl (by decide),
      number _ .codeSel _ rfl rfl (by decide), number _ .nodeIdx _ rfl rfl (by decide)⟩
    · rw [value 0x2C .bitcntLo rfl]; exact hlo
    · rw [value 0x30 .bitcntHi rfl]; exact hhi

/-! ### Register writes (40_control.md R112, R113) -/

theorem regWrite_regOffset_idle (s : State) (r : Reg) (v : Word) (hb : s.busy = false) :
    regWrite s (regOffset r) v = regWriteIdle s v r := regWrite_idle s _ v r hb (regAt_regOffset r)

/-- R23: the low bits of a word, read back, are the word under their mask. -/
theorem setWidth_extract_eq_and (v : Word) (n : Nat) (hn : n ≤ 32) :
    (v.extractLsb' 0 n).setWidth 32 = v &&& BitVec.ofNat 32 (2 ^ n - 1) := by
  have hpow : 2 ^ n ≤ 2 ^ 32 := Nat.pow_le_pow_right (by decide) hn
  have hpos : 0 < 2 ^ n := Nat.two_pow_pos n
  apply BitVec.eq_of_toNat_eq
  rw [toNat_setWidth_word _ hn, BitVec.extractLsb'_toNat, Nat.shiftRight_zero, BitVec.toNat_and, BitVec.toNat_ofNat,
    Nat.mod_eq_of_lt (show 2 ^ n - 1 < 2 ^ 32 by omega), Nat.and_two_pow_sub_one_eq_mod]

theorem and_allOnes_word (v : Word) : v = v &&& 0xFFFFFFFF#32 := (BitVec.and_allOnes (x := v)).symm

/-- R23, R113: an RW register reads the written word's defined bits. -/
theorem regValue_regWriteIdle (s : State) (v : Word) :
    ∀ p ∈ [(Reg.srcAddr, 0xFFFFFFFF#32), (.srcLen, 0xFFFFFFFF), (.dstAddr, 0xFFFFFFFF), (.dstCap, 0xFFFFFFFF),
        (.origLen, 0xFFFFFFFF), (.cmd, 0xFFFFFFFF), (.freqData, 0xFFFFFFFF), (.irqEn, 0x7), (.freqIdx, 0xFF),
        (.codeIdx, 0xFF), (.codeSel, 0x7), (.nodeIdx, 0x1FF)],
      regValue (regWriteIdle s v p.1) p.1 = v &&& p.2 := by
  have hfreq : regValue (regWriteIdle s v .freqData) .freqData = v := by
    simp only [regWriteIdle, regValue, clearValid_freq, clearValid_freqIdx, symGet_symSet, if_true]
  simp only [List.forall_mem_cons, List.not_mem_nil, false_imp_iff, implies_true, and_true]
  exact ⟨and_allOnes_word v, and_allOnes_word v, and_allOnes_word v, and_allOnes_word v, and_allOnes_word v, and_allOnes_word v,
    hfreq.trans (and_allOnes_word v), setWidth_extract_eq_and v 3 (by decide), setWidth_extract_eq_and v 8 (by decide),
    setWidth_extract_eq_and v 8 (by decide), setWidth_extract_eq_and v 3 (by decide), setWidth_extract_eq_and v 9 (by decide)⟩

/-- R113: an RO register has no write. -/
theorem regWriteIdle_readOnly (s : State) (v : Word) :
    ∀ r ∈ [Reg.id, .outLen, .errAddr, .bitcntLo, .bitcntHi, .numLeaves, .root, .nodeCount, .codeInfo, .codeBits, .nodeInfo,
      .nodeWlo, .nodeWhi], regWriteIdle s v r = s := by
  simp only [List.forall_mem_cons, List.not_mem_nil, false_imp_iff, implies_true, and_true]
  exact ⟨rfl, rfl, rfl, rfl, rfl, rfl, rfl, rfl, rfl, rfl, rfl, rfl, rfl⟩

/-- Settles O13: each write is the idle one of its register, which stores the low bits its width holds or nothing. -/
theorem writtenRegisterReadsBackItsDefinedBits : Obligations.WrittenRegisterReadsBackItsDefinedBits := by
  unfold Obligations.WrittenRegisterReadsBackItsDefinedBits
  intro s v hb
  have write (r : Reg) := regWrite_regOffset_idle s r v hb
  refine ⟨fun p hp => ?_, ⟨write .irqEn, write .srcAddr, write .srcLen, write .dstAddr, write .dstCap, write .origLen,
    write .freqIdx, write .codeIdx, write .codeSel, write .nodeIdx⟩, fun r hr => ?_, fun off hoff => ?_⟩
  · rw [write p.1]
    exact regValue_regWriteIdle s v p hp
  · rw [write r]
    exact regWriteIdle_readOnly s v r hr
  · rw [regWrite, if_neg (by simp [hb]), regAt_reserved off hoff]

end Sys2Proof.Machine
end

section
/-! PROOFS. The commands that end before they reach memory (60_exceptions.md R220, R221, R223), HDR_PARSE (45_header_codec.md R182, R184),
the RESET event (70_reset_and_hazards.md R250, R251, R254) and the first command after it (R253). -/

namespace Sys2Proof.Machine

/-! ### Raises -/

theorem raiseIf_of {c : Prop} [Decidable c] (h : c) (e : Stop) : raiseIf (decide c) e = .error e := by
  rw [decide_eq_true h, raiseIf_true]

theorem raiseIf_of_not {c : Prop} [Decidable c] (h : ¬c) (e : Stop) : raiseIf (decide c) e = .ok () := by
  rw [decide_eq_false h, raiseIf_false]

/-- A validity flag that is 1 raises nothing. -/
theorem raiseIf_flag {b : Bool} (h : b = true) (e : Stop) : raiseIf (!b) e = .ok () := by rw [h, Bool.not_true, raiseIf_false]

/-- A validity flag that is 0 raises. -/
theorem raiseIf_noFlag {b : Bool} (h : b = false) (e : Stop) : raiseIf (!b) e = .error e := by
  rw [h, Bool.not_false, raiseIf_true]

/-! ### Prerequisites and size pre-checks (60_exceptions.md R221 items 4 and 5) -/

/-- A window shorter than a header is a pre-check of HDR_PARSE, the empty one included (log 24). -/
theorem exec_hdrParse_short (s : State) (hsrc : srcInRange s) (hlen : s.srcLen.toNat < 1028) :
    exec .hdrParse s = .next { s with err := true, errCode := 10, errAddr := 0, outLen := 0, busy := false } := by
  refine exec_of_body_pre .hdrParse s .corruptHeader 0 ?_
  rw [bodyOf, hdrParseBody, checkSrcRange_ok s hsrc, run_bind_ok, Config.hdrBytes, raiseIf_of hlen, run_bind_error]

/-- Settles O22: each clause is the first check of the body that fails. -/
theorem prerequisitesEndTheCommand : Obligations.PrerequisitesEndTheCommand := by
  unfold Obligations.PrerequisitesEndTheCommand
  refine fun s => ⟨fun htree => ?gencode, fun hwin hcodes => ?pack, fun hwin htree => ?unpackTree, fun hwin htree hcap => ?unpackSize,
    fun hdst hcap => ?hdrWrite, fun hsrc hlen => ?hdrParse, fun hwin hpos hlen => ?decompress⟩
  case gencode =>
    refine exec_of_body_pre .gencode s .noTree 0 ?_
    rw [bodyOf, gencodeBody, genCodes, raiseIf_noFlag htree, run_bind_error, run_bind_error]
  case pack =>
    refine exec_of_body_pre .pack s .noCodes 0 ?_
    rw [bodyOf, packBody, checkWindows_ok s hwin, run_bind_ok, raiseIf_noFlag hcodes, run_bind_error]
  case unpackTree =>
    refine exec_of_body_pre .unpack s .noTree 0 ?_
    rw [bodyOf, unpackBody, checkWindows_ok s hwin, run_bind_ok, raiseIf_noFlag htree, run_bind_error]
  case unpackSize =>
    refine exec_of_body_pre .unpack s .dstOverflow 0 ?_
    rw [bodyOf, unpackBody, checkWindows_ok s hwin, run_bind_ok, raiseIf_flag htree, run_bind_ok, raiseIf_of hcap, run_bind_error]
  case hdrWrite =>
    refine exec_of_body_pre .hdrWrite s .dstOverflow 0 ?_
    rw [bodyOf, hdrWriteBody, checkDstRange_ok s hdst, run_bind_ok, Config.hdrBytes, raiseIf_of hcap, run_bind_error]
  case hdrParse => exact exec_hdrParse_short s hsrc hlen
  case decompress =>
    have hne : s.srcLen ≠ 0 := by rintro h; rw [h] at hpos; exact absurd hpos (by decide)
    refine exec_of_body_pre .decompress s .corruptHeader 0 ?_
    rw [bodyOf, decompressBody, checkWindows_ok s hwin, run_bind_ok, if_neg hne, Config.hdrBytes, raiseIf_of hlen, run_bind_error]

/-- R140: a table with no symbol present has no tree. -/
theorem treeOf_eq_none (f : FreqTable) (h : ∀ b, symGet f b = 0) : treeOf f = none := by
  have hnone : presentSymbols f = [] :=
    List.eq_nil_iff_forall_not_mem.mpr fun b hb => (mem_presentSymbols f b).mp hb (h b)
  rw [treeOf, if_pos ((allZero_iff f).mpr hnone)]

/-- Settles O26: the BUILD step finds no tree. -/
theorem buildOfNoSymbolIsEmptyAlphabet : Obligations.BuildOfNoSymbolIsEmptyAlphabet := by
  unfold Obligations.BuildOfNoSymbolIsEmptyAlphabet
  intro s hzero
  refine exec_of_body_pre .build s .emptyAlphabet 0 ?_
  rw [bodyOf, buildBody, buildTree, treeOf_eq_none s.freq hzero]
  rfl

/-! ### NOP and the empty input (40_control.md R120, 47_composite.md R200, R203) -/

/-- Settles O19: the body of NOP is the state it started from. -/
theorem nopCompletes : Obligations.NopCompletes := by
  unfold Obligations.NopCompletes
  intro s
  rw [exec_eq_complete, bodyOf, complete]
  rfl

/-- R73: an empty window meets no other. -/
theorem windowsOk_of_srcLen_zero (s : State) (hsrc : srcInRange s) (hdst : dstInRange s) (hzero : s.srcLen = 0) : windowsOk s :=
  ⟨hsrc, hdst, by simp [windowsOverlap, rangesMeet, hzero]⟩

/-- Settles O43: both bodies go no further than the window checks. -/
theorem emptyInputCompletesUnchanged : Obligations.EmptyInputCompletesUnchanged := by
  unfold Obligations.EmptyInputCompletesUnchanged
  intro s hsrc hdst hzero
  have hwin := windowsOk_of_srcLen_zero s hsrc hdst hzero
  constructor
  · rw [exec_eq_complete, bodyOf, compressBody, checkWindows_ok s hwin, run_bind_ok, if_pos hzero, complete]
    rfl
  · rw [exec_eq_complete, bodyOf, decompressBody, checkWindows_ok s hwin, run_bind_ok, if_pos hzero, complete]
    rfl

/-! ### HDR_PARSE (45_header_codec.md R182, R184) -/

/-- R75: the value of four bytes is the bytes side by side, the last one highest. -/
theorem le32Of_eq_append (b₀ b₁ b₂ b₃ : Byte) : le32Of b₀ b₁ b₂ b₃ = b₃ ++ b₂ ++ b₁ ++ b₀ := by
  have h₀ := b₀.isLt
  have h₁ := b₁.isLt
  have h₂ := b₂.isLt
  have h₃ := b₃.isLt
  apply BitVec.eq_of_toNat_eq
  simp only [le32Of, toNat_append_eq_add, BitVec.toNat_ofNat]
  omega

/-- R75: byte `t` of the value of four bytes is byte `t` of the four. -/
theorem le32Of_byte (b₀ b₁ b₂ b₃ : Byte) (t : Nat) (ht : t < 4) :
    (le32Of b₀ b₁ b₂ b₃).extractLsb' (8 * t) 8 = [b₀, b₁, b₂, b₃].getD t 0 := by
  have above {n : Nat} (hi : BitVec n) (lo : Byte) (k : Nat) : (hi ++ lo).extractLsb' (k + 8) 8 = hi.extractLsb' k 8 := by
    rw [BitVec.extractLsb'_append_eq_of_le (Nat.le_add_left 8 k), Nat.add_sub_cancel]
  rw [le32Of_eq_append]
  interval_cases t
  · exact BitVec.extractLsb'_append_eq_right
  · exact (above (b₃ ++ b₂ ++ b₁) b₀ 0).trans BitVec.extractLsb'_append_eq_right
  · exact (above (b₃ ++ b₂ ++ b₁) b₀ 8).trans ((above (b₃ ++ b₂) b₁ 0).trans BitVec.extractLsb'_append_eq_right)
  · exact (above (b₃ ++ b₂ ++ b₁) b₀ 16).trans ((above (b₃ ++ b₂) b₁ 8).trans BitVec.extractLsb'_append_eq_left)

/-- R181: byte `t` of field `i` stands at offset `4i + t`, in any byte sequence that holds the whole field. -/
theorem le32Words_byte (bs : List Byte) (i t : Nat) (hi : 4 * i + 4 ≤ bs.length) (ht : t < 4) :
    ((le32Words bs).getD i 0).extractLsb' (8 * t) 8 = bs.getD (4 * i + t) 0 := by
  induction bs using le32Words.induct generalizing i with
  | case1 b₀ b₁ b₂ b₃ bs ih =>
    rw [le32Words]
    cases i with
    | zero =>
      rw [List.getD_cons_zero, le32Of_byte _ _ _ _ t ht]
      interval_cases t <;> rfl
    | succ i =>
      simp only [List.length_cons] at hi
      rw [List.getD_cons_succ, ih i (by omega), show 4 * (i + 1) + t = 4 * i + t + 1 + 1 + 1 + 1 by omega]
      rfl
  | case2 | case3 | case4 | case5 => simp only [List.length_cons, List.length_nil] at hi; omega

/-- R182: ParseHeader of a header that responds is decided by its consistency. -/
theorem parseHeader_of_allOK (s : State) (hb : List Byte) (hhb : hb = Memory.readList s.mem s.srcAddr.toNat 1028)
    (hok : allOK s s.srcAddr.toNat 1028) : parseHeader s = (do
      raiseIf (headerCorrupt (headerLen hb) (headerFreq hb)) (.inflight .corruptHeader 0)
      .ok (parsed s hb)) := by
  rw [parseHeader, Config.hdrBytes, readBytes_ok s.memMap s.mem _ _ hok, run_bind_ok, ← hhb, parsed]

/-- R184: ParseHeader of an inconsistent header that responds. -/
theorem parseHeader_corrupt (s : State) (hb : List Byte) (hhb : hb = Memory.readList s.mem s.srcAddr.toNat 1028)
    (hok : allOK s s.srcAddr.toNat 1028) (hbad : ¬(headerLen hb ≠ 0 ∧ freqSum (headerFreq hb) = (headerLen hb).toNat)) :
    parseHeader s = .error (.inflight .corruptHeader 0) := by
  have hcorrupt : headerCorrupt (headerLen hb) (headerFreq hb) = true :=
    Bool.eq_true_of_not_eq_false (mt (headerCorrupt_eq_false_iff _ _).mp hbad)
  rw [parseHeader_of_allOK s hb hhb hok, hcorrupt, raiseIf_true, run_bind_error]

/-- The body of HDR_PARSE where its pre-checks pass. -/
theorem hdrParseBody_of_window (s : State) (hsrc : srcInRange s) (hlen : 1028 ≤ s.srcLen.toNat) :
    hdrParseBody s = (do let t ← parseHeader s; .ok (0, t)) := by
  rw [hdrParseBody, checkSrcRange_ok s hsrc, run_bind_ok, Config.hdrBytes, raiseIf_of_not (Nat.not_lt_of_ge hlen), run_bind_ok]

/-- Settles O39: the length pre-check, then R184's consistency test of the bytes read. -/
theorem hdrParseCompletesOnAConsistentHeader : Obligations.HdrParseCompletesOnAConsistentHeader := by
  unfold Obligations.HdrParseCompletesOnAConsistentHeader
  refine fun s hsrc => ⟨fun hshort => ?short, fun hlen hok hb hhb => ⟨fun hcons => ?consistent, fun hbad => ?corrupt,
    fun t ht => ?lenBytes, fun b t ht => ?freqBytes⟩⟩
  case short => exact exec_hdrParse_short s hsrc hshort
  case consistent =>
    rw [exec_eq_complete, bodyOf, hdrParseBody_of_window s hsrc hlen, parseHeader_ok hhb hcons hok, run_bind_ok, complete]
    rfl
  case corrupt =>
    refine endsInFlight_of_body .hdrParse s .corruptHeader 0 ?_
    rw [bodyOf, hdrParseBody_of_window s hsrc hlen, parseHeader_corrupt s hb hhb hok (by tauto), run_bind_error]
  case lenBytes =>
    have hbyte := le32Words_byte hb 0 t (by rw [hhb, readList_length]; decide) ht
    rwa [Nat.mul_zero, Nat.zero_add] at hbyte
  case freqBytes =>
    have hbound := b.isLt
    have hbyte := le32Words_byte hb (b.toNat + 1) t (by rw [hhb, readList_length]; omega) ht
    rw [show 4 * (b.toNat + 1) + t = 4 + 4 * b.toNat + t by omega] at hbyte
    rw [headerFreq, symGet_tableOf, ← hbyte]
    simp [List.getD_eq_getElem?_getD, Nat.add_comm]

/-! ### RESET (70_reset_and_hazards.md R250, R251, R254) -/

theorem wordWritesDst_of_decode_ok (w : Word) (i : Instr) (h : decode w = .ok i) : wordWritesDst w = (writeSet i).dst := by
  rw [wordWritesDst, h]

theorem wordWritesDst_of_decode_error (w : Word) (e : DecodeError) (h : decode w = .error e) : wordWritesDst w = false := by
  rw [wordWritesDst, h]

/-- R251: a reset changes memory only where a command that writes it runs. -/
theorem resetEvent_mem_eq (s : State) (h : s.busy = false ∨ wordWritesDst s.cmd = false) : (resetEvent s).mem = s.mem := by
  rw [resetEvent_mem, if_neg]
  rcases h with h | h <;> simp [h]

/-- R254: outside the destination window memory is unchanged. -/
theorem resetEvent_sameOutside (s : State) (hm : Memory.wf s.mem = true) :
    sameOutside s.dstAddr.toNat s.dstCap.toNat s.mem (resetEvent s).mem := by
  rw [resetEvent_mem]
  split
  · exact read_freeFill_outside _ _ _ 0 _ hm
  · exact sameOutside_refl _ _ _

/-- R250: every register reads its reset value. -/
theorem regRead_resetEvent (s : State) (r : Reg) :
    regRead (resetEvent s) (regOffset r) = (if r = .id then 0x48554631 else 0, resetEvent s) := by
  rw [regRead_readable (resetEvent s) _ r (regAt_regOffset r) (.inl rfl)]
  have hreset : regValue (resetEvent s) r = regValue State.reset r := by cases r <;> rfl
  have hvalue : regValue State.reset r = if r = .id then 0x48554631 else 0 := by cases r <;> decide
  rw [hreset, hvalue]

/-- Settles O53: the RESET step is the reset event, whose registers are those of the reset state. -/
theorem resetGivesTheResetValues : Obligations.ResetGivesTheResetValues := by
  unfold Obligations.ResetGivesTheResetValues
  intro s rest hs
  have hstep : step s = .next (resetEvent { s with schedule := rest }) := by rw [step, nextStep, hs]; rfl
  refine ⟨_, hstep, rfl, regRead_resetEvent _, by simp [irq], fun b => ?tables, fun i => ?arena, fun hb => ?idle,
    fun i hd hi => ?noWindow, fun e hd => ?illegal, fun hm a ha => ?outside⟩
  case tables => rw [resetEvent_freq, resetEvent_code]; exact ⟨symGet_zeroFreq b, symGet_emptyCodes b⟩
  case arena => rw [resetEvent_node, nodeAt_emptyArena]
  case idle => exact resetEvent_mem_eq _ (.inl hb)
  case noWindow =>
    obtain ⟨-, -, -, -, -, -, hdst⟩ := writeSet_rows i
    exact resetEvent_mem_eq { s with schedule := rest } (.inr ((wordWritesDst_of_decode_ok s.cmd i hd).trans (hdst hi)))
  case illegal => exact resetEvent_mem_eq { s with schedule := rest } (.inr (wordWritesDst_of_decode_error s.cmd e hd))
  case outside => exact resetEvent_sameOutside { s with schedule := rest } hm a (by simpa [inDst, inRange] using ha)

/-! ### The first command after reset (R253) -/

/-- The windows of reset are empty and pass. -/
theorem windowsOk_issue_reset (v : Word) : windowsOk (issue State.reset v) := by
  refine windowsOk_of_srcLen_zero _ ?_ ?_ rfl
  · simp [srcInRange, State.reset]
  · simp [dstInRange, State.reset]

theorem symGet_reset_freq (b : Byte) : symGet State.reset.freq b = 0 := symGet_zeroFreq b

/-- The state right after reset with a command issued, and what it answers: the command's own first check decides. -/
theorem exec_after_reset (i : Instr) : ∃ t, exec i (issue State.reset (encode i)) = .next t ∧
    (i = .gencode ∨ i = .unpack → statusWord t = 0x00000604) ∧ (i = .pack → statusWord t = 0x00000704) ∧
    (i = .build → statusWord t = 0x00000504) ∧ (i = .compress ∨ i = .decompress ∨ i = .nop → statusWord t = 0x00000002) := by
  have hwin := windowsOk_issue_reset (encode i)
  obtain ⟨hgencode, hpack, hunpack, -⟩ := prerequisitesEndTheCommand (issue State.reset (encode i))
  obtain ⟨hcompress, hdecompress⟩ := emptyInputCompletesUnchanged (issue State.reset (encode i)) hwin.1 hwin.2.1 rfl
  cases i with
  | nop => exact ⟨_, nopCompletes _, by decide⟩
  | build => exact ⟨_, buildOfNoSymbolIsEmptyAlphabet _ symGet_reset_freq, by decide⟩
  | gencode => exact ⟨_, hgencode rfl, by decide⟩
  | pack => exact ⟨_, hpack hwin rfl, by decide⟩
  | unpack => exact ⟨_, hunpack hwin rfl, by decide⟩
  | compress => exact ⟨_, hcompress, by decide⟩
  | decompress => exact ⟨_, hdecompress, by decide⟩
  | clear | count | hdrWrite | hdrParse =>
    obtain ⟨t, ht⟩ := everyCommandCompletes _ (issue State.reset _) (tablesInv_of_invalid rfl rfl)
    exact ⟨t, ht, by simp⟩

/-- Settles O54: `withFetchWord` issues the word, and the next step runs the command over the reset state. -/
theorem firstCommandsAfterReset : Obligations.FirstCommandsAfterReset := by
  unfold Obligations.FirstCommandsAfterReset
  refine ⟨rfl, fun i => ?_⟩
  rw [step_withFetchWord]
  exact exec_after_reset i

end Sys2Proof.Machine
end

section
/-! PROOFS. The queue of the merge loop and one merge (42_tree_builder.md R143, R144, R146, R147), where the leaves stand (R141, R142), and the
weight of the root (R147). -/

namespace Sys2Proof.Machine

/-! ### The queue (R144) -/

theorem keyBelow_iff (ar : List Node) (i j : Nat) :
    keyBelow ar i j = true ↔ weightAt ar i < weightAt ar j ∨ (weightAt ar i = weightAt ar j ∧ i < j) := by
  simp [keyBelow]

/-- No index of the queue has a key below the argmin's. -/
theorem not_keyBelow_argminFrom (ar : List Node) (pq : List Nat) (i : Nat) :
    ∀ j ∈ i :: pq, ¬keyBelow ar j (argminFrom ar i pq) = true := by
  induction pq generalizing i with
  | nil =>
    intro j hj
    rw [List.mem_singleton] at hj
    rw [hj, argminFrom, keyBelow_iff]
    omega
  | cons k pq ih =>
    rw [argminFrom]
    have least := ih (if keyBelow ar k i then k else i)
    rw [List.forall_mem_cons] at least
    obtain ⟨hfirst, hrest⟩ := least
    generalize argminFrom ar (if keyBelow ar k i then k else i) pq = a at hfirst hrest ⊢
    rw [List.forall_mem_cons, List.forall_mem_cons]
    simp only [keyBelow_iff] at hfirst hrest ⊢
    split at hfirst
    · exact ⟨by omega, hfirst, hrest⟩
    · exact ⟨hfirst, by omega, hrest⟩

/-- R144: a queue that is not empty gives up the index of the smallest key, below every other one's. -/
theorem takeMin_least (ar : List Node) (pq : List Nat) (h : pq ≠ []) : ∃ a, takeMin ar pq = some (a, pq.erase a) ∧ a ∈ pq ∧
    ∀ j ∈ pq, j ≠ a → weightAt ar a < weightAt ar j ∨ (weightAt ar a = weightAt ar j ∧ a < j) := by
  cases pq with
  | nil => exact absurd rfl h
  | cons i pq =>
    refine ⟨argminFrom ar i pq, rfl, argminFrom_mem ar pq i, fun j hj hne => ?_⟩
    have hleast := not_keyBelow_argminFrom ar pq i j hj
    rw [keyBelow_iff] at hleast
    omega

/-- Settles O29: the keys are ordered by weight, then by index, so the smallest one is unique. -/
theorem queueGivesTheSmallestKeyFirst : Obligations.QueueGivesTheSmallestKeyFirst := by
  unfold Obligations.QueueGivesTheSmallestKeyFirst
  exact fun ar pq hne _ => takeMin_least ar pq hne

/-! ### A merge (R143, R146, R147) -/

/-- Settles O30: the two removals are the queue's smallest key, twice. -/
theorem mergeMakesTheFirstRemovedTheRightChild : Obligations.MergeMakesTheFirstRemovedTheRightChild := by
  unfold Obligations.MergeMakesTheFirstRemovedTheRightChild
  intro ar pq htwo hnodup hlen hbound
  obtain ⟨a, htake, ha, hleast⟩ := takeMin_least ar pq (by rintro rfl; simp at htwo)
  have hlen' : (pq.erase a).length = pq.length - 1 := List.length_erase_of_mem ha
  obtain ⟨b, htake', hb', hleast'⟩ := takeMin_least ar (pq.erase a) (by intro h; rw [h, List.length_nil] at hlen'; omega)
  have hmem (j : Nat) : j ∈ pq.erase a ↔ j ≠ a ∧ j ∈ pq := hnodup.mem_erase_iff
  obtain ⟨hba, hb⟩ := (hmem b).mp hb'
  have hmerge : mergeOnce ar pq = some (ar ++ [mergedNode ar a b], (pq.erase a).erase b ++ [ar.length]) := by
    rw [mergeOnce, htake]
    simp only [htake']
  have index (i : Nat) (hi : i ∈ pq) : (BitVec.ofNat 9 i).toNat = i := by
    rw [BitVec.toNat_ofNat, Nat.mod_eq_of_lt (by have := hbound i hi; omega)]
  refine ⟨a, b, _, _, _, ha, hb, hba.symm, hleast, fun j hj hja hjb => hleast' j ((hmem j).mpr ⟨hja, hj⟩) hjb, hmerge, index a ha,
    index b hb, fun hfit => ?_⟩
  rw [BitVec.toNat_ofNat, Nat.mod_eq_of_lt hfit]

/-! ### The tree of a frequency table (R141, R142, R147) -/

/-- Settles O27: the merge loop leaves the leaves it starts from where they stand. -/
theorem leavesStandInSymbolOrder : Obligations.LeavesStandInSymbolOrder := by
  unfold Obligations.LeavesStandInSymbolOrder
  intro f T hT
  obtain ⟨ar, U, hnode, hL, hlen, hnum, -, -, -, hleaf⟩ := treeOf_forest f T hT
  have hpresent : (presentSymbols f).length ≤ leafCount f := by rw [leafCount]; split <;> omega
  rw [hnode]
  refine ⟨fun k hk => ?_, fun hone => ?_, hnum⟩
  · rw [nodeAt_arenaOf ar (by omega), hleaf k (by omega), withDummy_realLeaves_getD_present f k hk, List.getD_eq_getElem _ _ hk]
  · rw [nodeAt_arenaOf ar (by omega), hleaf 1 (by omega), withDummy_realLeaves_getD_dummy f hone]

/-- Settles O31: each merge keeps the sum of the queued weights, and at the end the root alone is queued. -/
theorem rootWeightIsTheSumOfTheCounts : Obligations.RootWeightIsTheSumOfTheCounts := by
  unfold Obligations.RootWeightIsTheSumOfTheCounts
  intro f T hT
  obtain ⟨ar, U, hnode, hL, hlen, -, hroot, -, F, -⟩ := treeOf_forest f T hT
  have hweight : weightAt ar (2 * leafCount f - 2) = freqSum f := by simpa using F.weight
  rw [hnode, hroot, ← weightAt_eq_nodeAt ar (by omega), hweight]
  exact ⟨rfl, freqSum_lt f⟩

end Sys2Proof.Machine
end

section
/-! PROOFS. Where PACK stops (44_bit_packer.md R170), the length of a payload and of an archive (R174, 47_composite.md R202), and COMPRESS into
a buffer that holds the archive or does not (R200). -/

namespace Sys2Proof.Machine

/-! ### Where PACK stops (R170) -/

theorem readList_take (m : Memory) (a n i : Nat) (h : i ≤ n) : (Memory.readList m a n).take i = Memory.readList m a i := by
  simp [Memory.readList, ← List.map_take, List.take_range, h]

theorem srcBytes_getD (s : State) (i : Nat) (h : i < s.srcLen.toNat) : (srcBytes s).getD i 0 = Memory.read s.mem (s.srcAddr.toNat + i) := by
  rw [List.getD_eq_getElem _ _ (by rwa [srcBytes_length])]
  simp [srcBytes, Memory.readList]

/-- PACK where its checks pass and the packer ends with an in-flight error. -/
theorem exec_pack_of_packBits (s : State) (hwin : windowsOk s) (hvalid : s.codesValid = true) (e : ErrCode) (a : Nat)
    (h : packBits s.memMap s.code s.mem s.srcAddr.toNat s.srcLen.toNat s.dstAddr.toNat s.dstCap.toNat = .error (.inflight e a)) :
    endsInFlight .pack s e a := by
  refine endsInFlight_of_body .pack s e a ?_
  rw [bodyOf, packBody, checkWindows_ok s hwin, run_bind_ok, raiseIf_flag hvalid, run_bind_ok, h, run_bind_error]

/-- Settles O36: the packer stops at the first byte without a code, or at the first output byte past the capacity. -/
theorem packStopsAtNoCodeOrFullDestination : Obligations.PackStopsAtNoCodeOrFullDestination := by
  unfold Obligations.PackStopsAtNoCodeOrFullDestination
  intro s hwin hvalid
  have hdis := src_outside_dst s hwin
  refine ⟨fun i hi hsrc hcode hnone hfit hdst => ?noCode, fun hsrc hcode hfull hdst => ?full, fun n hn hsrc hcode hfull hdst => ?early⟩
  case noCode =>
    rw [srcBytes_take s i hi.le] at hcode hfit hdst
    rw [srcBytes_getD s i hi] at hnone
    exact exec_pack_of_packBits s hwin hvalid _ _ (packBits_noCode _ _ _ _ _ _ _ i hi hsrc hnone hcode hfit hdst hdis)
  case full =>
    exact exec_pack_of_packBits s hwin hvalid _ _ (packBits_stops _ _ _ _ _ _ _ _ s.srcLen.toNat _ le_rfl hsrc hcode
      (emitStops_full _ _ _) (.inr ⟨rfl, hfull⟩) le_rfl hdst hdis)
  case early =>
    rw [srcBytes_take s n hn] at hcode hfull
    exact exec_pack_of_packBits s hwin hvalid _ _ (packBits_stops _ _ _ _ _ _ _ _ n _ hn hsrc hcode
      (emitStops_full _ _ _) (.inl hfull) le_rfl hdst fun i hi => hdis i (hi.trans_le hn))

/-! ### The length of a payload and of an archive (R174, R202) -/

/-- Settles O37: the counts of a byte sequence ask for one code for each of its bytes. -/
theorem payloadLengthIsTheEncodedSize : Obligations.PayloadLengthIsTheEncodedSize := by
  unfold Obligations.PayloadLengthIsTheEncodedSize
  intro bs T ls hlen hT hls
  have hcoded := encodedBits_eq_codedBits hT hls
  exact ⟨isSome_code_of_mem hlen hT hls, codeBits_codesOf_length hlen hT hls, hcoded, hcoded ▸ codedBits_lt hT hls⟩

/-- R131: a symbol with a count occurs. -/
theorem mem_of_symGet_histogram_ne_zero (bs : List Byte) (hlen : bs.length < 2 ^ 32) (b : Byte) (h : symGet (histogram bs) b ≠ 0) :
    b ∈ bs := by
  by_contra hb
  have hcount := symGet_histogram bs hlen b
  rw [List.count_eq_zero_of_not_mem hb] at hcount
  exact h (BitVec.eq_of_toNat_eq hcount)

/-- R142: one repeated byte makes a tree of two leaves, the byte's and the dummy. -/
theorem leafCount_of_one_byte (bs : List Byte) (hlen : bs.length < 2 ^ 32) (b : Byte) (hb : b ∈ bs) (hall : ∀ c ∈ bs, c = b) :
    leafCount (histogram bs) = 2 := by
  have hmem (c : Byte) : c ∈ presentSymbols (histogram bs) ↔ c ∈ [b] := by
    rw [mem_presentSymbols, List.mem_singleton]
    refine ⟨fun h => hall c (mem_of_symGet_histogram_ne_zero bs hlen c h), ?_⟩
    rintro rfl
    exact symGet_histogram_ne_zero bs hlen c hb
  have hperm : (presentSymbols (histogram bs)).Perm [b] :=
    (List.perm_ext_iff_of_nodup (presentSymbols_nodup _) (List.nodup_singleton b)).mpr hmem
  have hone : (presentSymbols (histogram bs)).length = 1 := hperm.length_eq
  rw [leafCount, if_pos hone]

/-- R202: one repeated byte is coded in one bit each time. -/
theorem codeBits_length_of_one_byte (bs : List Byte) (hlen : bs.length < 2 ^ 32) (T : Tree) (ls : List LeafPath)
    (hT : treeOf (histogram bs) = some T) (hls : leafPaths T.node T.root = .ok ls) (hall : ∀ b ∈ bs, ∀ c ∈ bs, b = c) :
    (codeBits (codesOf ls) bs).length = bs.length := by
  have hone : ∀ b ∈ bs, ((symGet (codesOf ls) b).getD []).length = 1 := by
    intro b hb
    obtain ⟨p, hp⟩ := Option.isSome_iff_exists.mp (isSome_code_of_mem hlen hT hls b hb)
    obtain ⟨l, hl, -, -, rfl⟩ := (symGet_codesOf_listed hT hls b p).mp hp
    obtain ⟨hpos, hle, -⟩ := listed_path_length hT hls hl
    obtain ⟨-, -, -, -, -, hnum, -⟩ := treeOf_forest _ T hT
    rw [leafCount_of_one_byte bs hlen b hb fun c hc => hall c hc b hb] at hnum
    rw [hp, Option.getD_some]
    omega
  rw [codeBits_length, List.map_congr_left hone, List.map_const', List.sum_replicate, smul_eq_mul, Nat.mul_one]

/-- Settles O45: an archive is its header and its payload, and the tree of one repeated byte has depth 1. -/
theorem archiveLengthLaws : Obligations.ArchiveLengthLaws := by
  unfold Obligations.ArchiveLengthLaws
  intro bs hne hlen
  obtain ⟨T, ls, hT, hls⟩ := exists_tree_of_bytes bs hne hlen
  rw [archive_length_of_tree hT hls hne]
  refine ⟨Nat.le_add_right _ _, ?_, fun hall => ?_⟩
  · rw [archive_of_tree hT hls hne, headerLen_headerBytes, BitVec.toNat_ofNat, Nat.mod_eq_of_lt hlen]
  · rw [codeBits_length_of_one_byte bs hlen T ls hT hls hall]

/-! ### COMPRESS (R200) -/

theorem compressBody_of_window (s : State) (hwin : windowsOk s) (hne : s.srcLen ≠ 0) : compressBody s = compressNonempty s := by
  rw [compressBody, checkWindows_ok s hwin, run_bind_ok, if_neg hne]

/-- The bits counted by GENCODE are those of the payload, so BITCNT holds their number. -/
theorem compressed_bitCnt (s : State) (T : Tree) (ls : List LeafPath) (hT : treeOf (histogram (srcBytes s)) = some T)
    (hls : leafPaths T.node T.root = .ok ls) : (compressed s T ls).bitCnt.toNat = (codeBits (codesOf ls) (srcBytes s)).length := by
  have hbits := codeBits_codesOf_length (srcBytes_length_lt s) hT hls
  have hlt : encodedBits ls < 2 ^ 48 := encodedBits_eq_codedBits hT hls ▸ codedBits_lt hT hls
  have hcnt : (compressed s T ls).bitCnt = BitVec.ofNat 48 (encodedBits ls) := rfl
  rw [hcnt, BitVec.toNat_ofNat, Nat.mod_eq_of_lt hlt, hbits]

/-- Settles O44: COMPRESS leaves the compressed state, and the archive's length fits OUT_LEN since the window holds it. -/
theorem compressCompletesWithTheArchive : Obligations.CompressCompletesWithTheArchive := by
  unfold Obligations.CompressCompletesWithTheArchive
  intro s hwin hne hsrc hfit hdst
  obtain ⟨T, ls, hT, hls⟩ := exists_tree_of_bytes (srcBytes s) (mt (srcBytes_eq_nil s).mp hne) (srcBytes_length_lt s)
  have hexec : exec .compress s = .next (recordDone (compressed s T ls) (archive (srcBytes s)).length) := by
    rw [exec_eq_complete, bodyOf, compressBody_ok hsrc hT hls hwin hne hfit hdst, complete]
  refine ⟨T, ls, _, hT, hls, hexec, ?state, ?outLen, ?bitCnt, fun hm => ?memory⟩
  case state => simp only [recordDone, compressed, tabled, gencoded, installTree, counted, clearValid]
  case outLen => rw [recordDone_outLen, BitVec.toNat_ofNat, Nat.mod_eq_of_lt (hfit.trans_lt s.dstCap.isLt)]
  case bitCnt => rw [recordDone_bitCnt, compressed_bitCnt s T ls hT hls]
  case memory => rw [recordDone_mem, compressed]; exact storedAt_writeList s.mem _ _ hm

/-- Settles O46: the capacity test compares the archive's length with DST_CAP. -/
theorem compressIntoASmallBufferOverflows : Obligations.CompressIntoASmallBufferOverflows := by
  unfold Obligations.CompressIntoASmallBufferOverflows
  intro s hwin hne hsrc hsmall
  have hbytes : srcBytes s ≠ [] := mt (srcBytes_eq_nil s).mp hne
  obtain ⟨T, ls, hT, hls⟩ := exists_tree_of_bytes (srcBytes s) hbytes (srcBytes_length_lt s)
  rw [archive_length_of_tree hT hls hbytes, codeBits_codesOf_length (srcBytes_length_lt s) hT hls] at hsmall
  refine ⟨endsInFlight_of_body .compress s .dstOverflow 0 ?_, by simp [writeSet], by simp [writeSet]⟩
  rw [bodyOf, compressBody_of_window s hwin hne, compressNonempty_tabled hsrc hT hls, raiseIf_of hsmall, run_bind_error]

end Sys2Proof.Machine
end

section
/-! PROOFS. UNPACK and DECOMPRESS (46_bit_unpacker.md R190 to R193, 47_composite.md R203, R204): the decoder along the leaves the walk lists,
where a payload goes along whole paths, ends inside one, or meets a byte that does not respond, and the checks before it. -/

namespace Sys2Proof.Machine

/-! ### The decoder along listed leaves (R190 to R193) -/

/-- What is left of a path after a proper beginning of it. -/
theorem exists_rest_of_startsWith {path front : List Bool} (h : startsWith path front) (hne : front ≠ path) :
    ∃ rest, path = front ++ rest ∧ rest ≠ [] := by
  obtain ⟨rest, rfl⟩ := h
  exact ⟨rest, rfl, fun hnil => hne (by rw [hnil, List.append_nil])⟩

section Listed

variable {f : FreqTable} {T : Tree} {ls xs : List LeafPath} {mm : List Region} {m : Memory} {sa sl da n : Nat}
  (hT : treeOf f = some T) (hls : leafPaths T.node T.root = .ok ls) (hxs : ∀ x ∈ xs, x ∈ ls)
include hT hls hxs

/-- R193: a payload that ends inside a path. -/
theorem decodePayload_listed_truncated {l : LeafPath} {front : List Bool} (hl : l ∈ ls) (hstarts : startsWith l.path front)
    (hne : front ≠ l.path) (hbits : bytesBits (Memory.readList m sa sl) = (xs.flatMap fun x => x.path) ++ front)
    (hn : xs.length < n) (hsrc : ∀ q < sl, memOK mm (sa + q) = true) (hdst : ∀ i < xs.length, memOK mm (da + i) = true)
    (hdis : ∀ q < sl, ¬(da ≤ sa + q ∧ sa + q < da + n)) :
    decodePayload mm T.node T.root.toNat m sa sl da n = .error (.inflight .truncatedPayload 0) := by
  obtain ⟨rest, hpath, hrest⟩ := exists_rest_of_startsWith hstarts hne
  exact decodePayload_truncated mm T.node _ m sa sl da n xs l.sym front rest (fun x hx => listed_reaches hT hls (hxs x hx)) hrest
    (hpath ▸ listed_reaches hT hls hl) hbits hn hsrc hdst hdis

/-- R74: payload byte `k` is needed and does not respond. -/
theorem decodePayload_listed_srcBad {l : LeafPath} {front : List Bool} {k : Nat} (hl : l ∈ ls) (hstarts : startsWith l.path front)
    (hne : front ≠ l.path) (hk : k < sl) (hbits : bytesBits (Memory.readList m sa k) = (xs.flatMap fun x => x.path) ++ front)
    (hn : xs.length < n) (hsrc : ∀ q < k, memOK mm (sa + q) = true) (hbad : memOK mm (sa + k) = false)
    (hdst : ∀ i < xs.length, memOK mm (da + i) = true) (hdis : ∀ q < sl, ¬(da ≤ sa + q ∧ sa + q < da + n)) :
    decodePayload mm T.node T.root.toNat m sa sl da n = .error (.inflight .busError (sa + k)) := by
  obtain ⟨rest, hpath, hrest⟩ := exists_rest_of_startsWith hstarts hne
  exact decodePayload_srcBad mm T.node _ m sa sl da n k xs l.sym front rest (fun x hx => listed_reaches hT hls (hxs x hx)) hrest
    (hpath ▸ listed_reaches hT hls hl) hk hbits hn hsrc hbad hdst hdis

/-- R74: the symbol of the last of the paths is emitted to a byte that does not respond. -/
theorem decodePayload_listed_dstBad {i : Nat} {tail : List Bool} (hlen : xs.length = i + 1)
    (hbits : bytesBits (Memory.readList m sa sl) = (xs.flatMap fun x => x.path) ++ tail) (hn : i < n)
    (hsrc : ∀ q < ceilDiv (xs.flatMap fun x => x.path).length 8, memOK mm (sa + q) = true)
    (hdst : ∀ k < i, memOK mm (da + k) = true) (hbad : memOK mm (da + i) = false)
    (hdis : ∀ q < sl, ¬(da ≤ sa + q ∧ sa + q < da + n)) :
    decodePayload mm T.node T.root.toNat m sa sl da n = .error (.inflight .busError (da + i)) := by
  rcases List.eq_nil_or_concat' xs with rfl | ⟨ys, x, rfl⟩
  · exact absurd hlen (Nat.succ_ne_zero i).symm
  · rw [List.length_append, List.length_singleton] at hlen
    obtain rfl : ys.length = i := Nat.succ.inj hlen
    exact decodePayload_dstBad mm T.node _ m sa sl da n ys x tail (fun y hy => listed_reaches hT hls (hxs y hy)) hbits hn hsrc hdst hbad
      hdis

end Listed

/-! ### UNPACK (R190 to R193) -/

/-- Where the first bytes of the destination window are written, no source byte lies among them. -/
theorem src_outside_output (s : State) (hwin : windowsOk s) (n : Nat) (hn : n ≤ s.dstCap.toNat) :
    ∀ q < s.srcLen.toNat, ¬(s.dstAddr.toNat ≤ s.srcAddr.toNat + q ∧ s.srcAddr.toNat + q < s.dstAddr.toNat + n) := by
  intro q hq
  have := src_outside_dst s hwin q hq
  omega

/-- What UNPACK leaves before completion, where it emits the leaves `xs`. -/
def unpacked (s : State) (xs : List LeafPath) : State :=
  { s with
    mem := Memory.writeList s.mem s.dstAddr.toNat (xs.map fun x => x.sym)
    bitCnt := BitVec.ofNat 48 (xs.flatMap fun x => x.path).length }

/-- The decoder's run in UNPACK. -/
def unpackRun (s : State) : Run Cursor :=
  decodePayload s.memMap s.node s.root.toNat s.mem s.srcAddr.toNat s.srcLen.toNat s.dstAddr.toNat s.origLen.toNat

theorem unpackBody_of_checks (s : State) (hwin : windowsOk s) (hvalid : s.treeValid = true) (hfit : s.origLen.toNat ≤ s.dstCap.toNat) :
    unpackBody s = (do
      let c ← unpackRun s
      .ok (c.cnt, { s with mem := c.mem, bitCnt := BitVec.ofNat 48 c.j })) := by
  rw [unpackBody, checkWindows_ok s hwin, run_bind_ok, raiseIf_flag hvalid, run_bind_ok, raiseIf_of_not (Nat.not_lt_of_ge hfit),
    run_bind_ok, unpackRun]

theorem exec_unpack_of_run (s : State) (hwin : windowsOk s) (hvalid : s.treeValid = true) (hfit : s.origLen.toNat ≤ s.dstCap.toNat)
    (e : ErrCode) (a : Nat) (h : unpackRun s = .error (.inflight e a)) : endsInFlight .unpack s e a := by
  refine endsInFlight_of_body .unpack s e a ?_
  rw [bodyOf, unpackBody_of_checks s hwin hvalid hfit, h, run_bind_error]

/-- R193: a payload's paths have at most its bits. -/
theorem paths_length_le {bs : List Byte} {paths tail : List Bool} (h : bytesBits bs = paths ++ tail) : paths.length ≤ 8 * bs.length := by
  rw [← bytesBits_length, h, List.length_append]
  exact Nat.le_add_right _ _

/-- Settles O41: the decoder goes along the paths of the tree's leaves and stops when ORIG_LEN of them are emitted. -/
theorem unpackCompletesAlongTheLeafPaths : Obligations.UnpackCompletesAlongTheLeafPaths := by
  unfold Obligations.UnpackCompletesAlongTheLeafPaths
  intro s ls xs tail hwin hvalid hT hls hxs hcount hfit hbits hsrc hdst
  obtain ⟨c, hc, hcnt, hj, hmem⟩ := decodePayload_ok s.memMap s.node s.root.toNat s.mem s.srcAddr.toNat s.srcLen.toNat
    s.dstAddr.toNat xs tail (fun x hx => listed_reaches (T := treeRegs s) hT hls (hxs x hx)) hbits hsrc (hcount ▸ hdst)
    (src_outside_output s hwin _ (hcount ▸ hfit))
  have hbody : unpackBody s = .ok (xs.length, unpacked s xs) := by
    rw [unpackBody_of_checks s hwin hvalid hfit, unpackRun, ← hcount, hc, run_bind_ok, hcnt, hj, hmem, unpacked]
  have hexec : exec .unpack s = .next (recordDone (unpacked s xs) xs.length) := by rw [exec_eq_complete, bodyOf, hbody, complete]
  have hlen : BitVec.ofNat 32 xs.length = s.origLen := by rw [hcount, BitVec.ofNat_toNat, BitVec.setWidth_eq]
  have hpaths := paths_length_le hbits
  rw [srcBytes_length] at hpaths
  have hbitCnt : (unpacked s xs).bitCnt.toNat = (xs.flatMap fun x => x.path).length := by
    have hsize := s.srcLen.isLt
    rw [unpacked, BitVec.toNat_ofNat, Nat.mod_eq_of_lt (by omega)]
  refine ⟨_, hexec, ?state, ?bitCnt, ?bound, fun hm => ?memory⟩
  case state => simp only [recordDone, unpacked, hlen]
  case bitCnt => rw [recordDone_bitCnt, hbitCnt]
  case bound => rw [recordDone_bitCnt, hbitCnt]; exact hpaths
  case memory => rw [recordDone_mem, unpacked]; exact storedAt_writeList s.mem _ _ hm

/-! ### DECOMPRESS before it decodes (R203, R204) -/

theorem decompressBody_of_window (s : State) (hwin : windowsOk s) (hlen : 1028 ≤ s.srcLen.toNat) :
    decompressBody s = decompressNonempty s := by
  have hne : s.srcLen ≠ 0 := by rintro h; rw [h] at hlen; exact absurd hlen (by decide)
  rw [decompressBody, checkWindows_ok s hwin, run_bind_ok, if_neg hne, Config.hdrBytes, raiseIf_of_not (Nat.not_lt_of_ge hlen),
    run_bind_ok]

/-- A table whose counts do not sum to 0 has a tree, whose leaves the walk lists. -/
theorem exists_tree_of_freqSum (f : FreqTable) (h : freqSum f ≠ 0) :
    ∃ T ls, treeOf f = some T ∧ leafPaths T.node T.root = .ok ls := by
  obtain ⟨b, hb⟩ : ∃ b, symGet f b ≠ 0 := by
    by_contra hnone
    push Not at hnone
    exact h (by simp [freqSum_eq, hnone])
  obtain ⟨T, hT⟩ := exists_treeOf_of_present f b hb
  obtain ⟨ls, hls, -⟩ := leafPaths_of_treeOf f T hT
  exact ⟨T, ls, hT, hls⟩

/-- Settles O48: the checks of the body, in their order. -/
theorem decompressChecksBeforeDecoding : Obligations.DecompressChecksBeforeDecoding := by
  unfold Obligations.DecompressChecksBeforeDecoding
  intro s hb hwin hlen hok hhb
  refine ⟨fun hbad => ?corrupt, fun hne hsum => ?consistent⟩
  case corrupt =>
    refine endsInFlight_of_body .decompress s .corruptHeader 0 ?_
    rw [bodyOf, decompressBody_of_window s hwin hlen, decompressNonempty, parseHeader_corrupt s hb hhb hok hbad, run_bind_error]
  case consistent =>
    have hsum0 : freqSum (headerFreq hb) ≠ 0 := fun h => hne (BitVec.eq_of_toNat_eq (by rw [← hsum, h]; rfl))
    obtain ⟨T, ls, hT, hls⟩ := exists_tree_of_freqSum _ hsum0
    have hbody := (decompressBody_of_window s hwin hlen).trans (decompressNonempty_parsed hhb ⟨hne, hsum⟩ hT hls hok)
    refine ⟨T, ls, hT, hls, fun hshort => ?capacity, fun hpayload hfull => ?room⟩
    case capacity =>
      refine endsInFlight_of_body .decompress s .truncatedPayload 0 ?_
      rw [bodyOf, hbody, raiseIf_of hshort, run_bind_error]
    case room =>
      refine endsInFlight_of_body .decompress s .dstOverflow 0 ?_
      rw [bodyOf, hbody, raiseIf_of_not (Nat.not_lt_of_ge hpayload), run_bind_ok, raiseIf_of hfull, run_bind_error]

/-! ### DECOMPRESS while it decodes (R203) -/

/-- The decoder's run in DECOMPRESS, where `hb` is the header read and `T` the rebuilt tree. -/
def decompressRun (s : State) (hb : List Byte) (T : Tree) : Run Cursor :=
  decodePayload s.memMap T.node T.root.toNat s.mem (s.srcAddr.toNat + 1028) (s.srcLen.toNat - 1028) s.dstAddr.toNat
    (headerLen hb).toNat

/-- The payload begins after the header, and no byte of it lies among the bytes emitted. -/
theorem payload_outside_output (s : State) (hwin : windowsOk s) (n : Nat) (hn : n ≤ s.dstCap.toNat) :
    ∀ q < s.srcLen.toNat - 1028,
      ¬(s.dstAddr.toNat ≤ s.srcAddr.toNat + 1028 + q ∧ s.srcAddr.toNat + 1028 + q < s.dstAddr.toNat + n) := by
  intro q hq
  have := src_outside_output s hwin n hn (1028 + q) (by omega)
  omega

section Header

variable {s : State} {hb : List Byte} {T : Tree} {ls xs : List LeafPath} (hwin : windowsOk s) (hlen : 1028 ≤ s.srcLen.toNat)
  (hhb : hb = Memory.readList s.mem s.srcAddr.toNat 1028)
  (hcons : headerLen hb ≠ 0 ∧ freqSum (headerFreq hb) = (headerLen hb).toNat) (hT : treeOf (headerFreq hb) = some T)
  (hls : leafPaths T.node T.root = .ok ls) (hpayload : encodedBits ls ≤ 8 * (s.srcLen.toNat - 1028))
  (hfit : (headerLen hb).toNat ≤ s.dstCap.toNat)
include hwin hlen hhb hcons hT hls hpayload hfit

/-- An in-flight error of the decoder ends DECOMPRESS, where every check before it passes. -/
theorem exec_decompress_of_run (hok : allOK s s.srcAddr.toNat 1028) (e : ErrCode) (a : Nat)
    (h : decompressRun s hb T = .error (.inflight e a)) : endsInFlight .decompress s e a := by
  rw [decompressRun] at h
  refine endsInFlight_of_body .decompress s e a ?_
  rw [bodyOf, decompressBody_of_window s hwin hlen, decompressNonempty_parsed hhb hcons hT hls hok,
    raiseIf_of_not (Nat.not_lt_of_ge hpayload), run_bind_ok, raiseIf_of_not (Nat.not_lt_of_ge hfit), run_bind_ok, h, run_bind_error]

variable (hxs : ∀ x ∈ xs, x ∈ ls)
include hxs

/-- R193: DECOMPRESS of a payload that ends inside a path. -/
theorem exec_decompress_truncated {l : LeafPath} {front : List Bool} (hl : l ∈ ls) (hstarts : startsWith l.path front)
    (hne : front ≠ l.path) (hcount : xs.length < (headerLen hb).toNat)
    (hbits : bytesBits ((srcBytes s).drop 1028) = (xs.flatMap fun x => x.path) ++ front)
    (hsrc : allOK s s.srcAddr.toNat s.srcLen.toNat) (hdst : allOK s s.dstAddr.toNat xs.length) :
    endsInFlight .decompress s .truncatedPayload 0 := by
  rw [srcBytes_drop] at hbits
  refine exec_decompress_of_run hwin hlen hhb hcons hT hls hpayload hfit (fun i hi => hsrc i (by omega)) _ _ ?_
  exact decodePayload_listed_truncated hT hls hxs hl hstarts hne hbits hcount
    (fun q hq => by rw [Nat.add_assoc]; exact hsrc _ (by omega)) hdst (payload_outside_output s hwin _ hfit)

/-- R74: DECOMPRESS, where payload byte `k` is needed and does not respond. -/
theorem exec_decompress_srcBad {l : LeafPath} {front : List Bool} {k : Nat} (hl : l ∈ ls) (hstarts : startsWith l.path front)
    (hne : front ≠ l.path) (hcount : xs.length < (headerLen hb).toNat)
    (hbits : bytesBits (((srcBytes s).drop 1028).take k) = (xs.flatMap fun x => x.path) ++ front)
    (hk : 1028 + k < s.srcLen.toNat) (hbad : firstBad s s.srcAddr.toNat (1028 + k)) (hdst : allOK s s.dstAddr.toNat xs.length) :
    endsInFlight .decompress s .busError (s.srcAddr.toNat + (1028 + k)) := by
  obtain ⟨hok, hbad⟩ := hbad
  rw [srcBytes_drop, readList_take _ _ _ _ (by omega)] at hbits
  rw [← Nat.add_assoc] at hbad ⊢
  refine exec_decompress_of_run hwin hlen hhb hcons hT hls hpayload hfit (fun i hi => hok i (by omega)) _ _ ?_
  exact decodePayload_listed_srcBad hT hls hxs hl hstarts hne (by omega) hbits hcount
    (fun q hq => by rw [Nat.add_assoc]; exact hok _ (by omega)) hbad hdst (payload_outside_output s hwin _ hfit)

/-- R74: DECOMPRESS, where symbol `i` is emitted to a byte that does not respond. -/
theorem exec_decompress_dstBad {i : Nat} {tail : List Bool} (hcount : xs.length = i + 1) (hi : i < (headerLen hb).toNat)
    (hbits : bytesBits ((srcBytes s).drop 1028) = (xs.flatMap fun x => x.path) ++ tail)
    (hsrc : allOK s s.srcAddr.toNat (1028 + ceilDiv (xs.flatMap fun x => x.path).length 8)) (hbad : firstBad s s.dstAddr.toNat i) :
    endsInFlight .decompress s .busError (s.dstAddr.toNat + i) := by
  obtain ⟨hok, hbad⟩ := hbad
  rw [srcBytes_drop] at hbits
  refine exec_decompress_of_run hwin hlen hhb hcons hT hls hpayload hfit (fun k hk => hsrc k (by omega)) _ _ ?_
  exact decodePayload_listed_dstBad hT hls hxs hcount hbits hi (fun q hq => by rw [Nat.add_assoc]; exact hsrc _ (by omega)) hok hbad
    (payload_outside_output s hwin _ hfit)

end Header

/-- Settles O42: in both commands the decoder runs out of payload bits inside a path. -/
theorem unpackOfAShortPayloadIsTruncated : Obligations.UnpackOfAShortPayloadIsTruncated := by
  unfold Obligations.UnpackOfAShortPayloadIsTruncated
  intro s ls xs l tail
  refine ⟨fun hwin hvalid hT hls hxs hcount hfit hbits hl hstarts hne hsrc hdst => ?unpack,
    fun hb T hwin hlen hhb hn hsum hT hls hpayload hfit hxs hcount hbits hl hstarts hne hsrc hdst => ?decompress⟩
  case unpack =>
    exact exec_unpack_of_run s hwin hvalid hfit _ _ (decodePayload_listed_truncated (T := treeRegs s) hT hls hxs hl hstarts hne hbits
      hcount hsrc hdst (src_outside_output s hwin _ hfit))
  case decompress =>
    exact exec_decompress_truncated hwin hlen hhb ⟨hn, hsum⟩ hT hls hpayload hfit hxs hl hstarts hne hcount hbits hsrc hdst

/-- Settles O47: DECOMPRESS leaves the decompressed state, and the payload's bits fit BITCNT since the window holds them. -/
theorem decompressCompletesAlongTheLeafPaths : Obligations.DecompressCompletesAlongTheLeafPaths := by
  unfold Obligations.DecompressCompletesAlongTheLeafPaths
  intro s hb T ls xs tail hwin hlen hhb hn hsum hT hls hpayload hfit hxs hcount hbits hsrc hdst
  have hexec : exec .decompress s = .next (recordDone (decompressed s hb T xs) xs.length) := by
    rw [exec_eq_complete, bodyOf, decompressBody_ok hhb ⟨hn, hsum⟩ hT hls xs tail hwin hlen hpayload hfit hxs hcount hbits hsrc hdst,
      complete]
  have hcnt : BitVec.ofNat 32 xs.length = headerLen hb := by rw [hcount, BitVec.ofNat_toNat, BitVec.setWidth_eq]
  refine ⟨_, hexec, ?state, ?bitCnt, fun hm => ?memory⟩
  case state => simp only [recordDone, decompressed, installTree, parsed, clearValid, hcnt]
  case bitCnt =>
    have hpaths := paths_length_le hbits
    rw [List.length_drop, srcBytes_length] at hpaths
    have hsize := s.srcLen.isLt
    rw [recordDone_bitCnt, decompressed, BitVec.toNat_ofNat, Nat.mod_eq_of_lt (by omega)]
  case memory => rw [recordDone_mem, decompressed]; exact storedAt_writeList s.mem _ _ hm

end Sys2Proof.Machine
end

section
/-! PROOFS. BUS_ERROR at the first byte a command reaches that does not respond (20_memory.md R74, 60_exceptions.md R221 item 6, R224): one
lemma for each kind of access, and the obligation assembled from them. -/

namespace Sys2Proof.Machine

/-! ### The runs of accesses a command makes in order -/

/-- The counting pass of COUNT and COMPRESS, where source byte `i` is the first that does not respond. -/
theorem countFreq_busError (s : State) (i : Nat) (hi : i < s.srcLen.toNat) (hbad : firstBad s s.srcAddr.toNat i) :
    countFreq s = .error (.inflight .busError (s.srcAddr.toNat + i)) := by
  rw [countFreq, readBytes_error _ _ _ _ i hi hbad.1 hbad.2, run_bind_error]

/-- ParseHeader, where header byte `i` is the first that does not respond. -/
theorem parseHeader_busError (s : State) (i : Nat) (hi : i < 1028) (hbad : firstBad s s.srcAddr.toNat i) :
    parseHeader s = .error (.inflight .busError (s.srcAddr.toNat + i)) := by
  rw [parseHeader, Config.hdrBytes, readBytes_error _ _ _ _ i hi hbad.1 hbad.2, run_bind_error]

/-- WriteHeader, where destination byte `i` is the first that does not respond. -/
theorem writeHeader_busError (s : State) (i : Nat) (hi : i < 1028) (hbad : firstBad s s.dstAddr.toNat i) :
    writeHeader s = .error (.inflight .busError (s.dstAddr.toNat + i)) :=
  writeBytes_error _ _ _ _ i (by rwa [headerBytes_length]) hbad.1 hbad.2

section FirstBad

variable (s : State) (i : Nat)

theorem exec_count_busError (hwin : srcInRange s) (hi : i < s.srcLen.toNat) (hbad : firstBad s s.srcAddr.toNat i) :
    endsInFlight .count s .busError (s.srcAddr.toNat + i) := by
  refine endsInFlight_of_body .count s _ _ ?_
  rw [bodyOf, countBody, checkSrcRange_ok s hwin, run_bind_ok, countFreq_busError s i hi hbad, run_bind_error]

theorem exec_hdrParse_busError (hwin : srcInRange s) (hlen : 1028 ≤ s.srcLen.toNat) (hi : i < 1028)
    (hbad : firstBad s s.srcAddr.toNat i) : endsInFlight .hdrParse s .busError (s.srcAddr.toNat + i) := by
  refine endsInFlight_of_body .hdrParse s _ _ ?_
  rw [bodyOf, hdrParseBody_of_window s hwin hlen, parseHeader_busError s i hi hbad, run_bind_error]

theorem exec_decompress_headerBad (hwin : windowsOk s) (hlen : 1028 ≤ s.srcLen.toNat) (hi : i < 1028)
    (hbad : firstBad s s.srcAddr.toNat i) : endsInFlight .decompress s .busError (s.srcAddr.toNat + i) := by
  refine endsInFlight_of_body .decompress s _ _ ?_
  rw [bodyOf, decompressBody_of_window s hwin hlen, decompressNonempty, parseHeader_busError s i hi hbad, run_bind_error]

theorem exec_hdrWrite_busError (hwin : dstInRange s) (hcap : 1028 ≤ s.dstCap.toNat) (hi : i < 1028)
    (hbad : firstBad s s.dstAddr.toNat i) : endsInFlight .hdrWrite s .busError (s.dstAddr.toNat + i) := by
  refine endsInFlight_of_body .hdrWrite s _ _ ?_
  rw [bodyOf, hdrWriteBody, checkDstRange_ok s hwin, run_bind_ok, Config.hdrBytes, raiseIf_of_not (Nat.not_lt_of_ge hcap), run_bind_ok,
    writeHeader_busError s i hi hbad, run_bind_error]

/-! ### COMPRESS -/

theorem exec_compress_srcBad (hwin : windowsOk s) (hi : i < s.srcLen.toNat) (hbad : firstBad s s.srcAddr.toNat i) :
    endsInFlight .compress s .busError (s.srcAddr.toNat + i) := by
  have hne : s.srcLen ≠ 0 := by rintro h; rw [h] at hi; exact absurd hi (Nat.not_lt_zero i)
  refine endsInFlight_of_body .compress s _ _ ?_
  rw [bodyOf, compressBody_of_window s hwin hne, compressNonempty, countFreq_busError s i hi hbad, run_bind_error]

/-- Where the windows pass and DST_CAP holds a header, storing one leaves the source bytes as they were. -/
theorem readList_src_after_header (n : Word) (f : FreqTable) (hwin : windowsOk s) (hcap : 1028 ≤ s.dstCap.toNat) :
    Memory.readList (Memory.writeList s.mem s.dstAddr.toNat (headerBytes n f)) s.srcAddr.toNat s.srcLen.toNat = srcBytes s := by
  refine readList_writeList_outside _ _ _ _ _ fun q hq => ?_
  have := src_outside_output s hwin 1028 hcap q hq
  rw [headerBytes_length]
  omega

/-- The payload of COMPRESS, where its byte `o` is the first of the destination that does not respond. -/
theorem packBits_compress_dstBad (T : Tree) (ls : List LeafPath) (o : Nat) (hT : treeOf (histogram (srcBytes s)) = some T)
    (hls : leafPaths T.node T.root = .ok ls) (hwin : windowsOk s) (hsrc : allOK s s.srcAddr.toNat s.srcLen.toNat)
    (hfit : 1028 + ceilDiv (codeBits (codesOf ls) (srcBytes s)).length 8 ≤ s.dstCap.toNat)
    (ho : o < ceilDiv (codeBits (codesOf ls) (srcBytes s)).length 8) (hbad : firstBad s s.dstAddr.toNat (1028 + o)) (n : Word)
    (f : FreqTable) :
    packBits s.memMap (codesOf ls) (Memory.writeList s.mem s.dstAddr.toNat (headerBytes n f)) s.srcAddr.toNat s.srcLen.toNat
      (s.dstAddr.toNat + 1028) (s.dstCap.toNat - 1028) = .error (.inflight .busError (s.dstAddr.toNat + (1028 + o))) := by
  obtain ⟨hok, hbad⟩ := hbad
  have hread := readList_src_after_header s n f hwin (by omega)
  have hdis := src_outside_dst s hwin
  rw [← Nat.add_assoc] at hbad ⊢
  refine packBits_stops _ _ _ _ _ _ _ o s.srcLen.toNat _ le_rfl hsrc ?coded (emitStops_bad _ _ _ _ (by omega) hbad) (.inr ⟨rfl, ?reached⟩)
    (by omega) (fun k hk => by rw [Nat.add_assoc]; exact hok _ (by omega)) (fun k hk => by have := hdis k hk; omega)
  case coded => rw [hread]; exact isSome_code_of_mem (srcBytes_length_lt s) hT hls
  case reached => rw [hread]; exact ho

/-- The archive COMPRESS writes is its header, then its payload. -/
theorem exec_compress_dstBad (hwin : windowsOk s) (hne : s.srcLen ≠ 0) (hsrc : allOK s s.srcAddr.toNat s.srcLen.toNat)
    (hfit : (archive (srcBytes s)).length ≤ s.dstCap.toNat) (hi : i < (archive (srcBytes s)).length)
    (hbad : firstBad s s.dstAddr.toNat i) : endsInFlight .compress s .busError (s.dstAddr.toNat + i) := by
  have hbytes : srcBytes s ≠ [] := mt (srcBytes_eq_nil s).mp hne
  obtain ⟨T, ls, hT, hls⟩ := exists_tree_of_bytes (srcBytes s) hbytes (srcBytes_length_lt s)
  rw [archive_length_of_tree hT hls hbytes] at hfit hi
  have hcap : ¬(1028 + ceilDiv (encodedBits ls) 8 > s.dstCap.toNat) :=
    codeBits_codesOf_length (srcBytes_length_lt s) hT hls ▸ Nat.not_lt_of_ge hfit
  refine endsInFlight_of_body .compress s _ _ ?_
  rw [bodyOf, compressBody_of_window s hwin hne, compressNonempty_tabled hsrc hT hls, raiseIf_of_not hcap, run_bind_ok]
  by_cases hi1028 : i < 1028
  · have hheader : writeHeader (tabled s T ls) = .error (.inflight .busError (s.dstAddr.toNat + i)) :=
      writeHeader_busError (tabled s T ls) i hi1028 hbad
    rw [hheader, run_bind_error]
  · obtain ⟨o, rfl⟩ := Nat.exists_eq_add_of_le (Nat.le_of_not_lt hi1028)
    have hheader : writeHeader (tabled s T ls) =
        .ok (Memory.writeList s.mem s.dstAddr.toNat (headerBytes s.srcLen (histogram (srcBytes s)))) :=
      writeHeader_ok (tabled s T ls) fun k hk => hbad.1 k (by omega)
    rw [hheader, run_bind_ok, packBits_compress_dstBad s T ls o hT hls hwin hsrc hfit (by omega) hbad, run_bind_error]

/-! ### PACK -/

section Pack

variable (hwin : windowsOk s) (hvalid : s.codesValid = true)
include hwin hvalid

theorem exec_pack_srcBad (hi : i < s.srcLen.toNat) (hbad : firstBad s s.srcAddr.toNat i)
    (hcode : ∀ b ∈ (srcBytes s).take i, (symGet s.code b).isSome = true)
    (hfit : (codeBits s.code ((srcBytes s).take i)).length / 8 ≤ s.dstCap.toNat)
    (hdst : allOK s s.dstAddr.toNat ((codeBits s.code ((srcBytes s).take i)).length / 8)) :
    endsInFlight .pack s .busError (s.srcAddr.toNat + i) := by
  rw [srcBytes_take s i hi.le] at hcode hfit hdst
  exact exec_pack_of_packBits s hwin hvalid _ _
    (packBits_srcBad _ _ _ _ _ _ _ i hi hbad.1 hbad.2 hcode hfit hdst (src_outside_dst s hwin))

/-- Byte `i` is emitted as a code of the first `n` bytes completes it, or as the last one, where `n` is SRC_LEN. -/
theorem exec_pack_dstBad (n : Nat) (hn : n ≤ s.srcLen.toNat) (hsrc : allOK s s.srcAddr.toNat n)
    (hcode : ∀ b ∈ (srcBytes s).take n, (symGet s.code b).isSome = true)
    (hreached : i < (codeBits s.code ((srcBytes s).take n)).length / 8 ∨
      (n = s.srcLen.toNat ∧ i < ceilDiv (codeBits s.code (srcBytes s)).length 8)) (hi : i < s.dstCap.toNat)
    (hbad : firstBad s s.dstAddr.toNat i) : endsInFlight .pack s .busError (s.dstAddr.toNat + i) := by
  rw [srcBytes_take s n hn] at hcode hreached
  refine exec_pack_of_packBits s hwin hvalid _ _ (packBits_stops _ _ _ _ _ _ _ i n _ hn hsrc hcode (emitStops_bad _ _ _ _ hi hbad.2) ?_
    hi.le hbad.1 fun q hq => src_outside_dst s hwin q (hq.trans_le hn))
  refine hreached.imp_right ?_
  rintro ⟨rfl, hlast⟩
  exact ⟨rfl, hlast⟩

end Pack

/-! ### UNPACK -/

section Unpack

variable {ls xs : List LeafPath} (hwin : windowsOk s) (hvalid : s.treeValid = true) (hT : treeCurrent s)
  (hls : leafPaths s.node s.root = .ok ls) (hfit : s.origLen.toNat ≤ s.dstCap.toNat) (hxs : ∀ x ∈ xs, x ∈ ls)
include hwin hvalid hT hls hfit hxs

theorem exec_unpack_srcBad {l : LeafPath} {front : List Bool} (hcount : xs.length < s.origLen.toNat) (hl : l ∈ ls)
    (hstarts : startsWith l.path front) (hne : front ≠ l.path)
    (hbits : bytesBits ((srcBytes s).take i) = (xs.flatMap fun x => x.path) ++ front) (hi : i < s.srcLen.toNat)
    (hbad : firstBad s s.srcAddr.toNat i) (hdst : allOK s s.dstAddr.toNat xs.length) :
    endsInFlight .unpack s .busError (s.srcAddr.toNat + i) := by
  rw [srcBytes_take s i hi.le] at hbits
  exact exec_unpack_of_run s hwin hvalid hfit _ _ (decodePayload_listed_srcBad (T := treeRegs s) hT hls hxs hl hstarts hne hi hbits
    hcount hbad.1 hbad.2 hdst (src_outside_output s hwin _ hfit))

theorem exec_unpack_dstBad {tail : List Bool} (hcount : xs.length = i + 1) (hi : i < s.origLen.toNat)
    (hbits : bytesBits (srcBytes s) = (xs.flatMap fun x => x.path) ++ tail)
    (hsrc : allOK s s.srcAddr.toNat (ceilDiv (xs.flatMap fun x => x.path).length 8)) (hbad : firstBad s s.dstAddr.toNat i) :
    endsInFlight .unpack s .busError (s.dstAddr.toNat + i) :=
  exec_unpack_of_run s hwin hvalid hfit _ _ (decodePayload_listed_dstBad (T := treeRegs s) hT hls hxs hcount hbits hi hsrc hbad.1
    hbad.2 (src_outside_output s hwin _ hfit))

end Unpack

end FirstBad

/-- Settles O23: each access of each command has its lemma above, those of DECOMPRESS's decoder beside its checks. -/
theorem firstUnresponsiveByteIsTheBusError : Obligations.FirstUnresponsiveByteIsTheBusError := by
  unfold Obligations.FirstUnresponsiveByteIsTheBusError
  intro s i
  refine ⟨exec_count_busError s i, exec_hdrParse_busError s i, exec_decompress_headerBad s i, exec_compress_srcBad s i,
    exec_hdrWrite_busError s i, exec_compress_dstBad s i, exec_pack_srcBad s i,
    fun n hn hwin hvalid => exec_pack_dstBad s i hwin hvalid n hn, ?unpackSrc, ?unpackDst, ?decompress⟩
  case unpackSrc =>
    intro ls xs l front hwin hvalid hT hls hfit hxs hcount hl hstarts hne hbits hi hbad hdst
    exact exec_unpack_srcBad s i hwin hvalid hT hls hfit hxs hcount hl hstarts hne hbits hi hbad hdst
  case unpackDst =>
    intro ls xs tail hwin hvalid hT hls hfit hxs hcount hi hbits hsrc hbad
    exact exec_unpack_dstBad s i hwin hvalid hT hls hfit hxs hcount hi hbits hsrc hbad
  case decompress =>
    intro hb T ls xs hwin hlen hhb hn hsum hT hls hpayload hfit hxs
    refine ⟨fun l front hcount hl hstarts hne hbits hk hbad hdst => ?source, fun tail hcount hi hbits hsrc hbad => ?destination⟩
    case source =>
      exact exec_decompress_srcBad hwin hlen hhb ⟨hn, hsum⟩ hT hls hpayload hfit hxs hl hstarts hne hcount hbits hk hbad hdst
    case destination =>
      exact exec_decompress_dstBad hwin hlen hhb ⟨hn, hsum⟩ hT hls hpayload hfit hxs hcount hi hbits hsrc hbad

end Sys2Proof.Machine
end
